-- ==== Sys2Proof/Word.lean ====
section
/-! DEFINITION. The word types of MRB: 32-bit words (00_scope.md R8) and the two IEEE 754 bit patterns
(40_numerics.md R100, R105). -/

namespace Sys2Proof

/-- A word is 32 bits (00_scope.md R8). -/
abbrev Word := BitVec 32

/-- A byte of a byte-wide transport (20_memory.md R64). Nothing inside MRB is addressed by bytes. -/
abbrev Byte := BitVec 8

/-- The bit pattern of a binary32 value (40_numerics.md R100). -/
abbrev F32 := BitVec 32

/-- The bit pattern of a binary64 value (40_numerics.md R105). -/
abbrev F64 := BitVec 64

end Sys2Proof
end

