-- ==== Sys2Proof/Config.lean ====
section
/-! DEFINITION. What an MRB instance fixes (00_scope.md R6, R7) and what the spec leaves open
(40_numerics.md R104, R106; 93_implementation_defined.md Part 1). -/

namespace Sys2Proof

/-- The floating-point operations that can make a NaN; an index of the free NaN patterns (log 7). -/
inductive FpOp where
  | add
  | sub
  | mul
  | div
  | sqrt
  deriving DecidableEq, Repr

/-- The parameters of 00_scope.md R6 and the `VOICE_ORDER` of 92_eei_decisions.md D21. They are constant for the life
of an instance (R7). `State` carries them because the step has no other argument (DESIGN CHOICE, log 1). `N_VOICES`
is the number of banks of `State`; `N_MODES` is 8. -/
structure Params where
  /-- `NUM_CH_MAX`, 1..15. -/
  numChMax : Nat
  /-- `MAX_BLOCK_CAP`, 1..65535. -/
  maxBlockCap : Nat
  /-- `SKIP_THRESH`, any positive binary32. -/
  skipThresh : F32
  /-- `EPS_FLUSH`, any positive binary32. -/
  epsFlush : F32
  /-- `T60_MIN_MS`, any positive binary32. -/
  t60MinMs : F32
  /-- `DECAY_K`, pi or 3 ln 10 in binary64. -/
  decayK : F64
  /-- `VOICE_ORDER`: the order in which `MIX.BLOCK` takes the voices; ascending by default (43_mixer.md R173; log 10). -/
  voiceOrder : List Nat
  deriving DecidableEq, Repr

/-- `PI64`, the default `DECAY_K` (40_numerics.md R107). -/
def Config.pi64 : F64 := 0x400921FB54442D18#64

/-- `K_T60`, the alternative `DECAY_K`: 3 ln 10 (40_numerics.md R107). -/
def Config.kT60 : F64 := 0x401BA18A998FFFA1#64

/-- `N_VOICES` of the default instance (00_scope.md R6). -/
def Config.nVoices : Nat := 16

/-- The values 00_scope.md R6 fixes for MRB. -/
def Config.params : Params where
  numChMax := 2
  maxBlockCap := 1024
  skipThresh := 0x3A83126F#32
  epsFlush := 0x26901D7D#32
  t60MinMs := 0x3F800000#32
  decayK := Config.pi64
  voiceOrder := List.range Config.nVoices

/-- `FN_EXP` before the bounds of R106 (b) are applied to it: an open function of its argument alone
(40_numerics.md R106 (a); DESIGN CHOICE, log 6). -/
opaque Config.fnExpRaw : F64 → F64

/-- `FN_COS` before the bounds of R106 (c) are applied to it (40_numerics.md R106 (a); DESIGN CHOICE, log 6). -/
opaque Config.fnCosRaw : F64 → F64

/-- The sign and the 23-bit payload of the NaN that a binary32 operation makes: any value
(40_numerics.md R104; 93_implementation_defined.md I3; DESIGN CHOICE, log 7). -/
opaque Config.nan32 : FpOp → F32 → F32 → BitVec 24

/-- The sign and the 52-bit payload of the NaN that a binary64 operation makes (log 7). -/
opaque Config.nan64 : FpOp → F64 → F64 → BitVec 53

/-- The sign and payload of a binary64 NaN rounded to binary32 (log 7). -/
opaque Config.nanNarrow : F64 → BitVec 24

/-- The sign and payload of a binary32 NaN widened to binary64 (log 7). -/
opaque Config.nanWiden : F32 → BitVec 53

end Sys2Proof
end

