-- ==== Sys2Proof/Machine/Float.lean ====
section
/-! DEFINITION. IEEE 754 arithmetic on bit patterns (00_scope.md R12; 40_numerics.md R100 to R105): every finite value is
an exact integer multiple of the format's smallest subnormal, every result is computed exactly and rounded once. -/

namespace Sys2Proof.Machine

/-! ## Formats and exact values -/

/-- A binary interchange format: the widths of its fraction and exponent fields. -/
structure Fmt where
  fw : Nat
  ew : Nat
  deriving DecidableEq, Repr

/-- binary32 (40_numerics.md R100). -/
def b32 : Fmt := ⟨23, 8⟩

/-- binary64 (40_numerics.md R105). -/
def b64 : Fmt := ⟨52, 11⟩

/-- The smallest subnormal of the format is 2^(-unit): 149 for binary32, 1074 for binary64. -/
def Fmt.unit (f : Fmt) : Nat := 2 ^ (f.ew - 1) + f.fw - 2

/-- The weight of the sign bit in a pattern. -/
def Fmt.signBit (f : Fmt) : Nat := 2 ^ (f.ew + f.fw)

/-- The pattern of +infinity. -/
def Fmt.infMag (f : Fmt) : Nat := (2 ^ f.ew - 1) * 2 ^ f.fw

/-- A pattern without its sign bit. -/
def Fmt.mag (f : Fmt) (x : Nat) : Nat := x % f.signBit

/-- The sign bit is set. -/
def Fmt.neg (f : Fmt) (x : Nat) : Bool := decide (x / f.signBit % 2 = 1)

/-- The exact magnitude of a finite pattern, in units of the smallest subnormal (40_numerics.md R100). -/
def Fmt.units (f : Fmt) (x : Nat) : Nat :=
  let e := f.mag x / 2 ^ f.fw
  let frac := f.mag x % 2 ^ f.fw
  if e = 0 then frac else (2 ^ f.fw + frac) * 2 ^ (e - 1)

/-- What a pattern stands for: a NaN, an infinity, or a signed number of units. -/
inductive FpView where
  | nan
  | inf (neg : Bool)
  | fin (neg : Bool) (units : Nat)
  deriving DecidableEq, Repr

/-- The value of a pattern (40_numerics.md R100). -/
def Fmt.view (f : Fmt) (x : Nat) : FpView :=
  if f.infMag < f.mag x then .nan
  else if f.mag x = f.infMag then .inf (f.neg x)
  else .fin (f.neg x) (f.units x)

/-- The pattern with the given sign and magnitude. -/
def Fmt.pack (f : Fmt) (neg : Bool) (mag : Nat) : Nat := (if neg then f.signBit else 0) + mag

/-! ## Rounding -/

/-- The magnitude pattern nearest to the exact value `num / den` units, ties to the even fraction; infinity from the
overflow threshold on (40_numerics.md R101). -/
def Fmt.round (f : Fmt) (num den : Nat) : Nat :=
  let e := (num / den).log2 - f.fw
  let d := den * 2 ^ e
  let q := num / d
  let r := num % d
  let up := if d < 2 * r ∨ (2 * r = d ∧ q % 2 = 1) then 1 else 0
  min (e * 2 ^ f.fw + q + up) f.infMag

/-- The largest magnitude pattern whose value is at most `n` units. -/
def Fmt.trunc (f : Fmt) (n : Nat) : Nat :=
  let e := n.log2 - f.fw
  min (e * 2 ^ f.fw + n / 2 ^ e) (f.infMag - 1)

/-- The largest `r` below `2 ^ bits` with `r * r ≤ n`. -/
def isqrt (n : Nat) : Nat → Nat
  | 0 => 0
  | bits + 1 =>
    let r := isqrt (n / 4) bits
    if (2 * r + 1) * (2 * r + 1) ≤ n then 2 * r + 1 else 2 * r

/-! ## The operations of a format: none stands for a NaN -/

/-- A signed number of units. -/
def signedUnits (neg : Bool) (u : Nat) : Int := if neg then -(u : Int) else (u : Int)

/-- The correctly rounded sum (40_numerics.md R102). An exact zero sum is +0 but for `(-0) + (-0)`. -/
def Fmt.add (f : Fmt) (a b : Nat) : Option Nat :=
  match f.view a, f.view b with
  | .nan, _ => none
  | _, .nan => none
  | .inf s, .inf t => if s = t then some (f.pack s f.infMag) else none
  | .inf s, .fin _ _ => some (f.pack s f.infMag)
  | .fin _ _, .inf t => some (f.pack t f.infMag)
  | .fin s u, .fin t w =>
    let z := signedUnits s u + signedUnits t w
    some (if z = 0 then f.pack (s && t) 0 else f.pack (decide (z < 0)) (f.round z.natAbs 1))

/-- The correctly rounded product (40_numerics.md R102). -/
def Fmt.mul (f : Fmt) (a b : Nat) : Option Nat :=
  match f.view a, f.view b with
  | .nan, _ => none
  | _, .nan => none
  | .inf s, .inf t => some (f.pack (s ^^ t) f.infMag)
  | .inf s, .fin t w => if w = 0 then none else some (f.pack (s ^^ t) f.infMag)
  | .fin s u, .inf t => if u = 0 then none else some (f.pack (s ^^ t) f.infMag)
  | .fin s u, .fin t w => some (f.pack (s ^^ t) (f.round (u * w) (2 ^ f.unit)))

/-- The correctly rounded quotient (40_numerics.md R105). The cases of an infinity and of a zero divisor, which no
reachable state meets (R112), are those of IEEE 754 (PRESUMED, log 8). -/
def Fmt.div (f : Fmt) (a b : Nat) : Option Nat :=
  match f.view a, f.view b with
  | .nan, _ => none
  | _, .nan => none
  | .inf _, .inf _ => none
  | .inf s, .fin t _ => some (f.pack (s ^^ t) f.infMag)
  | .fin s _, .inf t => some (f.pack (s ^^ t) 0)
  | .fin s u, .fin t w =>
    if w = 0 then (if u = 0 then none else some (f.pack (s ^^ t) f.infMag))
    else some (f.pack (s ^^ t) (f.round (u * 2 ^ f.unit) w))

/-- The correctly rounded square root (40_numerics.md R105). In units the exact root is the root of `u * 2^unit`; it is
rounded by comparing four times its square with the square of the odd number between two neighbours. -/
def Fmt.sqrt (f : Fmt) (a : Nat) : Option Nat :=
  match f.view a with
  | .nan => none
  | .inf s => if s then none else some (f.pack false f.infMag)
  | .fin s u =>
    if u = 0 then some (f.pack s 0)
    else if s then none
    else
      let n := u * 2 ^ f.unit
      let e := (isqrt n (n.log2 / 2 + 1)).log2 - f.fw
      let q := isqrt n (n.log2 / 2 + 1) / 2 ^ e
      let mid := (2 * q + 1) * (2 * q + 1) * 4 ^ e
      let up := if mid < 4 * n ∨ (mid = 4 * n ∧ q % 2 = 1) then 1 else 0
      some (f.pack false (min (e * 2 ^ f.fw + q + up) f.infMag))

/-- The order of the exact values, infinities included: the two zeros are equal (00_scope.md R12). -/
def Fmt.key (f : Fmt) (x : Nat) : Int := signedUnits (f.neg x) (f.mag x)

/-- `a < b` as exact real values; false when either side is NaN (00_scope.md R12). -/
def Fmt.lt (f : Fmt) (a b : Nat) : Bool :=
  decide (f.view a ≠ .nan) && decide (f.view b ≠ .nan) && decide (f.key a < f.key b)

/-- `a <= b` as exact real values; false when either side is NaN (00_scope.md R12). -/
def Fmt.le (f : Fmt) (a b : Nat) : Bool :=
  decide (f.view a ≠ .nan) && decide (f.view b ≠ .nan) && decide (f.key a ≤ f.key b)

/-! ## binary32 -/

/-- A binary32 NaN with the given sign (bit 23) and payload (bits 22:0, made nonzero): every NaN is one of these. -/
def nanOf32 (free : BitVec 24) : F32 :=
  let payload := free.extractLsb' 0 23
  free.extractLsb' 23 1 ++ 0xFF#8 ++ (if payload = 0 then 1#23 else payload)

/-- A binary64 NaN with the given sign (bit 52) and payload (bits 51:0, made nonzero). -/
def nanOf64 (free : BitVec 53) : F64 :=
  let payload := free.extractLsb' 0 52
  free.extractLsb' 52 1 ++ 0x7FF#11 ++ (if payload = 0 then 1#52 else payload)

/-- `isfinite` of a binary32 (00_scope.md R12): its exponent field is not all ones. -/
def isFinite (x : F32) : Bool := decide (b32.mag x.toNat < b32.infMag)

/-- `neg32`: flips the sign bit (00_scope.md R12). -/
def neg32 (a : F32) : F32 := a ^^^ 0x80000000#32

/-- `abs32`: clears the sign bit (00_scope.md R12). -/
def abs32 (a : F32) : F32 := a &&& 0x7FFFFFFF#32

/-- `add32` (40_numerics.md R102). A NaN result has any sign and payload (R104; log 7). -/
def add32 (a b : F32) : F32 :=
  match b32.add a.toNat b.toNat with
  | some r => BitVec.ofNat 32 r
  | none => nanOf32 (Config.nan32 .add a b)

/-- `sub32`: the sum with the negated operand (40_numerics.md R102). -/
def sub32 (a b : F32) : F32 :=
  match b32.add a.toNat (neg32 b).toNat with
  | some r => BitVec.ofNat 32 r
  | none => nanOf32 (Config.nan32 .sub a b)

/-- `mul32` (40_numerics.md R102). -/
def mul32 (a b : F32) : F32 :=
  match b32.mul a.toNat b.toNat with
  | some r => BitVec.ofNat 32 r
  | none => nanOf32 (Config.nan32 .mul a b)

/-- `a < b` on binary32 (00_scope.md R12). -/
def lt32 (a b : F32) : Bool := b32.lt a.toNat b.toNat

/-- `a <= b` on binary32 (00_scope.md R12). -/
def le32 (a b : F32) : Bool := b32.le a.toNat b.toNat

/-- The exact value of a finite binary32, in units of 2^-149. -/
def units32 (a : F32) : Int := signedUnits (b32.neg a.toNat) (b32.units a.toNat)

/-! ## binary64 -/

/-- `isfinite` of a binary64 (00_scope.md R12). -/
def isFinite64 (x : F64) : Bool := decide (b64.mag x.toNat < b64.infMag)

/-- Negation of a binary64: flips the sign bit, and is exact (40_numerics.md R111). -/
def neg64 (a : F64) : F64 := a ^^^ 0x8000000000000000#64

/-- `+64` (40_numerics.md R105). -/
def add64 (a b : F64) : F64 :=
  match b64.add a.toNat b.toNat with
  | some r => BitVec.ofNat 64 r
  | none => nanOf64 (Config.nan64 .add a b)

/-- `-64` (40_numerics.md R105). -/
def sub64 (a b : F64) : F64 :=
  match b64.add a.toNat (neg64 b).toNat with
  | some r => BitVec.ofNat 64 r
  | none => nanOf64 (Config.nan64 .sub a b)

/-- `*64` (40_numerics.md R105). -/
def mul64 (a b : F64) : F64 :=
  match b64.mul a.toNat b.toNat with
  | some r => BitVec.ofNat 64 r
  | none => nanOf64 (Config.nan64 .mul a b)

/-- `/64` (40_numerics.md R105). -/
def div64 (a b : F64) : F64 :=
  match b64.div a.toNat b.toNat with
  | some r => BitVec.ofNat 64 r
  | none => nanOf64 (Config.nan64 .div a b)

/-- `sqrt64` (40_numerics.md R105). -/
def sqrt64 (a : F64) : F64 :=
  match b64.sqrt a.toNat with
  | some r => BitVec.ofNat 64 r
  | none => nanOf64 (Config.nan64 .sqrt a a)

/-- `a < b` on binary64 (00_scope.md R12). -/
def lt64 (a b : F64) : Bool := b64.lt a.toNat b.toNat

/-- `a <= b` on binary64 (00_scope.md R12). -/
def le64 (a b : F64) : Bool := b64.le a.toNat b.toNat

/-- The exact value of a finite binary64, in units of 2^-1074. -/
def units64 (a : F64) : Int := signedUnits (b64.neg a.toNat) (b64.units a.toNat)

/-! ## Conversions -/

/-- `to64`: the exact binary64 value of a binary32 (00_scope.md R12); one binary32 unit is 2^925 binary64 units. -/
def to64 (x : F32) : F64 :=
  match b32.view x.toNat with
  | .nan => nanOf64 (Config.nanWiden x)
  | .inf s => BitVec.ofNat 64 (b64.pack s b64.infMag)
  | .fin s u => BitVec.ofNat 64 (b64.pack s (b64.round (u * 2 ^ 925) 1))

/-- `rne32`: the nearest binary32, ties to even; the sign is kept (40_numerics.md R101). -/
def rne32 (y : F64) : F32 :=
  match b64.view y.toNat with
  | .nan => nanOf32 (Config.nanNarrow y)
  | .inf s => BitVec.ofNat 32 (b32.pack s b32.infMag)
  | .fin s u => BitVec.ofNat 32 (b32.pack s (b32.round u (2 ^ 925)))

/-- The binary64 value of a small natural number, exact (42_resonator_bank.md R153). -/
def nat64 (n : Nat) : F64 := BitVec.ofNat 64 (b64.round (n * 2 ^ 1074) 1)

end Sys2Proof.Machine
end

