-- ==== Sys2Proof/Machine/Numerics.lean ====
section
/-! DEFINITION. The numerics of 40_numerics.md: the constants (R107), the decay clamp (R110), the coefficient function
(R111 to R116), the state flush (R118) and the tables of the bank (R121, R122). -/

namespace Sys2Proof.Machine

/-! ## Constants -/

/-- `+0.0`. -/
def zero32 : F32 := 0x00000000#32

/-- `1.0` in binary64. -/
def one64 : F64 := 0x3FF0000000000000#64

/-- `+0.0` in binary64. -/
def zero64 : F64 := 0x0000000000000000#64

/-- `-1.0` in binary64. -/
def negOne64 : F64 := 0xBFF0000000000000#64

/-- `-2.0` in binary64. -/
def negTwo64 : F64 := 0xC000000000000000#64

/-- `TWO_PI64` (40_numerics.md R107). -/
def twoPi64 : F64 := 0x401921FB54442D18#64

/-- `MS_PER_S` (40_numerics.md R107). -/
def msPerS : F64 := 0x408F400000000000#64

/-- `R_MAX` = 1 - 2^-24 (40_numerics.md R107). -/
def rMax : F64 := 0x3FEFFFFFE0000000#64

/-! ## The configuration functions -/

/-- `x` limited to the closed interval from `lo` to `hi`; a NaN becomes `lo`. -/
def clamp64 (lo hi x : F64) : F64 :=
  if le64 lo x then (if le64 x hi then x else hi) else lo

/-- `FN_EXP`: an open function of its argument that keeps the bounds of 40_numerics.md R106 (b): for finite `x <= 0` it
is in [0, 1], and 1.0 at zero (log 6). -/
def fnExp (x : F64) : F64 :=
  if isFinite64 x && le64 x zero64 then
    if le64 zero64 x then one64 else clamp64 zero64 one64 (Config.fnExpRaw x)
  else Config.fnExpRaw x

/-- `FN_COS`: an open function of its argument that keeps the bounds of 40_numerics.md R106 (c): for finite `x` it is in
[-1, 1], and 1.0 at zero (log 6). -/
def fnCos (x : F64) : F64 :=
  if isFinite64 x then
    if le64 x zero64 && le64 zero64 x then one64 else clamp64 negOne64 one64 (Config.fnCosRaw x)
  else Config.fnCosRaw x

/-! ## The T60 to pole mapping -/

/-- `DCLAMP` (40_numerics.md R110), with the parameter `T60_MIN_MS`. -/
def dclamp (t60MinMs d : F32) : F32 := if le32 t60MinMs d then d else t60MinMs

/-- The largest binary32 strictly less than `1 + a2`, a positive exact number (40_numerics.md R116). -/
def belowOnePlus (a2 : F32) : Nat := b32.trunc (2 ^ b32.unit + units32 a2 - 1).toNat

/-- `JURY` (40_numerics.md R116): `|a1|` and `1 + a2` are compared as exact numbers of units. -/
def jury (a1 a2 : F32) : F32 :=
  if decide (b32.view a1.toNat ≠ .nan) && decide (2 ^ b32.unit + units32 a2 ≤ (b32.units a1.toNat : Int)) then
    BitVec.ofNat 32 (b32.pack (b32.neg a1.toNat) (belowOnePlus a2))
  else a1

/-- The pole radius `r` of `COEF` before the clamp: `FN_EXP(-(DECAY_K / (T60_seconds * sr)))` (40_numerics.md R111). -/
def poleRadius (decayK : F64) (d sr : F32) : F64 :=
  let t := div64 (to64 d) msPerS
  let u := mul64 t (to64 sr)
  let q := div64 decayK u
  fnExp (neg64 q)

/-- The pole angle `w` of `COEF`, in radians per sample (40_numerics.md R111). -/
def poleAngle (f sr : F32) : F64 := div64 (mul64 twoPi64 (to64 f)) (to64 sr)

/-- The limit of `r` (40_numerics.md R113). -/
def limitRadius (r : F64) : F64 := if lt64 rMax r then rMax else r

/-- The three coefficients `b0`, `a1`, `a2` (10_state.md R27). -/
structure Coefs where
  b0 : F32
  a1 : F32
  a2 : F32
  deriving DecidableEq, Repr

/-- The coefficients of the limited radius `r` and the cosine `c` of the angle: each from the binary64 `r`, each rounded
once, then `JURY` (40_numerics.md R111, R115). -/
def coefsOf (r c : F64) : Coefs :=
  let a1 := rne32 (mul64 (mul64 negTwo64 r) c)
  let a2 := rne32 (mul64 r r)
  ⟨rne32 (sub64 one64 r), jury a1 a2, a2⟩

/-- `COEF(f, d, sr)` (40_numerics.md R111), with the parameter `DECAY_K`. -/
def coef (decayK : F64) (f d sr : F32) : Coefs :=
  coefsOf (limitRadius (poleRadius decayK d sr)) (fnCos (poleAngle f sr))

/-! ## The state flush -/

/-- `FLUSH` (40_numerics.md R118), with the parameter `EPS_FLUSH`. A NaN is kept: the comparison is false. -/
def flush (eps s : F32) : F32 := if lt32 (abs32 s) eps then zero32 else s

/-! ## Tables -/

/-- `NORM_TABLE` (40_numerics.md R121): the values are normative. -/
def normTable (n : Fin 9) : F32 :=
  match n with
  | 0 => 0x00000000#32
  | 1 => 0x3F800000#32
  | 2 => 0x3F3504F3#32
  | 3 => 0x3F13CD3A#32
  | 4 => 0x3F000000#32
  | 5 => 0x3EE4F92E#32
  | 6 => 0x3ED105EC#32
  | 7 => 0x3EC1848F#32
  | 8 => 0x3EB504F3#32

/-- `PHI_POW(k)` for `k` in 1..8 (40_numerics.md R122): the values are normative. No rank is outside 1..8. -/
def phiPow (k : Nat) : F64 :=
  match k with
  | 1 => 0x3FF9E3779B97F4A8#64
  | 2 => 0x4004F1BBCDCBFA54#64
  | 3 => 0x4010F1BBCDCBFA54#64
  | 4 => 0x401B6A99B4B1F77E#64
  | 5 => 0x40262E2AC13EF8E9#64
  | 6 => 0x4031F1BBCDCBFA54#64
  | 7 => 0x403D08D12E6B76C9#64
  | 8 => 0x40477D467E1BB88F#64
  | _ => zero64

end Sys2Proof.Machine
end

