-- ==== Sys2Proof/Syntax.lean ====
section
/-! DEFINITION. The commands of MRB: one constructor of `Instr` for each row of the opcode table (30_encoding.md R84),
the four words a command is made of (R80), the status codes (60_exceptions.md R221) and the pseudo-instructions (R91). -/

namespace Sys2Proof

/-- A decoded command (30_encoding.md R84). `v` is VID, `m` is MID; the operand words follow in the order A, B, C, the
unused ones left out (R82). An f32 operand is its bit pattern (R83). -/
inductive Instr where
  /-- `NOP` (45_system.md R200). -/
  | nop
  /-- `MF.CFG v, m, freq, decay_ms, sr` (41_modal_filter.md R131). -/
  | mfCfg (v : BitVec 8) (m : BitVec 4) (freq decay sr : F32)
  /-- `MF.RST v, m` (R132). -/
  | mfRst (v : BitVec 8) (m : BitVec 4)
  /-- `MF.STEP v, m, x` (R133). -/
  | mfStep (v : BitVec 8) (m : BitVec 4) (x : F32)
  /-- `RB.SETFREQ v, m, hz` (42_resonator_bank.md R142). -/
  | rbSetfreq (v : BitVec 8) (m : BitVec 4) (hz : F32)
  /-- `RB.SETDECAY v, m, ms, sr` (R143). -/
  | rbSetdecay (v : BitVec 8) (m : BitVec 4) (ms sr : F32)
  /-- `RB.SETAMP v, m, amp` (R144). -/
  | rbSetamp (v : BitVec 8) (m : BitVec 4) (amp : F32)
  /-- `RB.SETTAG v, m, tag` (R145). -/
  | rbSettag (v : BitVec 8) (m : BitVec 4) (tag : Word)
  /-- `RB.SETCOUNT v, n` (R146). -/
  | rbSetcount (v : BitVec 8) (n : Word)
  /-- `RB.TUNE v, fund` (R147). -/
  | rbTune (v : BitVec 8) (fund : F32)
  /-- `RB.PREP v, sr` (R148). -/
  | rbPrep (v : BitVec 8) (sr : F32)
  /-- `RB.RST v` (R149). -/
  | rbRst (v : BitVec 8)
  /-- `RB.STEP v, x` (R150). -/
  | rbStep (v : BitVec 8) (x : F32)
  /-- `ENG.PREP sr, maxblk` (43_mixer.md R170). -/
  | engPrep (sr : F32) (maxblk : Word)
  /-- `MIX.SETACT v, act` (R171). -/
  | mixSetact (v : BitVec 8) (act : Word)
  /-- `MIX.BLOCK ns, nc` (R172). -/
  | mixBlock (ns nc : Word)
  /-- `MIX.PANIC` (R178). -/
  | mixPanic
  /-- `MIX.COUNT` (R180). -/
  | mixCount
  /-- `BUF.WRIN v, n, value` (44_buffers.md R190). -/
  | bufWrin (v : BitVec 8) (n : Word) (value : F32)
  /-- `BUF.RDIN v, n` (R191). -/
  | bufRdin (v : BitVec 8) (n : Word)
  /-- `BUF.RDOUT ch, n` (R192). -/
  | bufRdout (ch n : Word)
  /-- `RD.MODE v, m, sel` (45_system.md R202). -/
  | rdMode (v : BitVec 8) (m : BitVec 4) (sel : Word)
  /-- `RD.BANK v, sel` (R203). -/
  | rdBank (v : BitVec 8) (sel : Word)
  /-- `RD.GLOBAL sel` (R204). -/
  | rdGlobal (sel : Word)
  /-- `ST.CLEAR` (R205). -/
  | stClear
  deriving DecidableEq, Repr

/-- The four words of a command: the header W0 and the operand words (30_encoding.md R80). -/
structure Command where
  w0 : Word
  w1 : Word
  w2 : Word
  w3 : Word
  deriving DecidableEq, Repr

/-- The status codes of a response (60_exceptions.md R221). No other value occurs. -/
inductive Code where
  | ok
  | eOpcode
  | eRsv
  | eVoice
  | eMode
  | eOperand
  | eCount
  | eBlock
  | eIndex
  | wNf
  deriving DecidableEq, Repr

/-- The operand class of an opcode (30_encoding.md R81): which header fields it uses. -/
inductive OpClass where
  /-- uses VID and MID -/
  | vm
  /-- uses VID -/
  | v
  /-- uses neither -/
  | g
  deriving DecidableEq, Repr

/-- The pseudo-instructions of 30_encoding.md R91. None has an opcode of its own. -/
inductive Pseudo where
  | voiceOn (v : BitVec 8)
  | voiceOff (v : BitVec 8)
  | rbConfig (v : BitVec 8) (n : Word) (sr : F32)
  | rbAlltag (v : BitVec 8) (t : Word)
  | allNotesOff
  | getCount
  deriving DecidableEq, Repr

end Sys2Proof
end

