-- ==== Sys2Proof/Machine/State.lean ====
section
/-! DEFINITION. The state of MRB (10_state.md R22 to R45), the reasons a step can stop, and the state after reset. -/

namespace Sys2Proof.Machine

/-- The tuning class of a mode slot (10_state.md R29): 0 = harmonic, 1 = inharmonic. -/
inductive Tag where
  | harmonic
  | inharmonic
  deriving DecidableEq, Repr

/-- One mode slot `MODE[v][m]`, a ModalFilter (10_state.md R23 to R29). -/
structure Slot where
  /-- `FREQ`, Hz (R23). -/
  freq : F32
  /-- `DECAY`, ms, after the clamp (R24). -/
  decay : F32
  /-- `SR`, Hz; +0.0 means no rate known (R25). -/
  sr : F32
  /-- `AMP`, the mix weight (R26). -/
  amp : F32
  /-- `B0` (R27). -/
  b0 : F32
  /-- `A1` (R27). -/
  a1 : F32
  /-- `A2` (R27). -/
  a2 : F32
  /-- `S1` (R28). -/
  s1 : F32
  /-- `S2` (R28). -/
  s2 : F32
  /-- `TAG` (R29). -/
  tag : Tag
  deriving DecidableEq, Repr

/-- One bank: the eight slots of voice `v` and the fields `BANK[v]` (10_state.md R31 to R34). -/
structure Bank where
  slots : Vector Slot 8
  /-- `COUNT_PEND`, 0..8 (R31). -/
  countPend : Fin 9
  /-- `COUNT_EFF`, 0..8 (R32). -/
  countEff : Fin 9
  /-- `NORM` (R33). -/
  norm : F32
  /-- `FUND` (R34). -/
  fund : F32
  deriving DecidableEq, Repr

/-- `G.STATUS` (10_state.md R35). Its bits 7:2 and 31:16 are hardwired 0 and are built as zeros at the read (log 11). -/
structure Status where
  /-- `ERR`, bit 0, sticky. -/
  err : Bool
  /-- `NF`, bit 1, sticky. -/
  nf : Bool
  /-- `LAST_ERR`, bits 15:8. -/
  lastErr : BitVec 8
  deriving DecidableEq, Repr

/-- A sample buffer: (word address, word) pairs in one canonical form, addresses strictly rising and no entry equal to
0x00000000, which is what an unlisted address reads as (10_state.md R45). The smallest unit is the word
(20_memory.md R64, R66; log 9). -/
structure Memory where
  cells : List (Nat × Word)
  deriving DecidableEq, Repr

/-- The two host agents (20_memory.md R71; 60_exceptions.md R240). MRB does not see which one sent a command. -/
inductive Agent where
  | audio
  | control
  deriving DecidableEq, Repr

/-- A command that has arrived and is not yet executed, with the agent that issued it. -/
structure Issued where
  agent : Agent
  cmd : Command
  deriving DecidableEq, Repr

/-- A response: R0 is the status code, R1 the result word (30_encoding.md R86). -/
structure Response where
  status : Code
  result : Word
  deriving DecidableEq, Repr

/-- The state of MRB (10_state.md R22). -/
structure State where
  /-- The parameters of 00_scope.md R6 other than `N_VOICES`; no step changes them (R7; log 1). -/
  params : Params
  /-- The banks of voices 0, 1, …; `N_VOICES` is their number (00_scope.md R1, R6). -/
  banks : List Bank
  /-- `G.STATUS` (R35). -/
  status : Status
  /-- `G.ACTIVE` (R36). -/
  active : Word
  /-- `G.MAXBLK` (R37). -/
  maxBlk : Nat
  /-- `G.ENGINE_SR` (R39). -/
  engineSr : F32
  /-- `IN` (20_memory.md R60). -/
  inBuf : Memory
  /-- `OUT` (20_memory.md R60). -/
  outBuf : Memory
  /-- The commands issued and not yet executed, in the order of arrival (R43; log 2). -/
  pending : List Issued
  /-- The responses given so far, oldest first (20_memory.md R77; the model's own field, log 3). -/
  responses : List Response
  deriving DecidableEq, Repr

/-- Why the machine could stop. MRB has no such reason: every command completes or is rejected with a response, and no
case stops the block (60_exceptions.md R220, R231; 93_implementation_defined.md, treatment `stuck`). NF is a record and a
property of a run, not a stop (log 5). -/
inductive Fault where
  deriving DecidableEq, Repr

/-- Why the model could give an instruction no meaning. -/
inductive Refusal where
  /-- Raised by `exec` for an instruction that has no meaning yet, by its mnemonic; safe: the model stops where the
  hardware goes on. No arm raises it. -/
  | notModelled (mnemonic : String)
  deriving DecidableEq, Repr

/-- What executing a command answers. -/
abbrev Outcome := Host.Outcome State Fault Refusal

/-- A mode slot after power-on reset (10_state.md R45). -/
def Slot.reset : Slot where
  freq := 0x00000000#32
  decay := 0x447A0000#32
  sr := 0x00000000#32
  amp := 0x3F800000#32
  b0 := 0x00000000#32
  a1 := 0x00000000#32
  a2 := 0x00000000#32
  s1 := 0x00000000#32
  s2 := 0x00000000#32
  tag := .harmonic

/-- A bank after power-on reset (10_state.md R45). -/
def Bank.reset : Bank where
  slots := Vector.replicate 8 Slot.reset
  countPend := 8
  countEff := 0
  norm := 0x00000000#32
  fund := 0x00000000#32

/-- Power-on reset of an instance with the given parameters and number of voices (10_state.md R45;
70_reset_and_hazards.md R250). -/
def State.resetWith (params : Params) (nVoices : Nat) : State where
  params := params
  banks := List.replicate nVoices Bank.reset
  status := ⟨false, false, 0#8⟩
  active := 0#32
  maxBlk := 0
  engineSr := 0x00000000#32
  inBuf := ⟨[]⟩
  outBuf := ⟨[]⟩
  pending := []
  responses := []

/-- MRB right after power-on reset, with the values 00_scope.md R6 fixes (10_state.md R45). -/
def State.reset : State := State.resetWith Config.params Config.nVoices

end Sys2Proof.Machine
end

