-- ==== Sys2Proof/Machine/Operands.lean ====
section
/-! DEFINITION. The operand checks (40_numerics.md R120; 60_exceptions.md R224) and the one addressing mode of the sample
buffers (44_buffers.md R193). -/

namespace Sys2Proof.Machine

/-- `N_VOICES` of an instance: the number of its banks (00_scope.md R1, R6). -/
def State.nVoices (s : State) : Nat := s.banks.length

/-- A rate operand `x > 0`; false for +0.0 and -0.0 (60_exceptions.md R224). -/
def ratePositive (x : F32) : Bool := lt32 zero32 x

/-- The tuning class a `tag` operand names; none above 1 (42_resonator_bank.md R145). -/
def tagOfWord (w : Word) : Option Tag :=
  if w = 0 then some .harmonic else if w = 1 then some .inharmonic else none

/-- `zext_32(TAG)` (10_state.md R29). -/
def Tag.word : Tag → Word
  | .harmonic => 0
  | .inharmonic => 1

/-- `a_in(v, n)`, the word address of input sample `n` of voice `v` (20_memory.md R60). -/
def aIn (p : Params) (v n : Nat) : Nat := v * p.maxBlockCap + n

/-- `a_out(ch, n)`, the word address of output sample `n` of channel `ch` (20_memory.md R60). -/
def aOut (p : Params) (ch n : Nat) : Nat := ch * p.maxBlockCap + n

end Sys2Proof.Machine
end

