-- ==== Sys2Proof/Machine/Flags.lean ====
section
/-! DEFINITION. The status record, the active-voice word and the read-only words (10_state.md R35, R36, R38, R40, R42). -/

namespace Sys2Proof.Machine

/-- The number of a status code (60_exceptions.md R221). -/
def Code.byte : Code → BitVec 8
  | .ok => 0
  | .eOpcode => 1
  | .eRsv => 2
  | .eVoice => 3
  | .eMode => 4
  | .eOperand => 5
  | .eCount => 6
  | .eBlock => 7
  | .eIndex => 8
  | .wNf => 9

/-- The status record after a rejection: ERR set, LAST_ERR the code, NF kept (60_exceptions.md R222). -/
def Status.onReject (st : Status) (c : Code) : Status := { st with err := true, lastErr := Code.byte c }

/-- The status record after NF: NF set, ERR and LAST_ERR kept (60_exceptions.md R226). -/
def Status.onNF (st : Status) : Status := { st with nf := true }

/-- The cleared status record (45_system.md R205). -/
def Status.cleared : Status := ⟨false, false, 0⟩

/-- `G.STATUS` as a word: bits 31:16 and 7:2 are hardwired 0 (10_state.md R35). -/
def Status.word (st : Status) : Word :=
  0#16 ++ st.lastErr ++ 0#6 ++ BitVec.ofBool st.nf ++ BitVec.ofBool st.err

/-- `G.ACTIVE` as a word: bits at or above `N_VOICES` are hardwired 0 (10_state.md R36). -/
def State.activeWord (s : State) : Word := s.active &&& BitVec.ofNat 32 (2 ^ s.nVoices - 1)

/-- `G.ACTIVE[v]` (10_state.md R36). -/
def State.isActive (s : State) (v : Nat) : Bool := s.activeWord.getLsbD v

/-- A word with bit `v` set or cleared (43_mixer.md R171). -/
def setBit (w : Word) (v : Nat) (b : Bool) : Word :=
  if b then w ||| BitVec.twoPow 32 v else w &&& ~~~(BitVec.twoPow 32 v)

/-- `popcount` (40_numerics.md R109). -/
def popcount (w : Word) : Nat := (List.range 32).countP fun i => w.getLsbD i

/-- The active voice count (10_state.md R40; 43_mixer.md R180). -/
def State.activeCount (s : State) : Word := BitVec.ofNat 32 (popcount s.activeWord)

/-- `G.ID` (10_state.md R38). -/
def idWord : Word := 0x4D524231#32

/-- `G.CONFIG` (10_state.md R38): MAX_BLOCK_CAP, NUM_CH_MAX, N_MODES = 8 and N_VOICES. -/
def State.configWord (s : State) : Word :=
  BitVec.ofNat 16 s.params.maxBlockCap ++ BitVec.ofNat 4 s.params.numChMax ++ 8#4 ++ BitVec.ofNat 8 s.nVoices

end Sys2Proof.Machine
end

