-- ==== Sys2Proof/Machine/Memory.lean ====
section
/-! DEFINITION. Reads and writes of a sample buffer (00_scope.md R10; 20_memory.md R60, R66, R76): one whole word each,
over the canonical list of cells. -/

namespace Sys2Proof.Machine

/-- What an unlisted address reads as: +0.0, the reset value of every element (10_state.md R45). -/
def unlistedWord : Word := 0x00000000#32

/-- The word at an address of a list of cells. -/
def readCells : List (Nat × Word) → Nat → Word
  | [], _ => unlistedWord
  | (k, w) :: rest, a => if k = a then w else readCells rest a

/-- The list of cells with the word at an address replaced; writing what an unlisted address reads as removes the cell. -/
def writeCells : List (Nat × Word) → Nat → Word → List (Nat × Word)
  | [], a, w => if w = unlistedWord then [] else [(a, w)]
  | (k, x) :: rest, a, w =>
    if a < k then (if w = unlistedWord then (k, x) :: rest else (a, w) :: (k, x) :: rest)
    else if a = k then (if w = unlistedWord then rest else (a, w) :: rest)
    else (k, x) :: writeCells rest a w

/-- `MemRead(space, a, 4)` (00_scope.md R10). -/
def Memory.read (m : Memory) (a : Nat) : Word := readCells m.cells a

/-- `MemWrite(space, a, 4, w)` (00_scope.md R10). -/
def Memory.write (m : Memory) (a : Nat) (w : Word) : Memory := ⟨writeCells m.cells a w⟩

/-- The canonical form: addresses strictly rising, and no cell equal to what an unlisted address reads as. -/
abbrev Memory.wf (m : Memory) : Prop :=
  m.cells.Pairwise (fun c d => c.1 < d.1) ∧ ∀ c ∈ m.cells, c.2 ≠ unlistedWord

end Sys2Proof.Machine
end

