-- ==== Sys2Proof/Machine/Ops.lean ====
section
/-! DEFINITION. The shared operations: how a command ends (60_exceptions.md R220 to R228), access to the register file,
the coefficient update (40_numerics.md R117), the mode step (41_modal_filter.md R130), the bank step
(42_resonator_bank.md R140, R141), preparation (R148) and the tuning policy (R147, R152, R153). -/

namespace Sys2Proof.Machine

/-! ## How a command ends -/

/-- `respond(status, result)`: one response, after the earlier ones (00_scope.md R11; 20_memory.md R77). -/
def respond (c : Code) (result : Word) (s : State) : Outcome :=
  .next { s with responses := s.responses ++ [⟨c, result⟩] }

/-- `reject E(code)`: the one thing MRB has in the place of an exception. ERR and LAST_ERR are written, the response is
(code, 0), nothing else changes and the next command runs as usual (60_exceptions.md R222, R231). -/
def reject (c : Code) (s : State) : Outcome := respond c 0 { s with status := s.status.onReject c }

/-- The end of an accepted command that may have raised NF: the sticky bit and `W_NF`, once, or `OK`
(60_exceptions.md R226, R228; log 5). -/
def complete (nf : Bool) (result : Word) (s : State) : Outcome :=
  if nf then respond .wNf result { s with status := s.status.onNF } else respond .ok result s

/-! ## The register file -/

/-- The bank of voice `v`, if the instance has it. -/
def State.bank? (s : State) (v : Nat) : Option Bank := s.banks[v]?

/-- The slot `MODE[v][m]`, if the instance has it. -/
def State.slot? (s : State) (v m : Nat) : Option Slot := (s.bank? v).bind fun b => b.slots[m]?

/-- The state with the bank of voice `v` replaced. -/
def State.putBank (s : State) (v : Nat) (b : Bank) : State := { s with banks := s.banks.set v b }

/-- The bank with slot `m` replaced. -/
def Bank.putSlot (b : Bank) (m : Nat) (sl : Slot) : Bank := { b with slots := b.slots.setIfInBounds m sl }

/-- Continue with the bank VID names. The decoder has checked VID (30_encoding.md R88); for a command that did not come
from it the answer is the same rejection (log 14). -/
def onBank (v : BitVec 8) (s : State) (k : Bank → Outcome) : Outcome :=
  match s.bank? v.toNat with
  | none => reject .eVoice s
  | some b => k b

/-- Continue with the bank and the slot that VID and MID name; the rejections are those of the decoder, in its order
(30_encoding.md R88; log 14). -/
def onSlot (v : BitVec 8) (m : BitVec 4) (s : State) (k : Bank → Slot → Outcome) : Outcome :=
  onBank v s fun b =>
    match b.slots[m.toNat]? with
    | none => reject .eMode s
    | some sl => k b sl

/-- The state with slot `m` of the bank `b` of voice `v` replaced. -/
def State.putSlot (s : State) (v : BitVec 8) (b : Bank) (m : BitVec 4) (sl : Slot) : State :=
  s.putBank v.toNat (b.putSlot m.toNat sl)

/-! ## The coefficient update and the mode step -/

/-- `UPDATE(v, m)` (40_numerics.md R117; 10_state.md R30): the coefficients follow FREQ, DECAY and SR once the slot has a
rate, and no other field changes. -/
def Slot.update (p : Params) (sl : Slot) : Slot :=
  if ratePositive sl.sr then
    let c := coef p.decayK sl.freq sl.decay sl.sr
    { sl with b0 := c.b0, a1 := c.a1, a2 := c.a2 }
  else sl

/-- What a step of a slot or a bank gives: the new state, the output sample, and whether NF was raised. -/
structure Stepped (α : Type) where
  st : α
  y : F32
  nf : Bool
  deriving DecidableEq, Repr

/-- `MF_STEP` (41_modal_filter.md R130): the direct form II transposed recurrence, in the order written. -/
def Slot.step (p : Params) (sl : Slot) (x : F32) : Stepped Slot :=
  let y := add32 (mul32 sl.b0 x) sl.s1
  let s1n := flush p.epsFlush (sub32 sl.s2 (mul32 sl.a1 y))
  let s2n := flush p.epsFlush (neg32 (mul32 sl.a2 y))
  { st := { sl with s1 := s1n, s2 := s2n }
    y := y
    nf := !(isFinite y && isFinite s1n && isFinite s2n) }

/-- The reset of a ModalFilter: S1 and S2 to +0.0 (41_modal_filter.md R132). -/
def Slot.clear (sl : Slot) : Slot := { sl with s1 := zero32, s2 := zero32 }

/-! ## The bank -/

/-- The slots of a bank after one sample: the active ones stepped with the same input, the others kept with no output
(42_resonator_bank.md R140). -/
def Bank.stepSlots (p : Params) (b : Bank) (x : F32) : Vector (Stepped Slot) 8 :=
  b.slots.mapIdx fun m sl => if m < b.countEff.val then sl.step p x else ⟨sl, zero32, false⟩

/-- The weighted sum of `BANK_SUM` over the outputs of the active slots, ascending; the near-silent ones are skipped
(42_resonator_bank.md R141). -/
def weightedSum (p : Params) (outs : List (Stepped Slot)) : F32 :=
  outs.foldl (fun acc o => if le32 p.skipThresh (abs32 o.st.amp) then add32 acc (mul32 o.st.amp o.y) else acc) zero32

/-- `BANK_STEP` (42_resonator_bank.md R140, R141). -/
def Bank.step (p : Params) (b : Bank) (x : F32) : Stepped Bank :=
  let outs := b.stepSlots p x
  let acc := weightedSum p (outs.toList.take b.countEff.val)
  let out := mul32 acc b.norm
  { st := { b with slots := outs.map fun o => o.st }
    y := out
    nf := outs.toList.any (fun o => o.nf) || !(isFinite acc && isFinite out) }

/-- The state changes of `RB.PREP` (42_resonator_bank.md R148): the count and the scale come into force, and the active
slots get the rate and their coefficients. S1 and S2 stay. -/
def Bank.prep (p : Params) (b : Bank) (sr : F32) : Bank :=
  { b with
    countEff := b.countPend
    norm := normTable b.countPend
    slots := b.slots.mapIdx fun m sl => if m < b.countPend.val then ({ sl with sr := sr } : Slot).update p else sl }

/-- The reset of a bank: S1 and S2 of all eight slots (42_resonator_bank.md R149). -/
def Bank.clear (b : Bank) : Bank := { b with slots := b.slots.map Slot.clear }

/-! ## The tuning policy -/

/-- `RANK(v, m)` for the slot `m` of tag `t`: its 1-based place among the slots of its own tag (42_resonator_bank.md R152). -/
def Bank.rank (b : Bank) (m : Nat) (t : Tag) : Nat := 1 + (b.slots.toList.take m).countP fun sl => sl.tag = t

/-- `PARTIAL_FREQ` for a tag and a rank (42_resonator_bank.md R153). -/
def partialFreq (t : Tag) (k : Nat) (fund : F32) : F32 :=
  match t with
  | .harmonic => rne32 (mul64 (to64 fund) (nat64 k))
  | .inharmonic => rne32 (mul64 (to64 fund) (phiPow k))

/-- The partial frequencies of all eight slots (42_resonator_bank.md R147, R153). -/
def Bank.partials (b : Bank) (fund : F32) : Vector F32 8 :=
  b.slots.mapIdx fun m sl => partialFreq sl.tag (b.rank m sl.tag) fund

/-- The state changes of `RB.TUNE` (42_resonator_bank.md R147). No tag changes, so every rank is that of the start. -/
def Bank.tune (p : Params) (b : Bank) (fund : F32) : Bank :=
  { b with
    fund := fund
    slots := b.slots.mapIdx fun m sl =>
      ({ sl with freq := partialFreq sl.tag (b.rank m sl.tag) fund } : Slot).update p }

end Sys2Proof.Machine
end

