-- ==== Sys2Proof/Machine/Buffers.lean ====
section
/-! DEFINITION. The buffer access commands (44_buffers.md R190 to R193). -/

namespace Sys2Proof.Machine

/-- `BUF.WRIN` (44_buffers.md R190): the index is checked before the value. -/
def execBufWrin (v : BitVec 8) (n : Word) (value : F32) (s : State) : Outcome :=
  onBank v s fun _ =>
    if s.params.maxBlockCap ≤ n.toNat then reject .eIndex s
    else if !isFinite value then reject .eOperand s
    else respond .ok 0 { s with inBuf := s.inBuf.write (aIn s.params v.toNat n.toNat) value }

/-- `BUF.RDIN` (44_buffers.md R191). -/
def execBufRdin (v : BitVec 8) (n : Word) (s : State) : Outcome :=
  onBank v s fun _ =>
    if s.params.maxBlockCap ≤ n.toNat then reject .eIndex s
    else respond .ok (s.inBuf.read (aIn s.params v.toNat n.toNat)) s

/-- `BUF.RDOUT` (44_buffers.md R192). -/
def execBufRdout (ch n : Word) (s : State) : Outcome :=
  if s.params.numChMax ≤ ch.toNat then reject .eIndex s
  else if s.params.maxBlockCap ≤ n.toNat then reject .eIndex s
  else respond .ok (s.outBuf.read (aOut s.params ch.toNat n.toNat)) s

end Sys2Proof.Machine
end

