-- ==== Sys2Proof/Machine/Mixer.lean ====
section
/-! DEFINITION. The mixer commands (43_mixer.md R170 to R180). -/

namespace Sys2Proof.Machine

/-- `ENG.PREP` (43_mixer.md R170): the rate, the block size, and every bank prepared. A rejection answers 0, `false`. -/
def execEngPrep (sr : F32) (maxblk : Word) (s : State) : Outcome :=
  if !isFinite sr then reject .eOperand s
  else if !ratePositive sr then reject .eOperand s
  else if maxblk.toNat < 1 ∨ s.params.maxBlockCap < maxblk.toNat then reject .eBlock s
  else
    respond .ok 1
      { s with
        engineSr := sr
        maxBlk := maxblk.toNat
        banks := s.banks.map fun b => b.prep s.params sr }

/-- `MIX.SETACT` (43_mixer.md R171): one bit of `G.ACTIVE`. -/
def execMixSetact (v : BitVec 8) (act : Word) (s : State) : Outcome :=
  onBank v s fun _ =>
    if 1 < act.toNat then reject .eOperand s
    else respond .ok 0 { s with active := setBit s.active v.toNat (decide (act = 1)) }

/-! ## The block -/

/-- The clear of the destination, once per block: channels below `nc`, samples below `ns` (43_mixer.md R176). -/
def clearOut (p : Params) (nc ns : Nat) (out : Memory) : Memory :=
  (List.range nc).foldl (fun o ch => (List.range ns).foldl (fun o n => o.write (aOut p ch n) zero32) o) out

/-- `OUT` while a block accumulates, and whether NF was raised so far. -/
structure MixAcc where
  out : Memory
  nf : Bool
  deriving DecidableEq, Repr

/-- Add one sample of a voice, at gain 1, to one channel (43_mixer.md R174, R176). -/
def addToChannel (p : Params) (n : Nat) (y : F32) (acc : MixAcc) (ch : Nat) : MixAcc :=
  let o := add32 (acc.out.read (aOut p ch n)) y
  ⟨acc.out.write (aOut p ch n) o, acc.nf || !isFinite o⟩

/-- One sample of a voice: step its bank with the input, and add the output to the channels below `nc` (43_mixer.md R176). -/
def mixSample (p : Params) (inBuf : Memory) (v nc : Nat) (st : Bank × MixAcc) (n : Nat) : Bank × MixAcc :=
  let r := st.1.step p (inBuf.read (aIn p v n))
  (r.st, (List.range nc).foldl (addToChannel p n r.y) ⟨st.2.out, st.2.nf || r.nf⟩)

/-- The whole block of one voice (43_mixer.md R173, R176). -/
def mixVoice (p : Params) (inBuf : Memory) (v nc ns : Nat) (b : Bank) (acc : MixAcc) : Bank × MixAcc :=
  (List.range ns).foldl (mixSample p inBuf v nc) (b, acc)

/-- Take one voice of the order: an Idle voice is skipped entirely (43_mixer.md R176). -/
def mixOne (s : State) (nc ns : Nat) (st : List Bank × MixAcc) (v : Nat) : List Bank × MixAcc :=
  if s.isActive v then
    match st.1[v]? with
    | none => st
    | some b =>
      let r := mixVoice s.params s.inBuf v nc ns b st.2
      (st.1.set v r.1, r.2)
  else st

/-- The banks and `OUT` after a block of `ns` samples on `nc` channels: clear once, then each active voice's whole block,
in `VOICE_ORDER`, which is ascending by default (43_mixer.md R173, R176; log 10). -/
def mixAll (s : State) (nc ns : Nat) : List Bank × MixAcc :=
  s.params.voiceOrder.foldl (mixOne s nc ns) (s.banks, ⟨clearOut s.params nc ns s.outBuf, false⟩)

/-- `MIX.BLOCK` (43_mixer.md R172, R175, R176). -/
def execMixBlock (ns nc : Word) (s : State) : Outcome :=
  if s.maxBlk < ns.toNat then reject .eBlock s
  else if nc.toNat < 1 ∨ s.params.numChMax < nc.toNat then reject .eBlock s
  else
    let r := mixAll s nc.toNat ns.toNat
    complete r.2.nf 0 { s with banks := r.1, outBuf := r.2.out }

/-- `MIX.PANIC` (43_mixer.md R178): every voice Idle, nothing else. -/
def execMixPanic (s : State) : Outcome := respond .ok 0 { s with active := 0 }

/-- `MIX.COUNT` (43_mixer.md R180). -/
def execMixCount (s : State) : Outcome := respond .ok s.activeCount s

end Sys2Proof.Machine
end

