-- ==== Sys2Proof/Machine/ModalFilter.lean ====
section
/-! DEFINITION. The modal filter commands (41_modal_filter.md R131 to R133). -/

namespace Sys2Proof.Machine

/-- `MF.CFG` (41_modal_filter.md R131): A, B and C finite, C > 0; then FREQ, DECAY and SR, and the coefficients. -/
def execMfCfg (v : BitVec 8) (m : BitVec 4) (freq decay sr : F32) (s : State) : Outcome :=
  onSlot v m s fun b sl =>
    if !(isFinite freq && isFinite decay && isFinite sr) then reject .eOperand s
    else if !ratePositive sr then reject .eOperand s
    else
      let sl' : Slot := { sl with freq := freq, decay := dclamp s.params.t60MinMs decay, sr := sr }
      respond .ok 0 (s.putSlot v b m (sl'.update s.params))

/-- `MF.RST` (41_modal_filter.md R132): S1 and S2 to +0.0. -/
def execMfRst (v : BitVec 8) (m : BitVec 4) (s : State) : Outcome :=
  onSlot v m s fun b sl => respond .ok 0 (s.putSlot v b m sl.clear)

/-- `MF.STEP` (41_modal_filter.md R133): one sample through one slot. -/
def execMfStep (v : BitVec 8) (m : BitVec 4) (x : F32) (s : State) : Outcome :=
  onSlot v m s fun b sl =>
    if !isFinite x then reject .eOperand s
    else
      let r := sl.step s.params x
      complete r.nf r.y (s.putSlot v b m r.st)

end Sys2Proof.Machine
end

