-- ==== Sys2Proof/Machine/ResonatorBank.lean ====
section
/-! DEFINITION. The resonator bank commands (42_resonator_bank.md R142 to R150). -/

namespace Sys2Proof.Machine

/-- `RB.SETFREQ` (42_resonator_bank.md R142). -/
def execRbSetfreq (v : BitVec 8) (m : BitVec 4) (hz : F32) (s : State) : Outcome :=
  onSlot v m s fun b sl =>
    if !isFinite hz then reject .eOperand s
    else respond .ok 0 (s.putSlot v b m (({ sl with freq := hz } : Slot).update s.params))

/-- `RB.SETDECAY` (42_resonator_bank.md R143). -/
def execRbSetdecay (v : BitVec 8) (m : BitVec 4) (ms sr : F32) (s : State) : Outcome :=
  onSlot v m s fun b sl =>
    if !(isFinite ms && isFinite sr) then reject .eOperand s
    else if !ratePositive sr then reject .eOperand s
    else
      let sl' : Slot := { sl with decay := dclamp s.params.t60MinMs ms, sr := sr }
      respond .ok 0 (s.putSlot v b m (sl'.update s.params))

/-- `RB.SETAMP` (42_resonator_bank.md R144): any finite value; no coefficient is recomputed. -/
def execRbSetamp (v : BitVec 8) (m : BitVec 4) (amp : F32) (s : State) : Outcome :=
  onSlot v m s fun b sl =>
    if !isFinite amp then reject .eOperand s
    else respond .ok 0 (s.putSlot v b m { sl with amp := amp })

/-- `RB.SETTAG` (42_resonator_bank.md R145): 0 or 1; FREQ stays until the next `RB.TUNE`. -/
def execRbSettag (v : BitVec 8) (m : BitVec 4) (tag : Word) (s : State) : Outcome :=
  onSlot v m s fun b sl =>
    match tagOfWord tag with
    | none => reject .eOperand s
    | some t => respond .ok 0 (s.putSlot v b m { sl with tag := t })

/-- `RB.SETCOUNT` (42_resonator_bank.md R146): the requested count only. -/
def execRbSetcount (v : BitVec 8) (n : Word) (s : State) : Outcome :=
  onBank v s fun b =>
    if h : n.toNat < 9 then respond .ok 0 (s.putBank v.toNat { b with countPend := ⟨n.toNat, h⟩ })
    else reject .eCount s

/-- `RB.TUNE` (42_resonator_bank.md R147): every check comes before the first write. -/
def execRbTune (v : BitVec 8) (fund : F32) (s : State) : Outcome :=
  onBank v s fun b =>
    if !isFinite fund then reject .eOperand s
    else if !(b.partials fund).toList.all isFinite then reject .eOperand s
    else respond .ok 0 (s.putBank v.toNat (b.tune s.params fund))

/-- `RB.PREP` (42_resonator_bank.md R148). -/
def execRbPrep (v : BitVec 8) (sr : F32) (s : State) : Outcome :=
  onBank v s fun b =>
    if !isFinite sr then reject .eOperand s
    else if !ratePositive sr then reject .eOperand s
    else respond .ok 0 (s.putBank v.toNat (b.prep s.params sr))

/-- `RB.RST` (42_resonator_bank.md R149): all eight slots, active or not. -/
def execRbRst (v : BitVec 8) (s : State) : Outcome :=
  onBank v s fun b => respond .ok 0 (s.putBank v.toNat b.clear)

/-- `RB.STEP` (42_resonator_bank.md R150): one sample through the bank. -/
def execRbStep (v : BitVec 8) (x : F32) (s : State) : Outcome :=
  onBank v s fun b =>
    if !isFinite x then reject .eOperand s
    else
      let r := b.step s.params x
      complete r.nf r.y (s.putBank v.toNat r.st)

end Sys2Proof.Machine
end

