-- ==== Sys2Proof/Machine/System.lean ====
section
/-! DEFINITION. The system commands (45_system.md R200 to R205). -/

namespace Sys2Proof.Machine

/-- `NOP` (45_system.md R200). -/
def execNop (s : State) : Outcome := respond .ok 0 s

/-- The selector map of `RD.MODE` (45_system.md R202; 10_state.md R41); none above 9. -/
def Slot.field? (sl : Slot) (sel : Nat) : Option Word :=
  match sel with
  | 0 => some sl.freq
  | 1 => some sl.decay
  | 2 => some sl.sr
  | 3 => some sl.amp
  | 4 => some sl.b0
  | 5 => some sl.a1
  | 6 => some sl.a2
  | 7 => some sl.s1
  | 8 => some sl.s2
  | 9 => some sl.tag.word
  | _ => none

/-- The selector map of `RD.BANK` (45_system.md R203); none above 3. -/
def Bank.field? (b : Bank) (sel : Nat) : Option Word :=
  match sel with
  | 0 => some (BitVec.ofNat 32 b.countPend.val)
  | 1 => some (BitVec.ofNat 32 b.countEff.val)
  | 2 => some b.norm
  | 3 => some b.fund
  | _ => none

/-- The selector map of `RD.GLOBAL` (45_system.md R204); none above 6. -/
def State.globalField? (s : State) (sel : Nat) : Option Word :=
  match sel with
  | 0 => some s.status.word
  | 1 => some s.activeWord
  | 2 => some s.activeCount
  | 3 => some (BitVec.ofNat 32 s.maxBlk)
  | 4 => some s.engineSr
  | 5 => some idWord
  | 6 => some s.configWord
  | _ => none

/-- A register read ends with the field, or with `E_OPERAND` where the selector names none. -/
def respondField (field : Option Word) (s : State) : Outcome :=
  match field with
  | none => reject .eOperand s
  | some w => respond .ok w s

/-- `RD.MODE` (45_system.md R202). -/
def execRdMode (v : BitVec 8) (m : BitVec 4) (sel : Word) (s : State) : Outcome :=
  onSlot v m s fun _ sl => respondField (sl.field? sel.toNat) s

/-- `RD.BANK` (45_system.md R203). -/
def execRdBank (v : BitVec 8) (sel : Word) (s : State) : Outcome :=
  onBank v s fun b => respondField (b.field? sel.toNat) s

/-- `RD.GLOBAL` (45_system.md R204). -/
def execRdGlobal (sel : Word) (s : State) : Outcome := respondField (s.globalField? sel.toNat) s

/-- `ST.CLEAR` (45_system.md R205). -/
def execStClear (s : State) : Outcome := respond .ok 0 { s with status := Status.cleared }

end Sys2Proof.Machine
end

