-- ==== Sys2Proof/Machine/Dispatch.lean ====
section
/-! DEFINITION. One arm per command of the opcode table (30_encoding.md R84). -/

namespace Sys2Proof.Machine

def exec (i : Instr) (s : State) : Host.Outcome State Fault Refusal :=
  match i with
  | .nop => Sys2Proof.Machine.execNop s
  | .mfCfg v m freq decay sr => Sys2Proof.Machine.execMfCfg v m freq decay sr s
  | .mfRst v m => Sys2Proof.Machine.execMfRst v m s
  | .mfStep v m x => Sys2Proof.Machine.execMfStep v m x s
  | .rbSetfreq v m hz => Sys2Proof.Machine.execRbSetfreq v m hz s
  | .rbSetdecay v m ms sr => Sys2Proof.Machine.execRbSetdecay v m ms sr s
  | .rbSetamp v m amp => Sys2Proof.Machine.execRbSetamp v m amp s
  | .rbSettag v m tag => Sys2Proof.Machine.execRbSettag v m tag s
  | .rbSetcount v n => Sys2Proof.Machine.execRbSetcount v n s
  | .rbTune v fund => Sys2Proof.Machine.execRbTune v fund s
  | .rbPrep v sr => Sys2Proof.Machine.execRbPrep v sr s
  | .rbRst v => Sys2Proof.Machine.execRbRst v s
  | .rbStep v x => Sys2Proof.Machine.execRbStep v x s
  | .engPrep sr maxblk => Sys2Proof.Machine.execEngPrep sr maxblk s
  | .mixSetact v act => Sys2Proof.Machine.execMixSetact v act s
  | .mixBlock ns nc => Sys2Proof.Machine.execMixBlock ns nc s
  | .mixPanic => Sys2Proof.Machine.execMixPanic s
  | .mixCount => Sys2Proof.Machine.execMixCount s
  | .bufWrin v n value => Sys2Proof.Machine.execBufWrin v n value s
  | .bufRdin v n => Sys2Proof.Machine.execBufRdin v n s
  | .bufRdout ch n => Sys2Proof.Machine.execBufRdout ch n s
  | .rdMode v m sel => Sys2Proof.Machine.execRdMode v m sel s
  | .rdBank v sel => Sys2Proof.Machine.execRdBank v sel s
  | .rdGlobal sel => Sys2Proof.Machine.execRdGlobal sel s
  | .stClear => Sys2Proof.Machine.execStClear s

end Sys2Proof.Machine
end

