-- ==== Sys2Proof/WellFormed.lean ====
section
/-! DEFINITION. When a command's header fields name something that exists: VID below `N_VOICES` and MID below 8
(30_encoding.md R88). The operand words are checked when the command executes (60_exceptions.md R223 step 5). -/

namespace Sys2Proof

/-- The voice a command names: VID, for the classes V and VM (30_encoding.md R81). -/
def Instr.voice? : Instr → Option (BitVec 8)
  | .nop => none
  | .mfCfg v _ _ _ _ => some v
  | .mfRst v _ => some v
  | .mfStep v _ _ => some v
  | .rbSetfreq v _ _ => some v
  | .rbSetdecay v _ _ _ => some v
  | .rbSetamp v _ _ => some v
  | .rbSettag v _ _ => some v
  | .rbSetcount v _ => some v
  | .rbTune v _ => some v
  | .rbPrep v _ => some v
  | .rbRst v => some v
  | .rbStep v _ => some v
  | .engPrep _ _ => none
  | .mixSetact v _ => some v
  | .mixBlock _ _ => none
  | .mixPanic => none
  | .mixCount => none
  | .bufWrin v _ _ => some v
  | .bufRdin v _ => some v
  | .bufRdout _ _ => none
  | .rdMode v _ _ => some v
  | .rdBank v _ => some v
  | .rdGlobal _ => none
  | .stClear => none

/-- The mode slot a command names: MID, for the class VM (30_encoding.md R81). -/
def Instr.mode? : Instr → Option (BitVec 4)
  | .nop => none
  | .mfCfg _ m _ _ _ => some m
  | .mfRst _ m => some m
  | .mfStep _ m _ => some m
  | .rbSetfreq _ m _ => some m
  | .rbSetdecay _ m _ _ => some m
  | .rbSetamp _ m _ => some m
  | .rbSettag _ m _ => some m
  | .rbSetcount _ _ => none
  | .rbTune _ _ => none
  | .rbPrep _ _ => none
  | .rbRst _ => none
  | .rbStep _ _ => none
  | .engPrep _ _ => none
  | .mixSetact _ _ => none
  | .mixBlock _ _ => none
  | .mixPanic => none
  | .mixCount => none
  | .bufWrin _ _ _ => none
  | .bufRdin _ _ => none
  | .bufRdout _ _ => none
  | .rdMode _ m _ => some m
  | .rdBank _ _ => none
  | .rdGlobal _ => none
  | .stClear => none

/-- VID is in range (30_encoding.md R88, `E_VOICE`). -/
def Instr.voiceOk (nVoices : Nat) (i : Instr) : Bool := i.voice?.all fun v => decide (v.toNat < nVoices)

/-- MID is in range (30_encoding.md R88, `E_MODE`). -/
def Instr.modeOk (i : Instr) : Bool := i.mode?.all fun m => decide (m.toNat < 8)

/-- The header fields of the command name a voice and a slot that exist. -/
def Instr.WellFormed (nVoices : Nat) (i : Instr) : Bool := i.voiceOk nVoices && i.modeOk

end Sys2Proof
end

