-- ==== Sys2Proof/Decode.lean ====
section
/-! DEFINITION. Decoding (30_encoding.md R80 to R89): a total function from any four words to a command or a rejection
code; the encoder; the byte order of a byte-wide transport (20_memory.md R64, R65); the pseudo-instructions (R91). -/

namespace Sys2Proof

/-! ## The opcode map -/

/-- The opcode map of 30_encoding.md R84: the class of an opcode and the command it makes of the header fields and the
operand words; none for the illegal opcodes of R85. -/
def opcodeMap (opc : BitVec 8) (v : BitVec 8) (m : BitVec 4) (a b c : Word) : Option (OpClass × Instr) :=
  match opc.toNat with
  | 0x00 => some (.g, .nop)
  | 0x01 => some (.vm, .mfCfg v m a b c)
  | 0x02 => some (.vm, .mfRst v m)
  | 0x03 => some (.vm, .mfStep v m a)
  | 0x10 => some (.vm, .rbSetfreq v m a)
  | 0x11 => some (.vm, .rbSetdecay v m a b)
  | 0x12 => some (.vm, .rbSetamp v m a)
  | 0x13 => some (.vm, .rbSettag v m a)
  | 0x14 => some (.v, .rbSetcount v a)
  | 0x15 => some (.v, .rbTune v a)
  | 0x16 => some (.v, .rbPrep v a)
  | 0x17 => some (.v, .rbRst v)
  | 0x18 => some (.v, .rbStep v a)
  | 0x20 => some (.g, .engPrep a b)
  | 0x21 => some (.v, .mixSetact v a)
  | 0x22 => some (.g, .mixBlock a b)
  | 0x23 => some (.g, .mixPanic)
  | 0x24 => some (.g, .mixCount)
  | 0x30 => some (.v, .bufWrin v a b)
  | 0x31 => some (.v, .bufRdin v a)
  | 0x32 => some (.g, .bufRdout a b)
  | 0x40 => some (.vm, .rdMode v m a)
  | 0x41 => some (.v, .rdBank v a)
  | 0x42 => some (.g, .rdGlobal a)
  | 0x43 => some (.g, .stClear)
  | _ => none

/-- OPC, W0 bits 31:24 (30_encoding.md R80). -/
def Command.opc (c : Command) : BitVec 8 := c.w0.extractLsb' 24 8

/-- VID, W0 bits 23:16 (30_encoding.md R80). -/
def Command.vid (c : Command) : BitVec 8 := c.w0.extractLsb' 16 8

/-- MID, W0 bits 15:12 (30_encoding.md R80). -/
def Command.mid (c : Command) : BitVec 4 := c.w0.extractLsb' 12 4

/-- RSV, W0 bits 11:0 (30_encoding.md R80). -/
def Command.rsv (c : Command) : BitVec 12 := c.w0.extractLsb' 0 12

/-- RSV and the header fields that the class does not use are zero (30_encoding.md R81). -/
def Command.reservedZero (c : Command) (cls : OpClass) : Bool :=
  c.rsv == 0 &&
  match cls with
  | .vm => true
  | .v => c.mid == 0
  | .g => c.vid == 0 && c.mid == 0

/-- `decode` of 30_encoding.md R88, in the check order of 60_exceptions.md R223, steps 1 to 4. It reads nothing but the
four words and `N_VOICES` (R89). -/
def decode (nVoices : Nat) (c : Command) : Except Code Instr :=
  match opcodeMap c.opc c.vid c.mid c.w1 c.w2 c.w3 with
  | none => .error .eOpcode
  | some (cls, i) =>
    if !c.reservedZero cls then .error .eRsv
    else if !i.voiceOk nVoices then .error .eVoice
    else if !i.modeOk then .error .eMode
    else .ok i

/-! ## The encoder -/

/-- The header W0 with RSV = 0 (30_encoding.md R80). -/
def headerWord (opc : BitVec 8) (v : BitVec 8) (m : BitVec 4) : Word := opc ++ v ++ m ++ 0#12

/-- The words of a command. An unused operand word assembles as 0 (30_encoding.md R84, R90). -/
def encode : Instr → Command
  | .nop => ⟨headerWord 0x00 0 0, 0, 0, 0⟩
  | .mfCfg v m freq decay sr => ⟨headerWord 0x01 v m, freq, decay, sr⟩
  | .mfRst v m => ⟨headerWord 0x02 v m, 0, 0, 0⟩
  | .mfStep v m x => ⟨headerWord 0x03 v m, x, 0, 0⟩
  | .rbSetfreq v m hz => ⟨headerWord 0x10 v m, hz, 0, 0⟩
  | .rbSetdecay v m ms sr => ⟨headerWord 0x11 v m, ms, sr, 0⟩
  | .rbSetamp v m amp => ⟨headerWord 0x12 v m, amp, 0, 0⟩
  | .rbSettag v m tag => ⟨headerWord 0x13 v m, tag, 0, 0⟩
  | .rbSetcount v n => ⟨headerWord 0x14 v 0, n, 0, 0⟩
  | .rbTune v fund => ⟨headerWord 0x15 v 0, fund, 0, 0⟩
  | .rbPrep v sr => ⟨headerWord 0x16 v 0, sr, 0, 0⟩
  | .rbRst v => ⟨headerWord 0x17 v 0, 0, 0, 0⟩
  | .rbStep v x => ⟨headerWord 0x18 v 0, x, 0, 0⟩
  | .engPrep sr maxblk => ⟨headerWord 0x20 0 0, sr, maxblk, 0⟩
  | .mixSetact v act => ⟨headerWord 0x21 v 0, act, 0, 0⟩
  | .mixBlock ns nc => ⟨headerWord 0x22 0 0, ns, nc, 0⟩
  | .mixPanic => ⟨headerWord 0x23 0 0, 0, 0, 0⟩
  | .mixCount => ⟨headerWord 0x24 0 0, 0, 0, 0⟩
  | .bufWrin v n value => ⟨headerWord 0x30 v 0, n, value, 0⟩
  | .bufRdin v n => ⟨headerWord 0x31 v 0, n, 0, 0⟩
  | .bufRdout ch n => ⟨headerWord 0x32 0 0, ch, n, 0⟩
  | .rdMode v m sel => ⟨headerWord 0x40 v m, sel, 0, 0⟩
  | .rdBank v sel => ⟨headerWord 0x41 v 0, sel, 0, 0⟩
  | .rdGlobal sel => ⟨headerWord 0x42 0 0, sel, 0, 0⟩
  | .stClear => ⟨headerWord 0x43 0 0, 0, 0, 0⟩

/-! ## The byte-wide transport -/

/-- A word, least significant byte first (20_memory.md R64). -/
def wordBytes (w : Word) : List Byte :=
  [w.extractLsb' 0 8, w.extractLsb' 8 8, w.extractLsb' 16 8, w.extractLsb' 24 8]

/-- The word of four bytes, least significant byte first (20_memory.md R64). -/
def bytesWord (b0 b1 b2 b3 : Byte) : Word := b3 ++ b2 ++ b1 ++ b0

/-- The bytes of a command: W0, W1, W2, W3 (20_memory.md R64). -/
def Command.toBytes (c : Command) : List Byte := wordBytes c.w0 ++ wordBytes c.w1 ++ wordBytes c.w2 ++ wordBytes c.w3

/-- The commands in a stream of bytes: 16 bytes each. Fewer than 16 bytes at the end are a partial command, which is no
command (20_memory.md R65; 93_implementation_defined.md I10; log 12). -/
def commandsOfBytes : List Byte → List Command
  | a0 :: a1 :: a2 :: a3 :: b0 :: b1 :: b2 :: b3 :: c0 :: c1 :: c2 :: c3 :: d0 :: d1 :: d2 :: d3 :: rest =>
    ⟨bytesWord a0 a1 a2 a3, bytesWord b0 b1 b2 b3, bytesWord c0 c1 c2 c3, bytesWord d0 d1 d2 d3⟩ :: commandsOfBytes rest
  | _ => []

/-- The command whose 128 bits are `w`: bit 0 is the least significant bit of W0, and W1, W2 and W3 count on from it. -/
def Command.ofNat (w : Nat) : Command :=
  ⟨BitVec.ofNat 32 w, BitVec.ofNat 32 (w >>> 32), BitVec.ofNat 32 (w >>> 64), BitVec.ofNat 32 (w >>> 96)⟩

/-- The command of an opcode-table row: its low `nbits` bits are those of `w`, every other bit is 0. -/
def tableCommand (nbits w : Nat) : Command := Command.ofNat (w % 2 ^ nbits)

/-- What the decoder of the default instance reads from a row's bits, laid out as the transport carries them. -/
def decodeTableWord (nbits w : Nat) : Option Instr :=
  match commandsOfBytes (tableCommand nbits w).toBytes with
  | [c] => (decode Config.nVoices c).toOption
  | _ => none

/-! ## Pseudo-instructions -/

/-- The commands a pseudo-instruction expands to, in order (30_encoding.md R91). -/
def Pseudo.expand : Pseudo → List Instr
  | .voiceOn v => [.rbRst v, .mixSetact v 1]
  | .voiceOff v => [.mixSetact v 0]
  | .rbConfig v n sr => [.rbSetcount v n, .rbPrep v sr]
  | .rbAlltag v t => (List.range 8).map fun m => .rbSettag v (BitVec.ofNat 4 m) t
  | .allNotesOff => [.mixPanic]
  | .getCount => [.mixCount]

end Sys2Proof
end

