-- ==== Sys2Proof/Machine/Port.lean ====
section
/-! DEFINITION. The command port: taking the next command (20_memory.md R70), and what the host may do between commands
(20_memory.md R64, R65, R71; 60_exceptions.md R246; 70_reset_and_hazards.md R250). That the host reaches `IN` and `OUT` by
commands alone, and not by the mapping that 44_buffers.md R194 leaves to a platform, is the model's choice (DESIGN CHOICE,
log 21). -/

namespace Sys2Proof.Machine

/-- The next command to execute and the state without it; none when no command is pending (20_memory.md R70). -/
def State.takeCommand (s : State) : Option (Command × State) :=
  match s.pending with
  | [] => none
  | c :: rest => some (c.cmd, { s with pending := rest })

/-- A command that arrives next, before every pending one. -/
def State.putCommandFirst (s : State) (c : Command) : State := { s with pending := ⟨.control, c⟩ :: s.pending }

/-- An agent's command arrives after every pending one (20_memory.md R71). -/
def State.issue (s : State) (a : Agent) (c : Command) : State := { s with pending := s.pending ++ [⟨a, c⟩] }

/-- Bytes arrive from an agent on a byte-wide transport: each whole command in them arrives, and a partial command at the
end is not delivered (20_memory.md R64, R65; log 12). -/
def State.deliver (s : State) (a : Agent) (bytes : List Byte) : State :=
  { s with pending := s.pending ++ (commandsOfBytes bytes).map fun c => ⟨a, c⟩ }

/-- R0: the status code, zero-extended (30_encoding.md R86). -/
def Response.r0 (r : Response) : Word := (Code.byte r.status).setWidth 32

/-- R1: the result word (30_encoding.md R86). -/
def Response.r1 (r : Response) : Word := r.result

/-- A response on a byte-wide transport: R0, then R1 (20_memory.md R64). -/
def Response.toBytes (r : Response) : List Byte := wordBytes r.r0 ++ wordBytes r.r1

/-- Power-on reset, a host event and no command (70_reset_and_hazards.md R250, R251): every field at its reset value, the
pending commands discarded, the parameters kept. -/
def State.powerOn (s : State) : State := State.resetWith s.params s.nVoices

end Sys2Proof.Machine
end

