-- ==== Sys2Proof/Machine/Run.lean ====
section
/-! DEFINITION. Decoding and executing one command (30_encoding.md R88; 20_memory.md R70). -/

namespace Sys2Proof.Machine

/-- Decode and execute one command: a rejection of the decoder is a rejection of the command (30_encoding.md R88). -/
def runCommand (c : Command) (s : State) : Host.Outcome State Fault Refusal :=
  match decode s.nVoices c with
  | .error code => reject code s
  | .ok i => exec i s

end Sys2Proof.Machine
end

