-- ==== Sys2Proof/Machine/Step.lean ====
section
/-! DEFINITION. One step of MRB: execute the next command to completion (20_memory.md R70). -/

namespace Sys2Proof.Machine

/-- One step. With no pending command MRB is idle and changes nothing (60_exceptions.md R245; log 4). -/
def step (s : State) : Host.Outcome State Fault Refusal :=
  match s.takeCommand with
  | none => .next s
  | some (c, t) => runCommand c t

/-- The state in which the command of an opcode-table row's bits is the next one to arrive: MRB holds no program, so this
stands for a host that sends it (log 2). -/
def State.withFetchWord (s : State) (nbits w : Nat) : State := s.putCommandFirst (tableCommand nbits w)

end Sys2Proof.Machine
end

