-- ==== Sys2Proof/Machine/Boot.lean ====
section
/-! DEFINITION. The boot sequence: the commands a host issues, in order, for MRB to produce audio
(70_reset_and_hazards.md R253). -/

namespace Sys2Proof.Machine

/-- How step 2 gives one slot its frequency when the voice is not tuned as a whole (R253). -/
inductive SlotPitch where
  /-- `RB.SETFREQ`. -/
  | setFreq (hz : F32)
  /-- `MF.CFG`, with the rate of step 1. -/
  | cfg (hz ms : F32)
  deriving DecidableEq, Repr

/-- One slot that step 2 configures (R253). -/
structure SlotSetup where
  slot : BitVec 4
  /-- The tag, where the slot is given one. -/
  tag : Option Word
  pitch : SlotPitch
  decay : F32
  amp : F32
  deriving DecidableEq, Repr

/-- One voice that steps 2 and 3 configure (R253). -/
structure VoiceSetup where
  voice : BitVec 8
  slots : List SlotSetup
  /-- The fundamental, where the voice is tuned by `RB.TUNE`; none where each slot has its own frequency. -/
  fund : Option F32
  /-- The mode count, where the voice uses fewer than eight. -/
  count : Option Word
  deriving DecidableEq, Repr

/-- What the host does once MRB is configured: steps 4 and 5 (R253). -/
inductive HostEvent where
  /-- A note on a voice. -/
  | note (v : BitVec 8)
  /-- A block of `ns` samples on `nc` channels, with the input rows it writes before it, each for one voice. -/
  | block (rows : List (BitVec 8 × List F32)) (ns nc : Word)
  deriving DecidableEq, Repr

/-- A host's plan for the boot sequence (R253). -/
structure BootPlan where
  sr : F32
  maxBlk : Word
  voices : List VoiceSetup
  events : List HostEvent
  deriving DecidableEq, Repr

/-- Step 2 for one slot that is not tuned with its voice. -/
def SlotSetup.pitchCommand (v : BitVec 8) (sr : F32) (sl : SlotSetup) : Instr :=
  match sl.pitch with
  | .setFreq hz => .rbSetfreq v sl.slot hz
  | .cfg hz ms => .mfCfg v sl.slot hz ms sr

/-- Step 2 for one voice: the tags, then the frequencies, then the decays and amplitudes (R253). That each `RB.SETDECAY`
has the rate of step 1 is the model's choice (log 19). -/
def VoiceSetup.modeCommands (sr : F32) (vs : VoiceSetup) : List Instr :=
  vs.slots.filterMap (fun sl => sl.tag.map (.rbSettag vs.voice sl.slot)) ++
  (match vs.fund with
    | some hz => [.rbTune vs.voice hz]
    | none => vs.slots.map fun sl => sl.pitchCommand vs.voice sr) ++
  vs.slots.flatMap fun sl => [.rbSetdecay vs.voice sl.slot sl.decay sr, .rbSetamp vs.voice sl.slot sl.amp]

/-- Step 3 for one voice: `RB.CONFIG` where it uses fewer than eight modes (R253). -/
def VoiceSetup.countCommands (sr : F32) (vs : VoiceSetup) : List Instr :=
  match vs.count with
  | some n => (Pseudo.rbConfig vs.voice n sr).expand
  | none => []

/-- The input samples of one voice, from sample 0 on (R253, step 5). -/
def writeRow (v : BitVec 8) (xs : List F32) : List Instr :=
  xs.zipIdx.map fun x => .bufWrin v (BitVec.ofNat 32 x.2) x.1

/-- Steps 4 and 5: `VOICE.ON`; the input rows, the block and the reads of its outputs (R253). -/
def HostEvent.commands : HostEvent → List Instr
  | .note v => (Pseudo.voiceOn v).expand
  | .block rows ns nc =>
    rows.flatMap (fun r => writeRow r.1 r.2) ++ [.mixBlock ns nc] ++
    (List.range nc.toNat).flatMap fun ch =>
      (List.range ns.toNat).map fun n => .bufRdout (BitVec.ofNat 32 ch) (BitVec.ofNat 32 n)

/-- The boot sequence of a plan, steps 1 to 5 in order (R253). R253 requires an order only where a later step reads what an
earlier one writes; the one list given here is the model's choice (DESIGN CHOICE, log 19): step 3 after step 2 of every voice,
decay and amplitude slot by slot, `OUT` read channel by channel. -/
def BootPlan.commands (p : BootPlan) : List Instr :=
  [.engPrep p.sr p.maxBlk] ++ p.voices.flatMap (VoiceSetup.modeCommands p.sr) ++
  p.voices.flatMap (VoiceSetup.countCommands p.sr) ++ p.events.flatMap HostEvent.commands

/-! ## What the steps require of a plan -/

/-- The modes a voice uses: the count of step 3, or all eight (R253). -/
def VoiceSetup.modes (vs : VoiceSetup) : Nat := (vs.count.map BitVec.toNat).getD 8

/-- Steps 2 and 3 hold of a voice: a count only where it uses fewer than eight modes, every slot it uses configured, and a tag
for each slot where the voice is tuned as a whole (R253). -/
def VoiceSetup.complete (vs : VoiceSetup) : Bool :=
  vs.count.all (fun n => decide (n.toNat < 8)) &&
  (List.range vs.modes).all (fun m => (vs.slots.map fun sl => sl.slot.toNat).contains m) &&
  (vs.fund.isNone || vs.slots.all fun sl => sl.tag.isSome)

/-- The rows of a block are those of step 5: one for every voice in `on`, no other, each of `ns` samples (R253). -/
def rowsComplete (on : List (BitVec 8)) (rows : List (BitVec 8 × List F32)) (ns : Nat) : Bool :=
  on.all (fun v => (rows.map Prod.fst).contains v) &&
  rows.all (fun r => on.contains r.1 && decide (r.2.length = ns)) && decide (rows.map Prod.fst).Nodup

/-- Steps 4 and 5 hold of a list of events: each note is on a voice in `used`, and each block has its rows. The voices in `on`
are the active ones: those of the notes so far, since reset leaves every voice Idle and no step makes one Idle again (R253). -/
def eventsComplete (used : List (BitVec 8)) : List (BitVec 8) → List HostEvent → Bool
  | _, [] => true
  | on, .note v :: es => used.contains v && eventsComplete used (v :: on) es
  | on, .block rows ns _ :: es => rowsComplete on rows ns.toNat && eventsComplete used on es

/-- The plan leaves out nothing the steps of R253 require: every voice with a note is configured, and the `IN` rows of the
active voices are written in full before every block. -/
def BootPlan.complete (p : BootPlan) : Bool :=
  p.voices.all VoiceSetup.complete && eventsComplete (p.voices.map fun vs => vs.voice) [] p.events

end Sys2Proof.Machine
end

