-- ==== Sys2Proof/Safety.lean ====
section
/-! DEFINITION. The terms in which claims about runs are made: when a run is faulted (00_scope.md R17; 60_exceptions.md
R226, R227), the well-formedness predicate on states (10_state.md R46), the launch premises (70_reset_and_hazards.md
R256), the agents' command streams (20_memory.md R71), and the named premises on the configuration functions
(40_numerics.md R106). -/

namespace Sys2Proof.Machine

/-! ## Faulted runs -/

/-- The run so far is faulted: a response reported `W_NF` (00_scope.md R17). `ST.CLEAR` clears the NF bit, not this: a
model keeps every fault it records (60_exceptions.md R227). -/
def State.runFaulted (s : State) : Bool := s.responses.any fun r => decide (r.status = .wNf)

/-! ## Well-formed states -/

/-- The parameters are in the ranges of 00_scope.md R6, and `VOICE_ORDER` is an order of all the voices (log 10). R6 gives
the three thresholds the range "any positive binary32" and does not say whether +infinity is one: that only finite values
count is the model's choice (DESIGN CHOICE, log 17). -/
structure ParamsLegal (p : Params) (nVoices : Nat) : Prop where
  voices : 1 ≤ nVoices ∧ nVoices ≤ 32
  channels : 1 ≤ p.numChMax ∧ p.numChMax ≤ 15
  cap : 1 ≤ p.maxBlockCap ∧ p.maxBlockCap ≤ 65535
  skip : isFinite p.skipThresh = true ∧ ratePositive p.skipThresh = true
  eps : isFinite p.epsFlush = true ∧ ratePositive p.epsFlush = true
  t60 : isFinite p.t60MinMs = true ∧ ratePositive p.t60MinMs = true
  decay : p.decayK = Config.pi64 ∨ p.decayK = Config.kT60
  order : p.voiceOrder.Perm (List.range nVoices)

/-- `A2` is in [0, 1) and `|A1| < 1 + A2`, as exact real numbers (10_state.md R46; 40_numerics.md R116, R123). -/
structure Slot.Stable (sl : Slot) : Prop where
  a1_finite : isFinite sl.a1 = true
  a2_finite : isFinite sl.a2 = true
  a2_nonneg : 0 ≤ units32 sl.a2
  a2_lt_one : units32 sl.a2 < 2 ^ 149
  a1_lt : |units32 sl.a1| < 2 ^ 149 + units32 sl.a2

/-- The configuration of a slot is well formed (10_state.md R46). -/
structure Slot.Wf (p : Params) (sl : Slot) : Prop where
  freq : isFinite sl.freq = true
  decay : isFinite sl.decay = true ∧ le32 p.t60MinMs sl.decay = true
  sr : sl.sr = zero32 ∨ (isFinite sl.sr = true ∧ ratePositive sl.sr = true)
  amp : isFinite sl.amp = true
  b0 : isFinite sl.b0 = true
  stable : sl.Stable

/-- A bank is well formed (10_state.md R46). -/
structure Bank.Wf (p : Params) (b : Bank) : Prop where
  norm : b.norm = normTable b.countEff
  fund : isFinite b.fund = true
  slots : ∀ (m : Nat) (sl : Slot), b.slots[m]? = some sl → sl.Wf p

/-- The state of a slot is finite (10_state.md R46). -/
def Slot.StateFinite (sl : Slot) : Prop := isFinite sl.s1 = true ∧ isFinite sl.s2 = true

/-- The part of well-formedness that every step keeps, one that raises NF included: the clauses of 10_state.md R46 on
every field but S1 and S2, with the bounds of R36 and R37 and the legality of the parameters (log 17). That the buffers are in
canonical form and list no cell outside their extent belongs to the model's representation (log 9). -/
structure State.ConfigWf (s : State) : Prop where
  params : ParamsLegal s.params s.nVoices
  banks : ∀ v b, s.bank? v = some b → b.Wf s.params
  active : s.activeWord = s.active
  maxBlk : s.maxBlk ≤ s.params.maxBlockCap
  inWf : s.inBuf.wf
  inExtent : ∀ c ∈ s.inBuf.cells, c.1 < s.nVoices * s.params.maxBlockCap
  inFinite : ∀ a, isFinite (s.inBuf.read a) = true
  outWf : s.outBuf.wf
  outExtent : ∀ c ∈ s.outBuf.cells, c.1 < s.params.numChMax * s.params.maxBlockCap

/-- S1 and S2 of every slot are finite (10_state.md R46). -/
def State.SamplesFinite (s : State) : Prop := ∀ v m sl, s.slot? v m = some sl → sl.StateFinite

/-- The well-formedness predicate on states: all the invariants of 10_state.md R46. It speaks of the fields alone and not of
STATUS, so clearing NF does not make a state well formed again (45_system.md R205). -/
structure State.WellFormed (s : State) : Prop where
  config : s.ConfigWf
  samples : s.SamplesFinite

/-- The invariant of runs: R46 holds of the runs that raise no NF, and all of it but the clause on S1 and S2 of every run;
the NF bit is set only where a response reported it (10_state.md R46; 60_exceptions.md R226, R227; log 5). It is weaker than
`State.WellFormed`, which the launch premises ask for. -/
structure State.Inv (s : State) : Prop where
  config : s.ConfigWf
  nfRecorded : s.status.nf = true → s.runFaulted = true
  samples : s.runFaulted = false → s.SamplesFinite

/-! ## Launch premises (70_reset_and_hazards.md R256): a claim names the items it assumes -/

/-- R256 (a), (b) and (c): `G.STATUS` is 0, no command is pending, and the invariants of 10_state.md R46 hold, with finite
S1 and S2 whatever STATUS says. -/
structure State.CleanEntry (s : State) : Prop where
  status : s.status = Status.cleared
  pending : s.pending = []
  wellFormed : s.WellFormed

/-- `s` is the state that executing the given commands, and no others, leaves when they start from `s0`. -/
def State.ReachedBy (s0 : State) (cmds : List Issued) (s : State) : Prop :=
  Sys2Proof.core.run cmds.length { s0 with pending := cmds } = .next s

/-- R256 (d): `s` is the state reached from the power-on reset of an instance by the given commands. -/
def State.ReachedFromReset (p : Params) (nVoices : Nat) (cmds : List Issued) (s : State) : Prop :=
  State.ReachedBy (State.resetWith p nVoices) cmds s

/-- R256 (d), the boot sequence (R253): `s` is the state reached from power-on reset by the commands of the plan, from
whichever agents; the plan leaves out nothing its steps require; and no command of it was rejected, which R253 means and does
not write out (log 19). -/
structure State.Booted (p : Params) (nVoices : Nat) (plan : BootPlan) (s : State) : Prop where
  complete : plan.complete = true
  reached : ∃ cmds : List Issued, cmds.map (fun c => c.cmd) = plan.commands.map encode ∧
    State.ReachedFromReset p nVoices cmds s
  accepted : ∀ r ∈ s.responses, r.status = .ok ∨ r.status = .wNf

/-- A `BUF.WRIN` to element `n` of voice `v`, with any value, that an instance of the given size accepts
(44_buffers.md R190). -/
def WritesIn (c : Command) (p : Params) (nVoices v n : Nat) : Prop :=
  ∃ (w : BitVec 8) (k : Word) (x : F32), decode nVoices c = .ok (.bufWrin w k x) ∧
    w.toNat = v ∧ k.toNat = n ∧ n < p.maxBlockCap ∧ isFinite x = true

/-- R256 (e), its last item: `s` is reached from `s0` by the given commands, and they write the `IN` rows of the voices
active in `s`: each element below `ns` is the target of one of them. R256 does not say since when a row is to be written; that
any command executed since `s0` counts, for an `s0` the claim names, is the model's choice (DESIGN CHOICE, log 19). -/
structure State.RowsWritten (s0 : State) (cmds : List Issued) (s : State) (ns : Nat) : Prop where
  reached : State.ReachedBy s0 cmds s
  written : ∀ v n, s.isActive v = true → n < ns → ∃ c ∈ cmds, WritesIn c.cmd s.params s.nVoices v n

/-- R256 (e), for a claim about `MIX.BLOCK ns, nc` in the state `s` that the given commands leave from `s0`. -/
structure State.BlockEntry (s0 : State) (cmds : List Issued) (s : State) (ns nc : Word) : Prop where
  samples : ns.toNat ≤ s.maxBlk
  channels : 1 ≤ nc.toNat ∧ nc.toNat ≤ s.params.numChMax
  rows : State.RowsWritten s0 cmds s ns.toNat

/-! ## Agents -/

/-- The pending commands of one agent, in its own issue order (20_memory.md R71): every list of arrived commands is a
merge of the two. -/
def State.agentPending (s : State) (a : Agent) : List Command :=
  (s.pending.filter fun c => decide (c.agent = a)).map fun c => c.cmd

/-! ## Named premises on the configuration functions -/

/-- `FN_EXP` is monotone on the finite arguments at or below zero (40_numerics.md R106 (b)). -/
def ExpMonotone (f : F64 → F64) : Prop :=
  ∀ x y, isFinite64 x = true → isFinite64 y = true → le64 x y = true → le64 y zero64 = true → le64 (f x) (f y) = true

/-- The bounds of `FN_EXP` (40_numerics.md R106 (b)). -/
def ExpBounded (f : F64 → F64) : Prop :=
  (∀ x, isFinite64 x = true → le64 x zero64 = true → le64 zero64 (f x) = true ∧ le64 (f x) one64 = true) ∧
  ∀ x, isFinite64 x = true → le64 x zero64 = true → le64 zero64 x = true → f x = one64

/-- The bounds of `FN_COS` (40_numerics.md R106 (c)). -/
def CosBounded (f : F64 → F64) : Prop :=
  (∀ x, isFinite64 x = true → le64 negOne64 (f x) = true ∧ le64 (f x) one64 = true) ∧
  ∀ x, isFinite64 x = true → le64 x zero64 = true → le64 zero64 x = true → f x = one64

/-- A configuration function is within one ulp of an exact function, on its domain (40_numerics.md R106 (d)). A finite
binary64 stands for `units64 * 2^-1074`, and one ulp of it is `2^(e - 1)` units for a biased exponent `e >= 1`. R106 does not
say whose ulp it means: that of the computed value `f x`, taken here, is the model's choice (DESIGN CHOICE, log 18). -/
def WithinUlp (f : F64 → F64) (exact : ℝ → ℝ) (dom : F64 → Prop) : Prop :=
  ∀ x, dom x →
    |(units64 (f x) : ℝ) / 2 ^ 1074 - exact ((units64 x : ℝ) / 2 ^ 1074)| ≤
      (2 : ℝ) ^ (b64.mag (f x).toNat / 2 ^ b64.fw - 1) / 2 ^ 1074

end Sys2Proof.Machine
end

