-- ==== Sys2Proof/Certificates/Slice0/Obligations.lean ====
section
/-! DEFINITION. The statements for the provers, with the vocabulary they are made in. -/

namespace Sys2Proof.Claims

open Sys2Proof.Machine

/-! ## Vocabulary: responses and frames -/

/-- The command answered one response, after the earlier ones. -/
def Answers (s t : State) (c : Code) (r : Word) : Prop := t.responses = s.responses ++ [⟨c, r⟩]

/-- The parameters, the number of voices and the commands still pending are as before. -/
structure PortKept (s t : State) : Prop where
  params : t.params = s.params
  nVoices : t.nVoices = s.nVoices
  pending : t.pending = s.pending

/-- `G.ACTIVE`, `G.MAXBLK` and `G.ENGINE_SR` are as before. -/
structure GlobalsKept (s t : State) : Prop where
  active : t.active = s.active
  maxBlk : t.maxBlk = s.maxBlk
  engineSr : t.engineSr = s.engineSr

/-- Every element of `IN` and of `OUT` reads as before. -/
structure BuffersKept (s t : State) : Prop where
  inBuf : ∀ a, t.inBuf.read a = s.inBuf.read a
  outBuf : ∀ a, t.outBuf.read a = s.outBuf.read a

/-- Every bank is as before, all its slots and fields. -/
def BanksKept (s t : State) : Prop := ∀ v, t.bank? v = s.bank? v

/-- Everything outside the banks, the status record and the responses is as before. -/
structure RestKept (s t : State) : Prop where
  port : PortKept s t
  globals : GlobalsKept s t
  buffers : BuffersKept s t

/-- The bank fields of 10_state.md R31 to R34. -/
def bankFields (b : Bank) : Fin 9 × Fin 9 × F32 × F32 := (b.countPend, b.countEff, b.norm, b.fund)

/-- Slot `(v, m)` became `sl`; every other slot and every bank field is as before. -/
structure OnlySlot (s t : State) (v m : Nat) (sl : Slot) : Prop where
  slot : t.slot? v m = some sl
  others : ∀ w k, (w ≠ v ∨ k ≠ m) → t.slot? w k = s.slot? w k
  fields : ∀ w, (t.bank? w).map bankFields = (s.bank? w).map bankFields

/-- The bank of voice `v` became `b`; every other bank is as before. -/
structure OnlyBank (s t : State) (v : Nat) (b : Bank) : Prop where
  bank : t.bank? v = some b
  others : ∀ w, w ≠ v → t.bank? w = s.bank? w

/-- The command completed as a reader: the response is (`OK`, `r`) and nothing else changed. -/
def ReadsOut (i : Instr) (s : State) (r : Word) : Prop :=
  exec i s = .next { s with responses := s.responses ++ [⟨.ok, r⟩] }

/-- The command was rejected with `c`: ERR set, LAST_ERR the code, NF kept, the response (`c`, 0), and nothing else
changed (60_exceptions.md R222). -/
def RejectedWith (i : Instr) (s : State) (c : Code) : Prop :=
  exec i s = .next { s with
    status := ⟨true, s.status.nf, Code.byte c⟩
    responses := s.responses ++ [⟨c, 0⟩] }

/-- The command was rejected, with some code. -/
def Rejected (i : Instr) (s : State) : Prop := ∃ c, RejectedWith i s c ∧ c ≠ .ok ∧ c ≠ .wNf

/-- How a command that may raise NF ends: `W_NF` and the NF bit, or `OK` and the status record as before
(60_exceptions.md R226). -/
structure EndsWithNf (s t : State) (nf : Prop) (r : Word) : Prop where
  raised : nf → Answers s t .wNf r ∧ t.status = ⟨s.status.err, true, s.status.lastErr⟩
  clean : ¬ nf → Answers s t .ok r ∧ t.status = s.status

/-- Every field but the parameters and the record of responses has its power-on value (10_state.md R45;
70_reset_and_hazards.md R250). -/
structure AtResetValues (s : State) : Prop where
  slots : ∀ v m, v < s.nVoices → m < 8 → s.slot? v m = some
    { freq := 0x00000000, decay := 0x447A0000, sr := 0x00000000, amp := 0x3F800000, b0 := 0x00000000, a1 := 0x00000000,
      a2 := 0x00000000, s1 := 0x00000000, s2 := 0x00000000, tag := .harmonic }
  fields : ∀ v, v < s.nVoices → (s.bank? v).map bankFields = some (8, 0, 0x00000000, 0x00000000)
  status : s.status.word = 0x00000000
  active : s.activeWord = 0
  maxBlk : s.maxBlk = 0
  engineSr : s.engineSr = 0x00000000
  inBuf : ∀ a, s.inBuf.read a = 0x00000000
  outBuf : ∀ a, s.outBuf.read a = 0x00000000
  pending : s.pending = []

/-! ## Vocabulary: the slot, the bank and the block, in the spec's words -/

/-- The slot after the coefficient update of 40_numerics.md R117. -/
def recomputed (p : Params) (sl : Slot) : Slot :=
  { sl with
    b0 := if ratePositive sl.sr then (coef p.decayK sl.freq sl.decay sl.sr).b0 else sl.b0
    a1 := if ratePositive sl.sr then (coef p.decayK sl.freq sl.decay sl.sr).a1 else sl.a1
    a2 := if ratePositive sl.sr then (coef p.decayK sl.freq sl.decay sl.sr).a2 else sl.a2 }

/-- `y` of 41_modal_filter.md R130. -/
def stepY (sl : Slot) (x : F32) : F32 := add32 (mul32 sl.b0 x) sl.s1

/-- The new `s1` of R130. -/
def stepS1 (p : Params) (sl : Slot) (x : F32) : F32 := flush p.epsFlush (sub32 sl.s2 (mul32 sl.a1 (stepY sl x)))

/-- The new `s2` of R130. -/
def stepS2 (p : Params) (sl : Slot) (x : F32) : F32 := flush p.epsFlush (neg32 (mul32 sl.a2 (stepY sl x)))

/-- The mode step raises NF (R130). -/
def StepRaises (p : Params) (sl : Slot) (x : F32) : Prop :=
  ¬ (isFinite (stepY sl x) = true ∧ isFinite (stepS1 p sl x) = true ∧ isFinite (stepS2 p sl x) = true)

/-- The slot after one mode step (R130): only S1 and S2 change. -/
def steppedSlot (p : Params) (sl : Slot) (x : F32) : Slot := { sl with s1 := stepS1 p sl x, s2 := stepS2 p sl x }

/-- `acc` of 42_resonator_bank.md R141, over the active slots in ascending order. -/
def bankAcc (p : Params) (b : Bank) (x : F32) : F32 :=
  (List.range b.countEff.val).foldl
    (fun acc m =>
      match b.slots[m]? with
      | some sl => if le32 p.skipThresh (abs32 sl.amp) then add32 acc (mul32 sl.amp (stepY sl x)) else acc
      | none => acc)
    zero32

/-- `out` of R141. -/
def bankOut (p : Params) (b : Bank) (x : F32) : F32 := mul32 (bankAcc p b x) b.norm

/-- The bank step raises NF, in a slot or in the sum (R130, R141). -/
def BankRaises (p : Params) (b : Bank) (x : F32) : Prop :=
  (∃ m sl, m < b.countEff.val ∧ b.slots[m]? = some sl ∧ StepRaises p sl x) ∨
  ¬ (isFinite (bankAcc p b x) = true ∧ isFinite (bankOut p b x) = true)

/-- `b'` is `b` after one bank step (42_resonator_bank.md R140): the slots below COUNT_EFF stepped, all else kept. -/
structure BankStepped (p : Params) (b b' : Bank) (x : F32) : Prop where
  fields : bankFields b' = bankFields b
  slots : ∀ m sl, b.slots[m]? = some sl →
    b'.slots[m]? = some (if m < b.countEff.val then steppedSlot p sl x else sl)

/-- `b'` is `b` after a preparation at rate `sr` (42_resonator_bank.md R148). -/
structure Prepared (p : Params) (b b' : Bank) (sr : F32) : Prop where
  countPend : b'.countPend = b.countPend
  countEff : b'.countEff = b.countPend
  norm : b'.norm = normTable b.countPend
  fund : b'.fund = b.fund
  slots : ∀ (m : Nat) (sl : Slot), b.slots[m]? = some sl →
    b'.slots[m]? = some (if m < b.countPend.val then recomputed p { sl with sr := sr } else sl)

/-- `RANK(v, m)` for the tag `t` of slot `m` (42_resonator_bank.md R152). -/
def rankOf (b : Bank) (m : Nat) (t : Tag) : Nat :=
  1 + ((List.range m).filter fun j => decide (b.slots[j]?.map Slot.tag = some t)).length

/-- `PARTIAL_FREQ(v, m, fund)` for slot `m` with the fields `sl` (42_resonator_bank.md R153). -/
def partialOf (b : Bank) (m : Nat) (sl : Slot) (fund : F32) : F32 :=
  match sl.tag with
  | .harmonic => rne32 (mul64 (to64 fund) (nat64 (rankOf b m .harmonic)))
  | .inharmonic => rne32 (mul64 (to64 fund) (phiPow (rankOf b m .inharmonic)))

/-- What a bank gives for a list of input samples: the bank after them, its outputs, and whether NF was raised. -/
def bankRun (p : Params) (b : Bank) : List F32 → Bank × List F32 × Bool
  | [] => (b, [], false)
  | x :: xs =>
    let r := b.step p x
    let t := bankRun p r.st xs
    (t.1, r.y :: t.2.1, r.nf || t.2.2)

/-- The input samples of a voice in a block of `ns` (43_mixer.md R176). -/
def blockInput (s : State) (v ns : Nat) : List F32 :=
  (List.range ns).map fun n => s.inBuf.read (aIn s.params v n)

/-- The run of a voice's bank over a block. -/
def blockRun (s : State) (v ns : Nat) (b : Bank) : Bank × List F32 × Bool := bankRun s.params b (blockInput s v ns)

/-- The active voices, in `VOICE_ORDER` (43_mixer.md R173). -/
def activeVoices (s : State) : List Nat := s.params.voiceOrder.filter fun v => s.isActive v

/-- Sample `n` of the block summed over the given voices, from +0.0, in their order: one add per voice (R173, R176). -/
def mixedSample (s : State) (ns : Nat) (voices : List Nat) (n : Nat) : F32 :=
  voices.foldl
    (fun acc v =>
      match s.bank? v with
      | some b => add32 acc ((blockRun s v ns b).2.1.getD n zero32)
      | none => acc)
    zero32

/-- A block raises NF: in the bank of an active voice, or in a partial sum of an output element (R176). -/
def BlockRaises (s : State) (ns : Nat) : Prop :=
  (∃ v ∈ activeVoices s, ∃ b, s.bank? v = some b ∧ (blockRun s v ns b).2.2 = true) ∨
  ∃ k n, k < (activeVoices s).length ∧ n < ns ∧ isFinite (mixedSample s ns ((activeVoices s).take (k + 1)) n) = false

end Sys2Proof.Claims

open Sys2Proof Sys2Proof.Machine Sys2Proof.Claims

/-! ## Encoding and decoding -/

/-- Decode and encode agree on every well-formed command (30_encoding.md R80, R83, R84, R88). -/
def Obligations.DecodeOfEncodeIsTheCommand : Prop :=
  ∀ (n : Nat) (i : Instr), i.WellFormed n = true → decode n (encode i) = .ok i

/-- A command that decodes is well formed, and encoding it again keeps its header word and every operand word that the row
of 30_encoding.md R84 uses; the words the row leaves unused, which no rule reads (R82), become 0 (R90). -/
def Obligations.DecodedCommandEncodesBack : Prop :=
  ∀ (n : Nat) (c : Command) (i : Instr), decode n c = .ok i →
    let o := c.w0.toNat / 2 ^ 24
    let usesA := o ∈ [0x01, 0x03, 0x10, 0x11, 0x12, 0x13, 0x14, 0x15, 0x16, 0x18, 0x20, 0x21, 0x22, 0x30, 0x31, 0x32,
      0x40, 0x41, 0x42]
    let usesB := o ∈ [0x01, 0x11, 0x20, 0x22, 0x30, 0x32]
    let usesC := o = 0x01
    i.WellFormed n = true ∧ (encode i).w0 = c.w0 ∧
    (encode i).w1 = (if usesA then c.w1 else 0) ∧
    (encode i).w2 = (if usesB then c.w2 else 0) ∧
    (encode i).w3 = (if usesC then c.w3 else 0) ∧
    decode n (encode i) = .ok i

/-- The illegal opcodes of 30_encoding.md R85, and no others, are rejected with `E_OPCODE`, whatever the other bits. -/
def Obligations.IllegalOpcodesRejected : Prop :=
  ∀ (n : Nat) (c : Command),
    decode n c = .error .eOpcode ↔
      let o := c.w0.toNat / 2 ^ 24
      (0x04 ≤ o ∧ o ≤ 0x0F) ∨ (0x19 ≤ o ∧ o ≤ 0x1F) ∨ (0x25 ≤ o ∧ o ≤ 0x2F) ∨ (0x33 ≤ o ∧ o ≤ 0x3F) ∨ 0x44 ≤ o

/-- A legal opcode is rejected, or decodes, by the mask of its class and the ranges of VID and MID, in the order `E_RSV`,
`E_VOICE`, `E_MODE` (30_encoding.md R81, R84, R88). -/
def Obligations.HeaderChecksInOrder : Prop :=
  ∀ (n : Nat) (c : Command),
    let o := c.w0.toNat / 2 ^ 24
    let v := c.w0.toNat / 2 ^ 16 % 256
    let m := c.w0.toNat / 2 ^ 12 % 16
    let vmClass := o ∈ [0x01, 0x02, 0x03, 0x10, 0x11, 0x12, 0x13, 0x40]
    let vClass := o ∈ [0x14, 0x15, 0x16, 0x17, 0x18, 0x21, 0x30, 0x31, 0x41]
    let gClass := o ∈ [0x00, 0x20, 0x22, 0x23, 0x24, 0x32, 0x42, 0x43]
    (decode n c = .error .eRsv ↔
      vmClass ∧ c.w0 &&& 0x00000FFF#32 ≠ 0 ∨ vClass ∧ c.w0 &&& 0x0000FFFF#32 ≠ 0 ∨
        gClass ∧ c.w0 &&& 0x00FFFFFF#32 ≠ 0) ∧
    (decode n c = .error .eVoice ↔
      (vmClass ∧ c.w0 &&& 0x00000FFF#32 = 0 ∨ vClass ∧ c.w0 &&& 0x0000FFFF#32 = 0) ∧ n ≤ v) ∧
    (decode n c = .error .eMode ↔ vmClass ∧ c.w0 &&& 0x00000FFF#32 = 0 ∧ v < n ∧ 8 ≤ m) ∧
    ((∃ i, decode n c = .ok i) ↔
      vmClass ∧ c.w0 &&& 0x00000FFF#32 = 0 ∧ v < n ∧ m < 8 ∨ vClass ∧ c.w0 &&& 0x0000FFFF#32 = 0 ∧ v < n ∨
        gClass ∧ c.w0 &&& 0x00FFFFFF#32 = 0)

/-- Command words the spec writes out decode to the commands they stand for (30_encoding.md R92; 44_buffers.md R190;
45_system.md R200; the words of 95_test_vectors.md). A sanity statement. -/
def Obligations.SpecWordsDecode : Prop :=
  decode 16 ⟨0x01000000, 0x43DC0000, 0x447A0000, 0x473B8000⟩ =
    .ok (.mfCfg 0 0 0x43DC0000 0x447A0000 0x473B8000) ∧
  decode 16 ⟨0x30010000, 0x00000005, 0x3F000000, 0x00000000⟩ = .ok (.bufWrin 1 5 0x3F000000) ∧
  decode 16 ⟨0x00000000, 0x00000000, 0x00000000, 0x00000000⟩ = .ok .nop ∧
  decode 16 ⟨0x12021000, 0x3A03126F, 0x00000000, 0x00000000⟩ = .ok (.rbSetamp 2 1 0x3A03126F) ∧
  decode 16 ⟨0x22000000, 0x00000002, 0x00000002, 0x00000000⟩ = .ok (.mixBlock 2 2)

/-- A byte-wide transport carries a command as 16 bytes and a response as 8: byte `4k + j` is bits `8j+7:8j` of word `k`,
of W0 to W3, respectively of R0 and R1 (20_memory.md R64). Bytes that arrive deliver the commands they carry, and a partial
command at the end is no command (R65); that it is dropped is the model's choice (log 12). -/
def Obligations.ByteStreamDeliversWholeCommands : Prop :=
  (∀ c : Command, c.toBytes.length = 16 ∧ ∀ k j w, j < 4 → [c.w0, c.w1, c.w2, c.w3][k]? = some w →
    c.toBytes[4 * k + j]? = some (w.extractLsb' (8 * j) 8)) ∧
  (∀ r : Response, r.toBytes.length = 8 ∧ ∀ k j w, j < 4 → [r.r0, r.r1][k]? = some w →
    r.toBytes[4 * k + j]? = some (w.extractLsb' (8 * j) 8)) ∧
  ∀ (s : State) (a : Agent) (cs : List Command) (tail : List Byte), tail.length < 16 →
    (s.deliver a ((cs.map Command.toBytes).flatten ++ tail)).pending = s.pending ++ cs.map (fun c => ⟨a, c⟩)

/-! ## The machine as a whole -/

/-- When the next command decodes to `i`, a step is `exec` of `i` on the state without that command; it takes nothing else
from the port (20_memory.md R70; 30_encoding.md R88). -/
def Obligations.StepRunsTheNextCommand : Prop :=
  ∀ (s : State) (a : Agent) (c : Command) (rest : List Issued) (i : Instr),
    s.pending = ⟨a, c⟩ :: rest → decode s.nVoices c = .ok i → step s = exec i { s with pending := rest }

/-- When the next command does not decode, a step is its rejection; when there is none, MRB is idle and changes nothing
(30_encoding.md R88; 60_exceptions.md R222, R245). That an idle moment is a step is the model's choice (log 4). -/
def Obligations.StepRejectsOrIdles : Prop :=
  (∀ (s : State) (a : Agent) (c : Command) (rest : List Issued) (e : Code),
    s.pending = ⟨a, c⟩ :: rest → decode s.nVoices c = .error e →
    step s = .next { s with
      pending := rest
      status := ⟨true, s.status.nf, Code.byte e⟩
      responses := s.responses ++ [⟨e, 0⟩] }) ∧
  ∀ s : State, s.pending = [] → step s = .next s

/-- A run never hangs and never stops: after as many steps as commands are pending, none is pending and each has its one
response (70_reset_and_hazards.md R255; 20_memory.md R77). The field that holds the responses is the model's own (log 3). -/
def Obligations.EveryRunEndsWithItsResponses : Prop :=
  ∀ s : State, ∃ t, Sys2Proof.core.run s.pending.length s = .next t ∧ t.pending = [] ∧
    ∃ rs : List Response, t.responses = s.responses ++ rs ∧ rs.length = s.pending.length

/-- Every step keeps the invariant of runs; a step that does not report `W_NF` keeps a well-formed state well formed, whatever
was raised before; and every state reached from reset without raising NF is well formed (10_state.md R46), for `T60_MIN_MS` at
most the 1000.0 ms that reset stores (log 20). The model's own in it: that a run with NF goes on and is recorded by its
responses (log 5); the bounds of `FN_EXP` and `FN_COS`, on which the stability of the coefficients rests (log 6); the
canonical form and extent of the buffers (log 9); `VOICE_ORDER` (log 10); the finite thresholds (log 17). -/
def Obligations.EveryStepKeepsInv : Prop :=
  (∀ s t : State, s.Inv → step s = .next t → t.Inv) ∧
  (∀ s t : State, s.WellFormed → step s = .next t → (∀ c r, Answers s t c r → c ≠ .wNf) → t.WellFormed) ∧
  ∀ (p : Params) (n : Nat) (cmds : List Issued) (s : State), ParamsLegal p n → le32 p.t60MinMs 0x447A0000 = true →
    s.ReachedFromReset p n cmds → s.runFaulted = false → s.WellFormed

/-- The state after power-on reset is well formed and a clean entry, for the default instance and, from any state, for
every instance with legal parameters whose `T60_MIN_MS` is at most the 1000.0 ms that reset stores (10_state.md R45, R46;
70_reset_and_hazards.md R250, R256; log 20). The model's own in it: that NF is recorded by the responses, which reset empties
(logs 3, 5); the canonical form of the buffers (log 9); `VOICE_ORDER` (log 10); the finite thresholds (log 17). -/
def Obligations.ResetIsWellFormed : Prop :=
  (State.reset.Inv ∧ State.reset.CleanEntry) ∧
  ∀ s : State, ParamsLegal s.params s.nVoices → le32 s.params.t60MinMs 0x447A0000 = true →
    s.powerOn.Inv ∧ s.powerOn.CleanEntry

/-- Reset: every slot, every bank field, the global fields and both buffers at the values of 10_state.md R45, no pending
command, the parameters of the default instance those of 00_scope.md R6; every bank then answers +0.0 and a block of `ns` > 0
is rejected. Power-on reset gives the same values from every state and keeps the parameters (70_reset_and_hazards.md R250).
That the parameters stand in State, and `VOICE_ORDER` among them, ascending as in 43_mixer.md R173, is the model's choice
(logs 1, 10). -/
def Obligations.ResetLeavesTheResetValues : Prop :=
  AtResetValues State.reset ∧
  (State.reset.nVoices = 16 ∧ State.reset.params =
    { numChMax := 2, maxBlockCap := 1024, skipThresh := 0x3A83126F, epsFlush := 0x26901D7D, t60MinMs := 0x3F800000,
      decayK := 0x400921FB54442D18, voiceOrder := [0, 1, 2, 3, 4, 5, 6, 7, 8, 9, 10, 11, 12, 13, 14, 15] }) ∧
  (∀ (v : BitVec 8) (x : F32), v.toNat < 16 → isFinite x = true →
    ∃ t, exec (.rbStep v x) State.reset = .next t ∧ Answers State.reset t .ok 0x00000000) ∧
  (∀ ns nc : Word, 0 < ns.toNat → RejectedWith (.mixBlock ns nc) State.reset .eBlock) ∧
  ∀ s : State, AtResetValues s.powerOn ∧ s.powerOn.params = s.params ∧ s.powerOn.nVoices = s.nVoices

/-- No command changes a parameter (00_scope.md R7), `N_VOICES` included. -/
def Obligations.NoCommandChangesAParameter : Prop :=
  ∀ (i : Instr) (s t : State), exec i s = .next t → t.params = s.params ∧ t.nVoices = s.nVoices

/-- Exactly one response per command, after the earlier ones; its R0 is the status word, its R1 the result word
(20_memory.md R77). -/
def Obligations.OneResponsePerCommand : Prop :=
  ∀ (c : Command) (s : State), ∃ t r, runCommand c s = .next t ∧ t.responses = s.responses ++ [r] ∧
    t.pending = s.pending ∧ r.r0.toNat = (Code.byte r.status).toNat ∧ r.r1 = r.result

/-- A rejection, of the decoder or of a command's own checks, changes nothing but the status record: ERR is set, LAST_ERR
is the code, NF is kept, the response is (code, 0), and everything else is as before (60_exceptions.md R222). -/
def Obligations.RejectionIsPrecise : Prop :=
  ∀ (cmd : Command) (s t : State) (c : Code) (r : Word),
    runCommand cmd s = .next t → Answers s t c r → c ≠ .ok → c ≠ .wNf →
    r = 0 ∧ t.status = ⟨true, s.status.nf, Code.byte c⟩ ∧
      t = { s with status := t.status, responses := s.responses ++ [⟨c, 0⟩] }

/-- Only `MF.STEP`, `RB.STEP` and `MIX.BLOCK` can raise NF, and the one that does reports `W_NF` (60_exceptions.md R226). -/
def Obligations.OnlyStepsRaiseNf : Prop :=
  ∀ (i : Instr) (s t : State) (c : Code) (r : Word), exec i s = .next t → Answers s t c r →
    (s.status.nf = false → t.status.nf = true → c = .wNf) ∧
    (c = .wNf → t.status = ⟨s.status.err, true, s.status.lastErr⟩ ∧
      ((∃ v m x, i = .mfStep v m x) ∨ (∃ v x, i = .rbStep v x) ∨ ∃ ns nc, i = .mixBlock ns nc))

/-- Only `ST.CLEAR` and power-on reset clear ERR, NF or LAST_ERR, and both clear all of it: every other command keeps a set
NF and a set ERR, and changes LAST_ERR only by a rejection (60_exceptions.md R227). -/
def Obligations.OnlyStClearClearsStatus : Prop :=
  (∀ (i : Instr) (s t : State), exec i s = .next t → i ≠ .stClear →
    (s.status.nf = true → t.status.nf = true) ∧ (s.status.err = true → t.status.err = true) ∧
    (t.status.lastErr = s.status.lastErr ∨ Rejected i s)) ∧
  (∀ s : State, ∃ t, exec .stClear s = .next t ∧ t.status = ⟨false, false, 0⟩) ∧
  ∀ s : State, s.powerOn.status = ⟨false, false, 0⟩

/-- MRB does not see which agent sent a command: with the same command words in the same order from other agents, a step
has the same effect (60_exceptions.md R240). -/
def Obligations.AgentIsNotSeen : Prop :=
  ∀ (s t : State) (other : List Issued),
    other.map (fun c => c.cmd) = s.pending.map (fun c => c.cmd) → step s = .next t →
    step { s with pending := other } = .next { t with pending := other.drop 1 }

/-- A command leaves the bank of every voice it does not name as it was, but for `MIX.BLOCK` and `ENG.PREP`, and leaves
`IN` rows of other voices alone (60_exceptions.md R241; 43_mixer.md R170). -/
def Obligations.VoicesAreIsolated : Prop :=
  ∀ (i : Instr) (s t : State) (v : Nat), exec i s = .next t → (∀ w, i.voice? = some w → w.toNat ≠ v) →
    (∀ ns nc, i ≠ .mixBlock ns nc) → (∀ sr n, i ≠ .engPrep sr n) →
    t.bank? v = s.bank? v ∧
    (s.inBuf.wf → ∀ n, n < s.params.maxBlockCap → t.inBuf.read (aIn s.params v n) = s.inBuf.read (aIn s.params v n)) ∧
    (v < 32 → t.active.getLsbD v = s.active.getLsbD v ∨ i = .mixPanic)

/-- Each field changes only through the commands 10_state.md R41 names for it. -/
def Obligations.FieldsChangeOnlyThroughTheirCommands : Prop :=
  ∀ (i : Instr) (s t : State) (v m : Nat) (sl : Slot) (b : Bank),
    exec i s = .next t → s.bank? v = some b → s.slot? v m = some sl →
    ∃ sl' b', t.bank? v = some b' ∧ t.slot? v m = some sl' ∧
      (sl'.freq ≠ sl.freq →
        (∃ w k f d r, i = .mfCfg w k f d r) ∨ (∃ w k f, i = .rbSetfreq w k f) ∨ ∃ w f, i = .rbTune w f) ∧
      (sl'.decay ≠ sl.decay → (∃ w k f d r, i = .mfCfg w k f d r) ∨ ∃ w k d r, i = .rbSetdecay w k d r) ∧
      (sl'.sr ≠ sl.sr →
        (∃ w k f d r, i = .mfCfg w k f d r) ∨ (∃ w k d r, i = .rbSetdecay w k d r) ∨ (∃ w r, i = .rbPrep w r) ∨
          ∃ r n, i = .engPrep r n) ∧
      (sl'.amp ≠ sl.amp → ∃ w k a, i = .rbSetamp w k a) ∧
      ((sl'.b0, sl'.a1, sl'.a2) ≠ (sl.b0, sl.a1, sl.a2) →
        (∃ w k f d r, i = .mfCfg w k f d r) ∨ (∃ w k f, i = .rbSetfreq w k f) ∨ (∃ w k d r, i = .rbSetdecay w k d r) ∨
          (∃ w f, i = .rbTune w f) ∨ (∃ w r, i = .rbPrep w r) ∨ ∃ r n, i = .engPrep r n) ∧
      ((sl'.s1, sl'.s2) ≠ (sl.s1, sl.s2) →
        (∃ w k x, i = .mfStep w k x) ∨ (∃ w x, i = .rbStep w x) ∨ (∃ ns nc, i = .mixBlock ns nc) ∨
          (∃ w k, i = .mfRst w k) ∨ ∃ w, i = .rbRst w) ∧
      (sl'.tag ≠ sl.tag → ∃ w k g, i = .rbSettag w k g) ∧
      (b'.countPend ≠ b.countPend → ∃ w n, i = .rbSetcount w n) ∧
      ((b'.countEff, b'.norm) ≠ (b.countEff, b.norm) → (∃ w r, i = .rbPrep w r) ∨ ∃ r n, i = .engPrep r n) ∧
      (b'.fund ≠ b.fund → ∃ w f, i = .rbTune w f) ∧
      (t.active ≠ s.active → (∃ w a, i = .mixSetact w a) ∨ i = .mixPanic) ∧
      ((t.maxBlk, t.engineSr) ≠ (s.maxBlk, s.engineSr) → ∃ r n, i = .engPrep r n) ∧
      (t.inBuf ≠ s.inBuf → ∃ w n x, i = .bufWrin w n x) ∧ (t.outBuf ≠ s.outBuf → ∃ ns nc, i = .mixBlock ns nc)

/-- Whether a command is rejected depends only on its words, the parameters and `G.MAXBLK`. `RB.TUNE` is left out: by
42_resonator_bank.md R147 its checks read the tags too, which 60_exceptions.md R225 does not say (log 15). -/
def Obligations.RejectionDependsOnWordsAndMaxblk : Prop :=
  ∀ (i : Instr) (s t : State), (∀ v f, i ≠ .rbTune v f) → s.params = t.params → s.nVoices = t.nVoices →
    s.maxBlk = t.maxBlk → ∀ c, c ≠ .ok → c ≠ .wNf → (RejectedWith i s c ↔ RejectedWith i t c)

/-- `S1` and `S2` never hold -0.0, nor any other value below `EPS_FLUSH` but +0.0: every step keeps it (45_system.md R202;
40_numerics.md R118). -/
def Obligations.StateSamplesStayFlushed : Prop :=
  let flushed (p : Params) (x : F32) : Prop := x = 0x00000000 ∨ lt32 (abs32 x) p.epsFlush = false ∧ x ≠ 0x80000000
  ∀ s t : State, ratePositive s.params.epsFlush = true →
    (∀ v m sl, s.slot? v m = some sl → flushed s.params sl.s1 ∧ flushed s.params sl.s2) → step s = .next t →
    ∀ v m sl, t.slot? v m = some sl → flushed t.params sl.s1 ∧ flushed t.params sl.s2

/-! ## Numerics -/

/-- A comparison of two finite binary32 compares their exact real values (00_scope.md R12), and is false when either side
is NaN. -/
def Obligations.ComparisonIsOfExactValues : Prop :=
  (∀ a b : F32, isFinite a = true → isFinite b = true →
    (lt32 a b = true ↔ units32 a < units32 b) ∧ (le32 a b = true ↔ units32 a ≤ units32 b)) ∧
  ∀ a b : F32, b32.infMag < b32.mag a.toNat ∨ b32.infMag < b32.mag b.toNat → lt32 a b = false ∧ le32 a b = false

/-- Rounding gives the nearest value of the format, ties to the even fraction, and infinity from half a step above the
largest finite value on (40_numerics.md R101). Values are `num / den` units of the smallest subnormal; for binary32 the
threshold is 2^128 - 2^103. -/
def Obligations.RoundIsNearestTiesToEven : Prop :=
  ∀ (f : Fmt) (num den : Nat), f = b32 ∨ f = b64 → 0 < den →
    let limit := (2 ^ (f.fw + 2) - 1) * 2 ^ (2 ^ f.ew - 4)
    (f.round num den = f.infMag ↔ limit * den ≤ num) ∧
    (f.round num den < f.infMag → ∀ c, c < f.infMag →
      |(f.units (f.round num den) * den : Int) - num| ≤ |(f.units c * den : Int) - num| ∧
      (|(f.units (f.round num den) * den : Int) - num| = |(f.units c * den : Int) - num| →
        f.units c = f.units (f.round num den) ∨ f.round num den % 2 = 0))

/-- Each operation on finite operands gives the exact result rounded once by `Fmt.round`, which RoundIsNearestTiesToEven
describes, with the sign of the exact result, or for a zero result the sign of IEEE 754: `add32`, `sub32`, `mul32` and `rne32`
(40_numerics.md R101, R102), `to64`, which is exact, and the binary64 operations with the nearest value to the root
(R105). So a sum or product that is a binary32 value other than zero is kept as it is. Values are in units of the smallest
subnormal, 2^-149 and 2^-1074. -/
def Obligations.ExactResultsAreKept : Prop :=
  let round32 (neg : Bool) (num den : Nat) : F32 := BitVec.ofNat 32 (b32.pack neg (b32.round num den))
  let round64 (neg : Bool) (num den : Nat) : F64 := BitVec.ofNat 64 (b64.pack neg (b64.round num den))
  let neg32? (a : F32) : Bool := b32.neg a.toNat
  let neg64? (a : F64) : Bool := b64.neg a.toNat
  (∀ a b c : F32, isFinite a = true → isFinite b = true → isFinite c = true → units32 c ≠ 0 →
    (units32 a + units32 b = units32 c → add32 a b = c) ∧
    (units32 a * units32 b = units32 c * 2 ^ 149 → mul32 a b = c)) ∧
  (∀ a b : F32, isFinite a = true → isFinite b = true →
    let sum := units32 a + units32 b
    let diff := units32 a - units32 b
    add32 a b = (if sum ≠ 0 then round32 (decide (sum < 0)) sum.natAbs 1
      else if a = 0x80000000 ∧ b = 0x80000000 then 0x80000000 else 0x00000000) ∧
    sub32 a b = (if diff ≠ 0 then round32 (decide (diff < 0)) diff.natAbs 1
      else if a = 0x80000000 ∧ b = 0x00000000 then 0x80000000 else 0x00000000) ∧
    mul32 a b = round32 (neg32? a ^^ neg32? b) (units32 a * units32 b).natAbs (2 ^ 149)) ∧
  (∀ y : F64, isFinite64 y = true → rne32 y = round32 (neg64? y) (units64 y).natAbs (2 ^ 925)) ∧
  (∀ x : F32, isFinite x = true →
    isFinite64 (to64 x) = true ∧ units64 (to64 x) = units32 x * 2 ^ 925 ∧ neg64? (to64 x) = neg32? x) ∧
  (∀ a b : F64, isFinite64 a = true → isFinite64 b = true →
    let sum := units64 a + units64 b
    let diff := units64 a - units64 b
    add64 a b = (if sum ≠ 0 then round64 (decide (sum < 0)) sum.natAbs 1
      else if a = 0x8000000000000000 ∧ b = 0x8000000000000000 then 0x8000000000000000 else 0x0000000000000000) ∧
    sub64 a b = (if diff ≠ 0 then round64 (decide (diff < 0)) diff.natAbs 1
      else if a = 0x8000000000000000 ∧ b = 0x0000000000000000 then 0x8000000000000000 else 0x0000000000000000) ∧
    mul64 a b = round64 (neg64? a ^^ neg64? b) (units64 a * units64 b).natAbs (2 ^ 1074) ∧
    (units64 b ≠ 0 → div64 a b = round64 (neg64? a ^^ neg64? b) ((units64 a).natAbs * 2 ^ 1074) (units64 b).natAbs)) ∧
  ∀ a c : F64, isFinite64 a = true → 0 < units64 a → isFinite64 c = true →
    let root := Real.sqrt (units64 a * 2 ^ 1074)
    isFinite64 (sqrt64 a) = true ∧ |(units64 (sqrt64 a) : ℝ) - root| ≤ |(units64 c : ℝ) - root|

/-- The stability guard (40_numerics.md R116): with `a2` in [0, 1) the guarded `a1` is strictly inside `1 + a2`; it is the
given one where that was inside, and otherwise the largest binary32 below `1 + a2`, with the sign of the given one. -/
def Obligations.JuryGuardIsStrict : Prop :=
  ∀ a1 a2 : F32, isFinite a1 = true → isFinite a2 = true → 0 ≤ units32 a2 → units32 a2 < 2 ^ 149 →
    let l := 2 ^ 149 + units32 a2
    isFinite (jury a1 a2) = true ∧ |units32 (jury a1 a2)| < l ∧
    (|units32 a1| < l → jury a1 a2 = a1) ∧
    (l ≤ |units32 a1| →
      b32.neg (jury a1 a2).toNat = b32.neg a1.toNat ∧
      ∀ x : F32, isFinite x = true → units32 x < l → units32 x ≤ |units32 (jury a1 a2)|)

/-- The decay clamp (40_numerics.md R110): a decay of at least `T60_MIN_MS` is kept and any other stores as `T60_MIN_MS`;
at the default both zeros, every negative value and every value below 1.0 ms store as 1.0. -/
def Obligations.DecayBelowTheMinimumStoresAsIt : Prop :=
  (∀ least d : F32, isFinite least = true → isFinite d = true →
    (units32 least ≤ units32 d → dclamp least d = d) ∧ (units32 d < units32 least → dclamp least d = least)) ∧
  ∀ d : F32, isFinite d = true → units32 d < 2 ^ 149 → dclamp Config.params.t60MinMs d = 0x3F800000

/-- The state flush (40_numerics.md R118): a finite value of magnitude below `EPS_FLUSH` becomes +0.0; any other value, an
infinity or a NaN included, is kept. A mode step flushes its two new state values and nothing else. -/
def Obligations.FlushZeroesSmallValuesOnly : Prop :=
  (∀ eps s : F32, isFinite eps = true → 0 < units32 eps →
    (isFinite s = true → |units32 s| < units32 eps → flush eps s = 0x00000000) ∧
    (isFinite s = true → units32 eps ≤ |units32 s| → flush eps s = s) ∧
    (isFinite s = false → flush eps s = s)) ∧
  ∀ (p : Params) (sl : Slot) (x : F32), (sl.step p x).y = stepY sl x ∧ (sl.step p x).st = steppedSlot p sl x

/-- The tables of the bank: their normative values, which are the values of their formulas (40_numerics.md R121,
R122). -/
def Obligations.TablesAreTheirFormulas : Prop :=
  (List.finRange 9).map normTable =
    [0x00000000, 0x3F800000, 0x3F3504F3, 0x3F13CD3A, 0x3F000000, 0x3EE4F92E, 0x3ED105EC, 0x3EC1848F, 0x3EB504F3] ∧
  (∀ n : Fin 9, n ≠ 0 → normTable n = rne32 (div64 0x3FF0000000000000 (sqrt64 (nat64 n.val)))) ∧
  (List.range 8).map (fun k => phiPow (k + 1)) =
    [0x3FF9E3779B97F4A8, 0x4004F1BBCDCBFA54, 0x4010F1BBCDCBFA54, 0x401B6A99B4B1F77E, 0x40262E2AC13EF8E9,
      0x4031F1BBCDCBFA54, 0x403D08D12E6B76C9, 0x40477D467E1BB88F] ∧
  ∀ k, 1 ≤ k → k < 8 → phiPow (k + 1) = mul64 (phiPow k) 0x3FF9E3779B97F4A8

/-- The coefficient function (40_numerics.md R111, R115): all three from the one limited binary64 radius, each rounded once;
the operations in the order written. -/
def Obligations.CoefIsTheFormula : Prop :=
  ∀ (k : F64) (f d sr : F32),
    let t := div64 (to64 d) 0x408F400000000000
    let w := div64 (mul64 0x401921FB54442D18 (to64 f)) (to64 sr)
    let q := div64 k (mul64 t (to64 sr))
    let e := fnExp (neg64 q)
    let r := if lt64 0x3FEFFFFFE0000000 e then 0x3FEFFFFFE0000000 else e
    let a2 := rne32 (mul64 r r)
    (coef k f d sr).b0 = rne32 (sub64 0x3FF0000000000000 r) ∧
    (coef k f d sr).a1 = jury (rne32 (mul64 (mul64 0xC000000000000000 r) (fnCos w))) a2 ∧
    (coef k f d sr).a2 = a2

/-- The configuration functions keep the bounds of 40_numerics.md R106 (b) and (c), whatever the open functions behind them
are. That they do so by clamping is the model's choice (log 6). -/
def Obligations.ConfigurationFunctionsKeepTheirBounds : Prop := ExpBounded fnExp ∧ CosBounded fnCos

/-- The coefficients of any finite frequency, any decay of at least 1 ms and any positive rate are finite and stable
(40_numerics.md R112, R113, R116, R123), whatever `FN_EXP` and `FN_COS` are within the bounds of R106, which the
model builds in (log 6). -/
def Obligations.CoefficientsAreStable : Prop :=
  ∀ (k : F64) (f d sr : F32), k = Config.pi64 ∨ k = Config.kT60 → isFinite f = true → isFinite d = true →
    2 ^ 149 ≤ units32 d → isFinite sr = true → 0 < units32 sr →
    let c := coef k f d sr
    isFinite c.b0 = true ∧ isFinite c.a1 = true ∧ isFinite c.a2 = true ∧
    0 ≤ units32 c.a2 ∧ units32 c.a2 < 2 ^ 149 ∧ |units32 c.a1| < 2 ^ 149 + units32 c.a2

/-- A slot with `b0` = 1.0, `a1` = -0.0, `a2` = +0.0 and zero state returns every finite input but -0.0 itself, returns
+0.0 for -0.0, keeps zero state and raises no NF (41_modal_filter.md R130; the identity slot of V-MF-2). -/
def Obligations.IdentitySlotReturnsItsInput : Prop :=
  ∀ (p : Params) (sl : Slot) (x : F32), isFinite p.epsFlush = true → 0 < units32 p.epsFlush →
    sl.b0 = 0x3F800000 → sl.a1 = 0x80000000 → sl.a2 = 0x00000000 → sl.s1 = 0x00000000 → sl.s2 = 0x00000000 →
    isFinite x = true →
    (sl.step p x).y = (if x = 0x80000000 then 0x00000000 else x) ∧ (sl.step p x).st = sl ∧ (sl.step p x).nf = false

/-! ## The modal filter commands -/

/-- `MF.CFG` (41_modal_filter.md R131). -/
def Obligations.MfCfgConfiguresOneSlot : Prop :=
  ∀ (s : State) (v : BitVec 8) (m : BitVec 4) (freq decay sr : F32) (sl : Slot),
    s.slot? v.toNat m.toNat = some sl → isFinite freq = true → isFinite decay = true → isFinite sr = true →
    0 < units32 sr →
    let d := dclamp s.params.t60MinMs decay
    let c := coef s.params.decayK freq d sr
    ∃ t, exec (.mfCfg v m freq decay sr) s = .next t ∧ Answers s t .ok 0 ∧ t.status = s.status ∧ RestKept s t ∧
      OnlySlot s t v.toNat m.toNat
        { sl with freq := freq, decay := d, sr := sr, b0 := c.b0, a1 := c.a1, a2 := c.a2 }

/-- `MF.RST` (41_modal_filter.md R132). -/
def Obligations.MfRstZeroesTheStateOfOneSlot : Prop :=
  ∀ (s : State) (v : BitVec 8) (m : BitVec 4) (sl : Slot), s.slot? v.toNat m.toNat = some sl →
    ∃ t, exec (.mfRst v m) s = .next t ∧ Answers s t .ok 0 ∧ t.status = s.status ∧ RestKept s t ∧
      OnlySlot s t v.toNat m.toNat { sl with s1 := 0x00000000, s2 := 0x00000000 }

/-- `MF.STEP` (41_modal_filter.md R130, R133): the recurrence, the result `y`, `W_NF` where a checked value is not finite. -/
def Obligations.MfStepRunsTheRecurrence : Prop :=
  ∀ (s : State) (v : BitVec 8) (m : BitVec 4) (x : F32) (sl : Slot),
    s.slot? v.toNat m.toNat = some sl → isFinite x = true →
    ∃ t, exec (.mfStep v m x) s = .next t ∧ EndsWithNf s t (StepRaises s.params sl x) (stepY sl x) ∧ RestKept s t ∧
      OnlySlot s t v.toNat m.toNat (steppedSlot s.params sl x)

/-- Configuring a slot twice with the same operands gives the same slot (40_numerics.md R125; 41_modal_filter.md R131). -/
def Obligations.ConfiguringTwiceIsConfiguringOnce : Prop :=
  ∀ (s : State) (v : BitVec 8) (m : BitVec 4) (freq decay sr : F32) (sl : Slot),
    s.slot? v.toNat m.toNat = some sl → isFinite freq = true → isFinite decay = true → isFinite sr = true →
    0 < units32 sr →
    ∃ t u, exec (.mfCfg v m freq decay sr) s = .next t ∧ exec (.mfCfg v m freq decay sr) t = .next u ∧
      (∀ w k, u.slot? w k = t.slot? w k) ∧
      ∃ y, exec (.rbSetfreq v m freq) t = .next y ∧ ∀ w k, y.slot? w k = t.slot? w k

/-! ## The resonator bank commands -/

/-- `RB.SETFREQ` (42_resonator_bank.md R142): FREQ, and the coefficients once the slot has a rate. -/
def Obligations.RbSetfreqSetsOneFrequency : Prop :=
  ∀ (s : State) (v : BitVec 8) (m : BitVec 4) (hz : F32) (sl : Slot),
    s.slot? v.toNat m.toNat = some sl → isFinite hz = true →
    ∃ t, exec (.rbSetfreq v m hz) s = .next t ∧ Answers s t .ok 0 ∧ t.status = s.status ∧ RestKept s t ∧
      OnlySlot s t v.toNat m.toNat (recomputed s.params { sl with freq := hz })

/-- `RB.SETDECAY` (42_resonator_bank.md R143). -/
def Obligations.RbSetdecaySetsDecayAndRate : Prop :=
  ∀ (s : State) (v : BitVec 8) (m : BitVec 4) (ms sr : F32) (sl : Slot),
    s.slot? v.toNat m.toNat = some sl → isFinite ms = true → isFinite sr = true → 0 < units32 sr →
    let d := dclamp s.params.t60MinMs ms
    let c := coef s.params.decayK sl.freq d sr
    ∃ t, exec (.rbSetdecay v m ms sr) s = .next t ∧ Answers s t .ok 0 ∧ t.status = s.status ∧ RestKept s t ∧
      OnlySlot s t v.toNat m.toNat { sl with decay := d, sr := sr, b0 := c.b0, a1 := c.a1, a2 := c.a2 }

/-- `RB.SETAMP` and `RB.SETTAG` (42_resonator_bank.md R144, R145): one field, no coefficient. -/
def Obligations.RbSetampAndSettagSetOneField : Prop :=
  ∀ (s : State) (v : BitVec 8) (m : BitVec 4) (sl : Slot), s.slot? v.toNat m.toNat = some sl →
    (∀ amp, isFinite amp = true →
      ∃ t, exec (.rbSetamp v m amp) s = .next t ∧ Answers s t .ok 0 ∧ t.status = s.status ∧ RestKept s t ∧
        OnlySlot s t v.toNat m.toNat { sl with amp := amp }) ∧
    ∀ tag : Word, tag.toNat ≤ 1 →
      ∃ t, exec (.rbSettag v m tag) s = .next t ∧ Answers s t .ok 0 ∧ t.status = s.status ∧ RestKept s t ∧
        OnlySlot s t v.toNat m.toNat { sl with tag := if tag = 0 then .harmonic else .inharmonic }

/-- `RB.SETCOUNT` (42_resonator_bank.md R146): COUNT_PEND only. -/
def Obligations.RbSetcountSetsThePendingCountOnly : Prop :=
  ∀ (s : State) (v : BitVec 8) (n : Word) (b : Bank) (k : Fin 9), s.bank? v.toNat = some b → n.toNat = k.val →
    ∃ t, exec (.rbSetcount v n) s = .next t ∧ Answers s t .ok 0 ∧ t.status = s.status ∧ RestKept s t ∧
      OnlyBank s t v.toNat { b with countPend := k }

/-- The count hazard (70_reset_and_hazards.md R260): after `RB.SETCOUNT` a step of the bank gives the response it would
have given without it. The two steps are of two states: that they also agree in the bits of a NaN, where the step raises NF, is
the model's choice (log 7). -/
def Obligations.PendingCountDoesNotChangeAStep : Prop :=
  ∀ (s t u : State) (v w : BitVec 8) (n : Word) (x : F32) (r : Response),
    exec (.rbSetcount v n) s = .next t → exec (.rbStep w x) s = .next u → u.responses = s.responses ++ [r] →
    ∃ y, exec (.rbStep w x) t = .next y ∧ y.responses = t.responses ++ [r] ∧
      ∀ a m, y.slot? a m = u.slot? a m

/-- `RB.TUNE` (42_resonator_bank.md R147, R152, R153): FUND, and FREQ of all eight slots by tag and rank, with the
coefficients of those that have a rate. -/
def Obligations.RbTuneTunesAllSlots : Prop :=
  ∀ (s : State) (v : BitVec 8) (fund : F32) (b : Bank), s.bank? v.toNat = some b → isFinite fund = true →
    (∀ m sl, b.slots[m]? = some sl → isFinite (partialOf b m sl fund) = true) →
    ∃ t b', exec (.rbTune v fund) s = .next t ∧ Answers s t .ok 0 ∧ t.status = s.status ∧ RestKept s t ∧
      OnlyBank s t v.toNat b' ∧ bankFields b' = (b.countPend, b.countEff, b.norm, fund) ∧
      ∀ (m : Nat) (sl : Slot), b.slots[m]? = some sl →
        b'.slots[m]? = some (recomputed s.params { sl with freq := partialOf b m sl fund })

/-- `RB.PREP` (42_resonator_bank.md R148). -/
def Obligations.RbPrepPreparesOneBank : Prop :=
  ∀ (s : State) (v : BitVec 8) (sr : F32) (b : Bank), s.bank? v.toNat = some b → isFinite sr = true → 0 < units32 sr →
    ∃ t b', exec (.rbPrep v sr) s = .next t ∧ Answers s t .ok 0 ∧ t.status = s.status ∧ RestKept s t ∧
      OnlyBank s t v.toNat b' ∧ Prepared s.params b b' sr

/-- `RB.RST` (42_resonator_bank.md R149): S1 and S2 of all eight slots; no configuration field changes. -/
def Obligations.RbRstZeroesTheStateOfOneBank : Prop :=
  ∀ (s : State) (v : BitVec 8) (b : Bank), s.bank? v.toNat = some b →
    ∃ t b', exec (.rbRst v) s = .next t ∧ Answers s t .ok 0 ∧ t.status = s.status ∧ RestKept s t ∧
      OnlyBank s t v.toNat b' ∧ bankFields b' = bankFields b ∧
      ∀ (m : Nat) (sl : Slot), b.slots[m]? = some sl →
        b'.slots[m]? = some { sl with s1 := 0x00000000, s2 := 0x00000000 }

/-- `RB.STEP` (42_resonator_bank.md R140, R141, R150). -/
def Obligations.RbStepStepsAndSumsTheActiveSlots : Prop :=
  ∀ (s : State) (v : BitVec 8) (x : F32) (b : Bank), s.bank? v.toNat = some b → isFinite x = true →
    ∃ t b', exec (.rbStep v x) s = .next t ∧ EndsWithNf s t (BankRaises s.params b x) (bankOut s.params b x) ∧
      RestKept s t ∧ OnlyBank s t v.toNat b' ∧ BankStepped s.params b b' x

/-- A skipped slot still advances (42_resonator_bank.md R154): what a bank step does to the state of its slots does not
depend on any amplitude. The two steps are of two banks: that they also agree in the bits of a NaN, where the step raises NF, is
the model's choice (log 7) and no part of R154. -/
def Obligations.SkippedSlotStillAdvances : Prop :=
  ∀ (p : Params) (b b' : Bank) (x : F32), b'.countEff = b.countEff →
    (∀ (m : Nat) (sl : Slot), b.slots[m]? = some sl → ∃ amp, b'.slots[m]? = some { sl with amp := amp }) →
    ∀ (m : Nat) (sl : Slot), (b.step p x).st.slots[m]? = some sl →
      ∃ amp, (b'.step p x).st.slots[m]? = some { sl with amp := amp }

/-- The ranks of a bank (42_resonator_bank.md R152): each is in 1..8, and two slots of one tag have ranks in the order of
the slots. -/
def Obligations.RanksRiseWithinATag : Prop :=
  ∀ (b : Bank) (m k : Nat) (sl sk : Slot), b.slots[m]? = some sl → b.slots[k]? = some sk →
    1 ≤ b.rank m sl.tag ∧ b.rank m sl.tag ≤ 8 ∧
    (m < k → sl.tag = sk.tag → b.rank m sl.tag < b.rank k sk.tag) ∧
    b.rank m sl.tag = rankOf b m sl.tag

/-! ## The mixer commands -/

/-- `ENG.PREP` (43_mixer.md R170). -/
def Obligations.EngPrepPreparesEveryBank : Prop :=
  ∀ (s : State) (sr : F32) (n : Word), isFinite sr = true → 0 < units32 sr → 1 ≤ n.toNat →
    n.toNat ≤ s.params.maxBlockCap →
    ∃ t, exec (.engPrep sr n) s = .next t ∧ Answers s t .ok 1 ∧ t.status = s.status ∧ PortKept s t ∧ BuffersKept s t ∧
      t.active = s.active ∧ t.maxBlk = n.toNat ∧ t.engineSr = sr ∧
      ∀ v b, s.bank? v = some b → ∃ b', t.bank? v = some b' ∧ Prepared s.params b b' sr

/-- `MIX.SETACT` (43_mixer.md R171): one bit of `G.ACTIVE`. -/
def Obligations.MixSetactWritesOneBit : Prop :=
  ∀ (s : State) (v : BitVec 8) (act : Word) (b : Bank), s.bank? v.toNat = some b → s.nVoices ≤ 32 → act.toNat ≤ 1 →
    ∃ t, exec (.mixSetact v act) s = .next t ∧ Answers s t .ok 0 ∧ t.status = s.status ∧ PortKept s t ∧
      BuffersKept s t ∧ BanksKept s t ∧ t.maxBlk = s.maxBlk ∧ t.engineSr = s.engineSr ∧
      (t.isActive v.toNat = true ↔ act = 1) ∧
      ∀ w, w ≠ v.toNat → t.isActive w = s.isActive w

/-- `MIX.BLOCK` (43_mixer.md R172 to R176): each element of the range is the sum, from +0.0 and in `VOICE_ORDER`, of the
outputs of the active voices' banks; each active bank has run over its input row; nothing else changes but NF. That
`VOICE_ORDER` is a parameter, ascending by default, is the model's choice (log 10). In the NF case every channel gets one value,
NaNs included: that two additions of the same operands make the same NaN is the model's choice too (log 7). -/
def Obligations.MixBlockSumsTheActiveBanks : Prop :=
  ∀ (s : State) (ns nc : Word), ns.toNat ≤ s.maxBlk → 1 ≤ nc.toNat → nc.toNat ≤ s.params.numChMax →
    s.maxBlk ≤ s.params.maxBlockCap → s.outBuf.wf → s.params.voiceOrder.Nodup →
    ∃ t, exec (.mixBlock ns nc) s = .next t ∧ EndsWithNf s t (BlockRaises s ns.toNat) 0 ∧ PortKept s t ∧
      GlobalsKept s t ∧ (∀ a, t.inBuf.read a = s.inBuf.read a) ∧
      (∀ ch n, ch < nc.toNat → n < ns.toNat →
        t.outBuf.read (aOut s.params ch n) = mixedSample s ns.toNat (activeVoices s) n) ∧
      (∀ a, (∀ ch n, ch < nc.toNat → n < ns.toNat → a ≠ aOut s.params ch n) → t.outBuf.read a = s.outBuf.read a) ∧
      ∀ v b, s.bank? v = some b →
        t.bank? v = some (if v ∈ activeVoices s then (blockRun s v ns.toNat b).1 else b)

/-- After `MIX.PANIC` a block is silent and steps no bank (43_mixer.md R177, R178, R179). -/
def Obligations.BlockAfterPanicIsSilent : Prop :=
  ∀ (s t : State) (ns nc : Word), exec .mixPanic s = .next t → ns.toNat ≤ s.maxBlk → 1 ≤ nc.toNat →
    nc.toNat ≤ s.params.numChMax → s.outBuf.wf →
    ∃ u, exec (.mixBlock ns nc) t = .next u ∧ Answers t u .ok 0 ∧ u.status = t.status ∧ BanksKept t u ∧
      ∀ ch n, ch < nc.toNat → n < ns.toNat → u.outBuf.read (aOut s.params ch n) = 0x00000000

/-- `MIX.PANIC` and `MIX.COUNT` (43_mixer.md R178, R180): every voice Idle and nothing else; the number of active voices. -/
def Obligations.MixPanicAndCount : Prop :=
  ∀ s : State,
    (∃ t, exec .mixPanic s = .next t ∧ Answers s t .ok 0 ∧ t.status = s.status ∧ PortKept s t ∧ BuffersKept s t ∧
      BanksKept s t ∧ t.maxBlk = s.maxBlk ∧ t.engineSr = s.engineSr ∧ ReadsOut .mixCount t 0 ∧
      ∀ v, t.isActive v = false) ∧
    ReadsOut .mixCount s (BitVec.ofNat 32 ((List.range 32).filter fun v => s.isActive v).length)

/-- The active voice count never exceeds `N_VOICES`, in any state (43_mixer.md R181; 10_state.md R36). -/
def Obligations.ActiveCountIsBounded : Prop :=
  ∀ s : State, s.activeCount.toNat ≤ s.nVoices

/-! ## The buffer commands -/

/-- `BUF.WRIN` (44_buffers.md R190): one element of `IN`, at `a_in(v, n)`, and no other. -/
def Obligations.BufWrinWritesOneElement : Prop :=
  ∀ (s : State) (v : BitVec 8) (n : Word) (value : F32) (b : Bank), s.bank? v.toNat = some b →
    n.toNat < s.params.maxBlockCap → isFinite value = true → s.inBuf.wf →
    ∃ t, exec (.bufWrin v n value) s = .next t ∧ Answers s t .ok 0 ∧ t.status = s.status ∧ PortKept s t ∧
      GlobalsKept s t ∧ BanksKept s t ∧ (∀ a, t.outBuf.read a = s.outBuf.read a) ∧
      t.inBuf.read (aIn s.params v.toNat n.toNat) = value ∧
      (∀ a, a ≠ aIn s.params v.toNat n.toNat → t.inBuf.read a = s.inBuf.read a) ∧
      ReadsOut (.bufRdin v n) t value

/-- `BUF.RDIN` and `BUF.RDOUT` (44_buffers.md R191, R192): the stored word, and no side effect. -/
def Obligations.BufReadsReturnTheStoredWord : Prop :=
  (∀ (s : State) (v : BitVec 8) (n : Word) (b : Bank), s.bank? v.toNat = some b → n.toNat < s.params.maxBlockCap →
    ReadsOut (.bufRdin v n) s (s.inBuf.read (v.toNat * s.params.maxBlockCap + n.toNat))) ∧
  ∀ (s : State) (ch n : Word), ch.toNat < s.params.numChMax → n.toNat < s.params.maxBlockCap →
    ReadsOut (.bufRdout ch n) s (s.outBuf.read (ch.toNat * s.params.maxBlockCap + n.toNat))

/-! ## The system commands -/

/-- `NOP` and `ST.CLEAR` (45_system.md R200, R205). Clearing STATUS does not make a state well formed: it is well formed
after `ST.CLEAR` exactly if it was before, and with a non-finite S1 or S2 it is no clean entry. -/
def Obligations.NopAndStClear : Prop :=
  ∀ s : State, ReadsOut .nop s 0 ∧
    ∃ t, exec .stClear s = .next t ∧ Answers s t .ok 0 ∧ t.status.word = 0 ∧ RestKept s t ∧ BanksKept s t ∧
      (t.WellFormed ↔ s.WellFormed) ∧ (¬ s.SamplesFinite → ¬ t.CleanEntry)

/-- `RD.MODE`, `RD.BANK` and `RD.GLOBAL` (45_system.md R202, R203, R204): the field the selector names, and no side
effect. -/
def Obligations.RegisterReadsReturnTheField : Prop :=
  ∀ (s : State) (sel w : Word),
    (∀ (v : BitVec 8) (m : BitVec 4) (sl : Slot), s.slot? v.toNat m.toNat = some sl →
      [sl.freq, sl.decay, sl.sr, sl.amp, sl.b0, sl.a1, sl.a2, sl.s1, sl.s2,
        if sl.tag = .harmonic then 0 else 1][sel.toNat]? = some w → ReadsOut (.rdMode v m sel) s w) ∧
    (∀ (v : BitVec 8) (b : Bank), s.bank? v.toNat = some b →
      [BitVec.ofNat 32 b.countPend.val, BitVec.ofNat 32 b.countEff.val, b.norm, b.fund][sel.toNat]? = some w →
      ReadsOut (.rdBank v sel) s w) ∧
    ([s.status.word, s.activeWord, BitVec.ofNat 32 (popcount s.activeWord), BitVec.ofNat 32 s.maxBlk, s.engineSr,
        0x4D524231, s.configWord][sel.toNat]? = some w → ReadsOut (.rdGlobal sel) s w)

/-- The status word (10_state.md R35): ERR is bit 0, NF bit 1, LAST_ERR bits 15:8, and the other bits are 0; the
configuration word (R38) holds the sizes; a response's R0 is the number of its code, and the ten codes have the numbers 0 to
9, in the order of 60_exceptions.md R221, and there is no other (30_encoding.md R86). -/
def Obligations.StatusAndConfigWords : Prop :=
  (∀ st : Status, st.word.toNat =
    (if st.err then 1 else 0) + (if st.nf then 2 else 0) + 2 ^ 8 * st.lastErr.toNat) ∧
  (∀ s : State, s.params.maxBlockCap < 2 ^ 16 → s.params.numChMax < 2 ^ 4 → s.nVoices < 2 ^ 8 →
    s.configWord.toNat = 2 ^ 16 * s.params.maxBlockCap + 2 ^ 12 * s.params.numChMax + 2 ^ 8 * 8 + s.nVoices) ∧
  (let codes := [Code.ok, .eOpcode, .eRsv, .eVoice, .eMode, .eOperand, .eCount, .eBlock, .eIndex, .wNf];
    codes.map Code.byte = [0, 1, 2, 3, 4, 5, 6, 7, 8, 9] ∧ ∀ c : Code, c ∈ codes) ∧
  ∀ (c : Code) (w : Word), Response.r0 ⟨c, w⟩ = BitVec.ofNat 32 (Code.byte c).toNat

/-- The operand checks (60_exceptions.md R224): an operand out of its range rejects the command with the code of the
table, in the order of the table. -/
def Obligations.OperandChecksReject : Prop :=
  ∀ (s : State) (v : BitVec 8) (m : BitVec 4) (sl : Slot), s.slot? v.toNat m.toNat = some sl →
    (∀ a b c : F32, ¬ (isFinite a = true ∧ isFinite b = true ∧ isFinite c = true ∧ 0 < units32 c) →
      RejectedWith (.mfCfg v m a b c) s .eOperand) ∧
    (∀ a : F32, isFinite a = false →
      RejectedWith (.mfStep v m a) s .eOperand ∧ RejectedWith (.rbSetfreq v m a) s .eOperand ∧
      RejectedWith (.rbSetamp v m a) s .eOperand ∧ RejectedWith (.rbTune v a) s .eOperand ∧
      RejectedWith (.rbStep v a) s .eOperand) ∧
    (∀ a b : F32, ¬ (isFinite a = true ∧ isFinite b = true ∧ 0 < units32 b) →
      RejectedWith (.rbSetdecay v m a b) s .eOperand) ∧
    (∀ (a : F32) (b : Bank) (k : Nat) (sk : Slot), isFinite a = true → s.bank? v.toNat = some b →
      b.slots[k]? = some sk → isFinite (partialOf b k sk a) = false → RejectedWith (.rbTune v a) s .eOperand) ∧
    (∀ a : F32, ¬ (isFinite a = true ∧ 0 < units32 a) →
      RejectedWith (.rbPrep v a) s .eOperand ∧ ∀ n, RejectedWith (.engPrep a n) s .eOperand) ∧
    (∀ (a : F32) (n : Word), isFinite a = true → 0 < units32 a → n.toNat < 1 ∨ s.params.maxBlockCap < n.toNat →
      RejectedWith (.engPrep a n) s .eBlock) ∧
    (∀ a : Word, 1 < a.toNat →
      RejectedWith (.rbSettag v m a) s .eOperand ∧ RejectedWith (.mixSetact v a) s .eOperand) ∧
    (∀ a : Word, 8 < a.toNat → RejectedWith (.rbSetcount v a) s .eCount) ∧
    (∀ a b : Word, s.maxBlk < a.toNat ∨ b.toNat < 1 ∨ s.params.numChMax < b.toNat →
      RejectedWith (.mixBlock a b) s .eBlock) ∧
    (∀ (a : Word) (x : F32), s.params.maxBlockCap ≤ a.toNat →
      RejectedWith (.bufWrin v a x) s .eIndex ∧ RejectedWith (.bufRdin v a) s .eIndex) ∧
    (∀ (a : Word) (x : F32), a.toNat < s.params.maxBlockCap → isFinite x = false →
      RejectedWith (.bufWrin v a x) s .eOperand) ∧
    (∀ a b : Word, s.params.numChMax ≤ a.toNat ∨ s.params.maxBlockCap ≤ b.toNat →
      RejectedWith (.bufRdout a b) s .eIndex) ∧
    (∀ a : Word, (9 < a.toNat → RejectedWith (.rdMode v m a) s .eOperand) ∧
      (3 < a.toNat → RejectedWith (.rdBank v a) s .eOperand) ∧
      (6 < a.toNat → RejectedWith (.rdGlobal a) s .eOperand))
end

