-- ==== Sys2Proof/Laws/Decode.lean ====
section
/-! SUPPORT. The header fields of an encoded command, and a header word from its fields. -/

namespace Sys2Proof

section header
variable (o v : BitVec 8) (m : BitVec 4) (a b c : Word)

@[simp] theorem opc_header : Command.opc ⟨headerWord o v m, a, b, c⟩ = o := by
  unfold Command.opc headerWord
  rw [BitVec.extractLsb'_append_eq_of_le (by omega), BitVec.extractLsb'_append_eq_of_le (by omega),
    BitVec.extractLsb'_append_eq_of_le (by omega)]
  simp

@[simp] theorem vid_header : Command.vid ⟨headerWord o v m, a, b, c⟩ = v := by
  unfold Command.vid headerWord
  rw [BitVec.extractLsb'_append_eq_of_le (by omega), BitVec.extractLsb'_append_eq_of_le (by omega),
    BitVec.extractLsb'_append_eq_of_add_le (by omega)]
  simp

@[simp] theorem mid_header : Command.mid ⟨headerWord o v m, a, b, c⟩ = m := by
  unfold Command.mid headerWord
  rw [BitVec.extractLsb'_append_eq_of_le (by omega), BitVec.extractLsb'_append_eq_of_add_le (by omega)]
  simp

@[simp] theorem rsv_header : Command.rsv ⟨headerWord o v m, a, b, c⟩ = 0 := by
  unfold Command.rsv headerWord
  rw [BitVec.extractLsb'_append_eq_of_add_le (by omega)]
  simp

end header

/-- A header word is made of its four fields. -/
theorem header_eq_append (c : Command) : c.w0 = c.opc ++ c.vid ++ c.mid ++ c.rsv := by
  unfold Command.opc Command.vid Command.mid Command.rsv
  rw [BitVec.extractLsb'_append_extractLsb'_eq_extractLsb' (by omega),
    BitVec.extractLsb'_append_extractLsb'_eq_extractLsb' (by omega),
    BitVec.extractLsb'_append_extractLsb'_eq_extractLsb' (by omega)]
  simp

/-- What the decoder answers, said once: a rejection by the first check that fails, or the command of its row. -/
theorem decode_eq_ok {n : Nat} {c : Command} {i : Instr} :
    decode n c = .ok i ↔
      ∃ cls, opcodeMap c.opc c.vid c.mid c.w1 c.w2 c.w3 = some (cls, i) ∧ c.reservedZero cls = true ∧
        i.voiceOk n = true ∧ i.modeOk = true := by
  unfold decode
  cases h : opcodeMap c.opc c.vid c.mid c.w1 c.w2 c.w3 with
  | none => simp
  | some p =>
    obtain ⟨cls, j⟩ := p
    by_cases h1 : c.reservedZero cls <;> by_cases h2 : j.voiceOk n <;> by_cases h3 : j.modeOk <;> simp [h1, h2, h3]
    · rintro rfl
      exact ⟨h2, h3⟩
    all_goals
      rintro rfl
      simp_all

end Sys2Proof
end

