-- ==== Sys2Proof/Laws/Memory.lean ====
section
/-! SUPPORT. The laws of a sample buffer: a read after a write, and the canonical form. -/

namespace Sys2Proof.Machine

theorem readCells_of_lt {l : List (Nat × Word)} {a : Nat} (h : ∀ c ∈ l, a < c.1) : readCells l a = unlistedWord := by
  induction l with
  | nil => rfl
  | cons c rest ih =>
    have hc : a < c.1 := h c (by simp)
    simp only [readCells]
    rw [if_neg (by omega), ih fun d hd => h d (by simp [hd])]

theorem mem_writeCells {l : List (Nat × Word)} {a : Nat} {w : Word} {c : Nat × Word} (h : c ∈ writeCells l a w) :
    c = (a, w) ∨ c ∈ l := by
  induction l with
  | nil =>
    simp only [writeCells] at h
    split at h <;> simp_all
  | cons d rest ih =>
    obtain ⟨k, x⟩ := d
    simp only [writeCells] at h
    split at h
    · split at h <;> simp_all
    · split at h
      · split at h
        · exact .inr (by simp [h])
        · rcases List.mem_cons.1 h with h | h
          · exact .inl h
          · exact .inr (by simp [h])
      · rcases List.mem_cons.1 h with h | h
        · exact .inr (by simp [h])
        · rcases ih h with h | h
          · exact .inl h
          · exact .inr (by simp [h])

theorem writeCells_ne_unlisted {l : List (Nat × Word)} {a : Nat} {w : Word} (h : ∀ c ∈ l, c.2 ≠ unlistedWord) :
    ∀ c ∈ writeCells l a w, c.2 ≠ unlistedWord := by
  induction l with
  | nil =>
    intro c hc
    simp only [writeCells] at hc
    split at hc <;> simp_all
  | cons d rest ih =>
    obtain ⟨k, x⟩ := d
    have hrest : ∀ c ∈ rest, c.2 ≠ unlistedWord := fun c hc => h c (by simp [hc])
    have hk : x ≠ unlistedWord := h (k, x) (by simp)
    intro c hc
    simp only [writeCells] at hc
    split at hc
    · split at hc
      · exact h c hc
      · rcases List.mem_cons.1 hc with rfl | hc
        · assumption
        · exact h c hc
    · split at hc
      · split at hc
        · exact hrest c hc
        · rcases List.mem_cons.1 hc with rfl | hc
          · assumption
          · exact hrest c hc
      · rcases List.mem_cons.1 hc with rfl | hc
        · exact hk
        · exact ih hrest c hc

theorem writeCells_sorted {l : List (Nat × Word)} {a : Nat} {w : Word} (h : l.Pairwise fun c d => c.1 < d.1) :
    (writeCells l a w).Pairwise fun c d => c.1 < d.1 := by
  induction l with
  | nil =>
    simp only [writeCells]
    split <;> simp
  | cons d rest ih =>
    obtain ⟨k, x⟩ := d
    have hk := (List.pairwise_cons.1 h).1
    have hrest := (List.pairwise_cons.1 h).2
    simp only [writeCells]
    split
    · next hlt =>
      split
      · exact h
      · refine List.pairwise_cons.2 ⟨fun c hc => ?_, h⟩
        rcases List.mem_cons.1 hc with rfl | hc
        · exact hlt
        · exact Nat.lt_trans hlt (hk c hc)
    · split
      · next heq =>
        split
        · exact hrest
        · exact List.pairwise_cons.2 ⟨fun c hc => by simpa [heq] using hk c hc, hrest⟩
      · refine List.pairwise_cons.2 ⟨fun c hc => ?_, ih hrest⟩
        rcases mem_writeCells hc with rfl | hc
        · show k < a
          omega
        · exact hk c hc

/-- A write keeps the canonical form. -/
theorem Memory.write_wf {m : Memory} (h : m.wf) (a : Nat) (w : Word) : (m.write a w).wf :=
  ⟨writeCells_sorted h.1, writeCells_ne_unlisted h.2⟩

theorem readCells_writeCells {l : List (Nat × Word)} (h : l.Pairwise fun c d => c.1 < d.1) (a b : Nat) (w : Word) :
    readCells (writeCells l a w) b = if b = a then w else readCells l b := by
  induction l with
  | nil =>
    simp only [writeCells]
    split
    · next hw => simp [readCells, hw]
    · simp only [readCells, eq_comm]
  | cons d rest ih =>
    obtain ⟨k, x⟩ := d
    have hk := (List.pairwise_cons.1 h).1
    have hrest := (List.pairwise_cons.1 h).2
    simp only [writeCells]
    split
    · next hlt =>
      split
      · next hw =>
        by_cases hb : b = a
        · subst hb
          rw [if_pos rfl, hw]
          refine readCells_of_lt fun c hc => ?_
          rcases List.mem_cons.1 hc with rfl | hc
          · exact hlt
          · exact Nat.lt_trans hlt (hk c hc)
        · rw [if_neg hb]
      · by_cases hb : b = a
        · simp [readCells, hb]
        · rw [if_neg hb]
          simp only [readCells]
          rw [if_neg (fun h => hb h.symm)]
    · split
      · next heq =>
        subst heq
        split
        · next hw =>
          by_cases hb : b = a
          · subst hb
            rw [if_pos rfl, hw, readCells_of_lt hk]
          · rw [if_neg hb]
            simp only [readCells]
            rw [if_neg (fun h => hb h.symm)]
        · by_cases hb : b = a
          · simp [readCells, hb]
          · rw [if_neg hb]
            simp only [readCells]
            rw [if_neg (fun h => hb h.symm), if_neg (fun h => hb h.symm)]
      · next hne =>
        simp only [readCells]
        by_cases hkb : k = b
        · subst hkb
          rw [if_pos rfl, if_neg (by omega), if_pos rfl]
        · rw [if_neg hkb, ih hrest, if_neg hkb]

/-- A read after a write: the word written at its address, the old word everywhere else. -/
theorem Memory.read_write {m : Memory} (h : m.wf) (a b : Nat) (w : Word) :
    (m.write a w).read b = if b = a then w else m.read b := readCells_writeCells h.1 a b w

/-- Every cell after a write is the one written or an old one. -/
theorem Memory.mem_write {m : Memory} {a : Nat} {w : Word} {c : Nat × Word} (h : c ∈ (m.write a w).cells) :
    c = (a, w) ∨ c ∈ m.cells := mem_writeCells h

@[simp] theorem Memory.read_empty (a : Nat) : (Memory.mk []).read a = unlistedWord := rfl

theorem Memory.wf_empty : (Memory.mk []).wf := by constructor <;> simp

end Sys2Proof.Machine
end

