-- ==== Sys2Proof/Laws/State.lean ====
section
/-! SUPPORT. One lemma per field per update: what each named update of the state, of a bank and of a slot leaves alone. -/

namespace Sys2Proof.Machine

section putBank
variable (s : State) (v : Nat) (b : Bank)
@[simp] theorem State.putBank_params : (s.putBank v b).params = s.params := rfl
@[simp] theorem State.putBank_status : (s.putBank v b).status = s.status := rfl
@[simp] theorem State.putBank_active : (s.putBank v b).active = s.active := rfl
@[simp] theorem State.putBank_maxBlk : (s.putBank v b).maxBlk = s.maxBlk := rfl
@[simp] theorem State.putBank_engineSr : (s.putBank v b).engineSr = s.engineSr := rfl
@[simp] theorem State.putBank_inBuf : (s.putBank v b).inBuf = s.inBuf := rfl
@[simp] theorem State.putBank_outBuf : (s.putBank v b).outBuf = s.outBuf := rfl
@[simp] theorem State.putBank_pending : (s.putBank v b).pending = s.pending := rfl
@[simp] theorem State.putBank_responses : (s.putBank v b).responses = s.responses := rfl
@[simp] theorem State.putBank_banks : (s.putBank v b).banks = s.banks.set v b := rfl
@[simp] theorem State.putBank_nVoices : (s.putBank v b).nVoices = s.nVoices := by simp [State.nVoices]
end putBank

section putSlot
variable (s : State) (v : BitVec 8) (b : Bank) (m : BitVec 4) (sl : Slot)
@[simp] theorem State.putSlot_params : (s.putSlot v b m sl).params = s.params := rfl
@[simp] theorem State.putSlot_status : (s.putSlot v b m sl).status = s.status := rfl
@[simp] theorem State.putSlot_active : (s.putSlot v b m sl).active = s.active := rfl
@[simp] theorem State.putSlot_maxBlk : (s.putSlot v b m sl).maxBlk = s.maxBlk := rfl
@[simp] theorem State.putSlot_engineSr : (s.putSlot v b m sl).engineSr = s.engineSr := rfl
@[simp] theorem State.putSlot_inBuf : (s.putSlot v b m sl).inBuf = s.inBuf := rfl
@[simp] theorem State.putSlot_outBuf : (s.putSlot v b m sl).outBuf = s.outBuf := rfl
@[simp] theorem State.putSlot_pending : (s.putSlot v b m sl).pending = s.pending := rfl
@[simp] theorem State.putSlot_responses : (s.putSlot v b m sl).responses = s.responses := rfl
@[simp] theorem State.putSlot_nVoices : (s.putSlot v b m sl).nVoices = s.nVoices := by simp [State.putSlot]
end putSlot

section bankUpdates
variable (p : Params) (b : Bank) (m : Nat) (sl : Slot) (sr fund x : F32)
@[simp] theorem Bank.putSlot_countPend : (b.putSlot m sl).countPend = b.countPend := rfl
@[simp] theorem Bank.putSlot_countEff : (b.putSlot m sl).countEff = b.countEff := rfl
@[simp] theorem Bank.putSlot_norm : (b.putSlot m sl).norm = b.norm := rfl
@[simp] theorem Bank.putSlot_fund : (b.putSlot m sl).fund = b.fund := rfl
@[simp] theorem Bank.clear_countPend : b.clear.countPend = b.countPend := rfl
@[simp] theorem Bank.clear_countEff : b.clear.countEff = b.countEff := rfl
@[simp] theorem Bank.clear_norm : b.clear.norm = b.norm := rfl
@[simp] theorem Bank.clear_fund : b.clear.fund = b.fund := rfl
@[simp] theorem Bank.prep_countPend : (b.prep p sr).countPend = b.countPend := rfl
@[simp] theorem Bank.prep_countEff : (b.prep p sr).countEff = b.countPend := rfl
@[simp] theorem Bank.prep_norm : (b.prep p sr).norm = normTable b.countPend := rfl
@[simp] theorem Bank.prep_fund : (b.prep p sr).fund = b.fund := rfl
@[simp] theorem Bank.tune_countPend : (b.tune p fund).countPend = b.countPend := rfl
@[simp] theorem Bank.tune_countEff : (b.tune p fund).countEff = b.countEff := rfl
@[simp] theorem Bank.tune_norm : (b.tune p fund).norm = b.norm := rfl
@[simp] theorem Bank.tune_fund : (b.tune p fund).fund = fund := rfl
@[simp] theorem Bank.step_countPend : (b.step p x).st.countPend = b.countPend := rfl
@[simp] theorem Bank.step_countEff : (b.step p x).st.countEff = b.countEff := rfl
@[simp] theorem Bank.step_norm : (b.step p x).st.norm = b.norm := rfl
@[simp] theorem Bank.step_fund : (b.step p x).st.fund = b.fund := rfl
end bankUpdates

section slotUpdates
variable (p : Params) (sl : Slot) (x : F32)
@[simp] theorem Slot.update_freq : (sl.update p).freq = sl.freq := by unfold Slot.update; split <;> rfl
@[simp] theorem Slot.update_decay : (sl.update p).decay = sl.decay := by unfold Slot.update; split <;> rfl
@[simp] theorem Slot.update_sr : (sl.update p).sr = sl.sr := by unfold Slot.update; split <;> rfl
@[simp] theorem Slot.update_amp : (sl.update p).amp = sl.amp := by unfold Slot.update; split <;> rfl
@[simp] theorem Slot.update_s1 : (sl.update p).s1 = sl.s1 := by unfold Slot.update; split <;> rfl
@[simp] theorem Slot.update_s2 : (sl.update p).s2 = sl.s2 := by unfold Slot.update; split <;> rfl
@[simp] theorem Slot.update_tag : (sl.update p).tag = sl.tag := by unfold Slot.update; split <;> rfl
@[simp] theorem Slot.clear_freq : sl.clear.freq = sl.freq := rfl
@[simp] theorem Slot.clear_decay : sl.clear.decay = sl.decay := rfl
@[simp] theorem Slot.clear_sr : sl.clear.sr = sl.sr := rfl
@[simp] theorem Slot.clear_amp : sl.clear.amp = sl.amp := rfl
@[simp] theorem Slot.clear_b0 : sl.clear.b0 = sl.b0 := rfl
@[simp] theorem Slot.clear_a1 : sl.clear.a1 = sl.a1 := rfl
@[simp] theorem Slot.clear_a2 : sl.clear.a2 = sl.a2 := rfl
@[simp] theorem Slot.clear_s1 : sl.clear.s1 = zero32 := rfl
@[simp] theorem Slot.clear_s2 : sl.clear.s2 = zero32 := rfl
@[simp] theorem Slot.clear_tag : sl.clear.tag = sl.tag := rfl
@[simp] theorem Slot.step_freq : (sl.step p x).st.freq = sl.freq := rfl
@[simp] theorem Slot.step_decay : (sl.step p x).st.decay = sl.decay := rfl
@[simp] theorem Slot.step_sr : (sl.step p x).st.sr = sl.sr := rfl
@[simp] theorem Slot.step_amp : (sl.step p x).st.amp = sl.amp := rfl
@[simp] theorem Slot.step_b0 : (sl.step p x).st.b0 = sl.b0 := rfl
@[simp] theorem Slot.step_a1 : (sl.step p x).st.a1 = sl.a1 := rfl
@[simp] theorem Slot.step_a2 : (sl.step p x).st.a2 = sl.a2 := rfl
@[simp] theorem Slot.step_tag : (sl.step p x).st.tag = sl.tag := rfl
@[simp] theorem Slot.step_y : (sl.step p x).y = add32 (mul32 sl.b0 x) sl.s1 := rfl
end slotUpdates

section status
variable (st : Status) (c : Code)
@[simp] theorem Status.onReject_err : (st.onReject c).err = true := rfl
@[simp] theorem Status.onReject_nf : (st.onReject c).nf = st.nf := rfl
@[simp] theorem Status.onReject_lastErr : (st.onReject c).lastErr = Code.byte c := rfl
@[simp] theorem Status.onNF_err : st.onNF.err = st.err := rfl
@[simp] theorem Status.onNF_nf : st.onNF.nf = true := rfl
@[simp] theorem Status.onNF_lastErr : st.onNF.lastErr = st.lastErr := rfl
end status

section port
variable (s : State) (c : Command) (a : Agent)
@[simp] theorem State.putCommandFirst_pending : (s.putCommandFirst c).pending = ⟨.control, c⟩ :: s.pending := rfl
@[simp] theorem State.putCommandFirst_banks : (s.putCommandFirst c).banks = s.banks := rfl
@[simp] theorem State.putCommandFirst_responses : (s.putCommandFirst c).responses = s.responses := rfl
@[simp] theorem State.issue_pending : (s.issue a c).pending = s.pending ++ [⟨a, c⟩] := rfl
@[simp] theorem State.issue_banks : (s.issue a c).banks = s.banks := rfl
@[simp] theorem State.issue_responses : (s.issue a c).responses = s.responses := rfl
@[simp] theorem State.powerOn_params : s.powerOn.params = s.params := rfl
@[simp] theorem State.powerOn_pending : s.powerOn.pending = [] := rfl
end port

end Sys2Proof.Machine
end

