-- ==== Sys2Proof/Laws/Ops.lean ====
section
/-! SUPPORT. One lemma per shared operation: everything it can do. -/

namespace Sys2Proof.Machine

/-! ## How a command ends -/

@[simp] theorem respond_eq_next {c : Code} {r : Word} {s t : State} :
    respond c r s = .next t ↔ t = { s with responses := s.responses ++ [⟨c, r⟩] } := by
  simp only [respond, Host.Outcome.next.injEq]
  exact eq_comm

@[simp] theorem reject_eq_next {c : Code} {s t : State} :
    reject c s = .next t ↔
      t = { s with status := s.status.onReject c, responses := s.responses ++ [⟨c, 0⟩] } := by
  simp only [reject, respond, Host.Outcome.next.injEq]
  exact eq_comm

theorem complete_eq_next {nf : Bool} {r : Word} {s t : State} :
    complete nf r s = .next t ↔
      (nf = true ∧ t = { s with status := s.status.onNF, responses := s.responses ++ [⟨.wNf, r⟩] }) ∨
      (nf = false ∧ t = { s with responses := s.responses ++ [⟨.ok, r⟩] }) := by
  cases nf <;> simp [complete]

/-- What `onBank` can answer: the rejection where the bank is missing, the continuation where it is there. -/
theorem onBank_eq_next {v : BitVec 8} {s t : State} {k : Bank → Outcome} :
    onBank v s k = .next t ↔
      (s.bank? v.toNat = none ∧ reject .eVoice s = .next t) ∨ ∃ b, s.bank? v.toNat = some b ∧ k b = .next t := by
  unfold onBank
  cases s.bank? v.toNat <;> simp

/-- What `onSlot` can answer: a rejection of the decoder, or the continuation with the slot. -/
theorem onSlot_eq_next {v : BitVec 8} {m : BitVec 4} {s t : State} {k : Bank → Slot → Outcome} :
    onSlot v m s k = .next t ↔
      (s.bank? v.toNat = none ∧ reject .eVoice s = .next t) ∨
      (∃ b, s.bank? v.toNat = some b ∧ b.slots[m.toNat]? = none ∧ reject .eMode s = .next t) ∨
      ∃ b sl, s.bank? v.toNat = some b ∧ b.slots[m.toNat]? = some sl ∧ k b sl = .next t := by
  unfold onSlot
  rw [onBank_eq_next]
  refine or_congr Iff.rfl ?_
  constructor
  · rintro ⟨b, hb, h⟩
    split at h
    · next hs => exact .inl ⟨b, hb, hs, h⟩
    · next sl hs => exact .inr ⟨b, sl, hb, hs, h⟩
  · rintro (⟨b, hb, hs, h⟩ | ⟨b, sl, hb, hs, h⟩)
    · exact ⟨b, hb, by rw [hs]; exact h⟩
    · exact ⟨b, hb, by rw [hs]; exact h⟩

theorem onBank_of_some {v : BitVec 8} {s : State} {k : Bank → Outcome} {b : Bank} (h : s.bank? v.toNat = some b) :
    onBank v s k = k b := by simp [onBank, h]

theorem onSlot_of_some {v : BitVec 8} {m : BitVec 4} {s : State} {k : Bank → Slot → Outcome} {b : Bank} {sl : Slot}
    (hb : s.bank? v.toNat = some b) (hs : b.slots[m.toNat]? = some sl) : onSlot v m s k = k b sl := by
  simp [onSlot, onBank, hb, hs]

/-! ## The register file -/

theorem State.slot?_eq_some {s : State} {v m : Nat} {sl : Slot} :
    s.slot? v m = some sl ↔ ∃ b, s.bank? v = some b ∧ b.slots[m]? = some sl := by
  simp [State.slot?, Option.bind_eq_some_iff]

theorem State.bank?_eq_some_lt {s : State} {v : Nat} {b : Bank} (h : s.bank? v = some b) : v < s.nVoices := by
  obtain ⟨h, -⟩ := List.getElem?_eq_some_iff.1 h
  exact h

theorem State.bank?_putBank {s : State} {v : Nat} (hv : v < s.nVoices) (b : Bank) (w : Nat) :
    (s.putBank v b).bank? w = if w = v then some b else s.bank? w := by
  simp only [State.bank?, State.putBank, List.getElem?_set]
  by_cases h : v = w
  · subst h
    have hv' : v < s.banks.length := hv
    simp [hv']
  · rw [if_neg h, if_neg (fun h' => h h'.symm)]

theorem Bank.slots_putSlot {b : Bank} {m : Nat} (hm : m < 8) (sl : Slot) (k : Nat) :
    (b.putSlot m sl).slots[k]? = if k = m then some sl else b.slots[k]? := by
  simp only [Bank.putSlot, Vector.getElem?_setIfInBounds]
  by_cases h : m = k
  · subst h
    simp [hm]
  · rw [if_neg h, if_neg (fun h' => h h'.symm)]

/-- The slots after one slot is replaced. -/
theorem State.slot?_putSlot {s : State} {v : BitVec 8} {b : Bank} {m : BitVec 4} {old : Slot}
    (hb : s.bank? v.toNat = some b) (hs : b.slots[m.toNat]? = some old) (sl : Slot) (w k : Nat) :
    (s.putSlot v b m sl).slot? w k = if w = v.toNat ∧ k = m.toNat then some sl else s.slot? w k := by
  have hm : m.toNat < 8 := by
    obtain ⟨h, -⟩ := Vector.getElem?_eq_some_iff.1 hs
    exact h
  simp only [State.slot?, State.putSlot, State.bank?_putBank (State.bank?_eq_some_lt hb)]
  by_cases hw : w = v.toNat
  · subst hw
    rw [if_pos rfl, hb]
    simp only [Option.bind_some, Bank.slots_putSlot hm, true_and]
  · simp [hw]

/-- The slots after one bank is replaced. -/
theorem State.slot?_putBank {s : State} {v : Nat} (hv : v < s.nVoices) (b : Bank) (w k : Nat) :
    (s.putBank v b).slot? w k = if w = v then b.slots[k]? else s.slot? w k := by
  simp only [State.slot?, State.bank?_putBank hv]
  split <;> simp

/-! ## The coefficient update -/

theorem Slot.update_of_rate {p : Params} {sl : Slot} (h : ratePositive sl.sr = true) :
    sl.update p =
      { sl with
        b0 := (coef p.decayK sl.freq sl.decay sl.sr).b0
        a1 := (coef p.decayK sl.freq sl.decay sl.sr).a1
        a2 := (coef p.decayK sl.freq sl.decay sl.sr).a2 } := by
  simp [Slot.update, h]

theorem Slot.update_of_no_rate {p : Params} {sl : Slot} (h : ratePositive sl.sr = false) : sl.update p = sl := by
  simp [Slot.update, h]

/-! ## The bank operations, slot by slot -/

theorem Bank.slots_clear (b : Bank) (m : Nat) : b.clear.slots[m]? = b.slots[m]?.map Slot.clear := by
  simp [Bank.clear]

theorem Bank.slots_prep (p : Params) (b : Bank) (sr : F32) (m : Nat) :
    (b.prep p sr).slots[m]? =
      b.slots[m]?.map fun sl => if m < b.countPend.val then ({ sl with sr := sr } : Slot).update p else sl := by
  simp [Bank.prep]

theorem Bank.slots_tune (p : Params) (b : Bank) (fund : F32) (m : Nat) :
    (b.tune p fund).slots[m]? =
      b.slots[m]?.map fun sl =>
        ({ sl with freq := partialFreq sl.tag (b.rank m sl.tag) fund } : Slot).update p := by
  simp [Bank.tune]

theorem Bank.slots_step (p : Params) (b : Bank) (x : F32) (m : Nat) :
    (b.step p x).st.slots[m]? =
      b.slots[m]?.map fun sl => if m < b.countEff.val then (sl.step p x).st else sl := by
  simp only [Bank.step, Bank.stepSlots, Vector.getElem?_map, Vector.getElem?_mapIdx, Option.map_map]
  congr 1
  funext sl
  simp only [Function.comp]
  split <;> rfl

/-! ## Machine level -/

theorem takeCommand_none {s : State} (h : s.pending = []) : s.takeCommand = none := by simp [State.takeCommand, h]

theorem takeCommand_cons {s : State} {a : Agent} {c : Command} {rest : List Issued} (h : s.pending = ⟨a, c⟩ :: rest) :
    s.takeCommand = some (c, { s with pending := rest }) := by simp [State.takeCommand, h]

/-- What a step does: nothing when idle, and otherwise the next command, on the state without it. -/
theorem step_eq (s : State) :
    step s =
      match s.pending with
      | [] => .next s
      | c :: rest => runCommand c.cmd { s with pending := rest } := by
  unfold step State.takeCommand
  cases h : s.pending <;> rfl

end Sys2Proof.Machine
end

