-- ==== Sys2Proof/Laws/Exec.lean ====
section
/-! SUPPORT. What a command can do, said once: it is rejected, or it has the effect of its row. What a run can do. -/

namespace Sys2Proof.Machine

/-- The state with one more response. -/
def State.answered (s : State) (c : Code) (r : Word) : State := { s with responses := s.responses ++ [⟨c, r⟩] }

/-- The state after a rejection. -/
def State.rejected (s : State) (c : Code) : State :=
  { s with status := s.status.onReject c, responses := s.responses ++ [⟨c, 0⟩] }

/-- The state after an accepted command that may have raised NF. -/
def State.completed (s : State) (nf : Bool) (r : Word) : State :=
  { s with
    status := if nf then s.status.onNF else s.status
    responses := s.responses ++ [⟨if nf then .wNf else .ok, r⟩] }

section simps
variable (s : State) (c : Code) (r : Word) (nf : Bool)
@[simp] theorem State.answered_params : (s.answered c r).params = s.params := rfl
@[simp] theorem State.answered_banks : (s.answered c r).banks = s.banks := rfl
@[simp] theorem State.answered_status : (s.answered c r).status = s.status := rfl
@[simp] theorem State.answered_active : (s.answered c r).active = s.active := rfl
@[simp] theorem State.answered_maxBlk : (s.answered c r).maxBlk = s.maxBlk := rfl
@[simp] theorem State.answered_engineSr : (s.answered c r).engineSr = s.engineSr := rfl
@[simp] theorem State.answered_inBuf : (s.answered c r).inBuf = s.inBuf := rfl
@[simp] theorem State.answered_outBuf : (s.answered c r).outBuf = s.outBuf := rfl
@[simp] theorem State.answered_pending : (s.answered c r).pending = s.pending := rfl
@[simp] theorem State.answered_responses : (s.answered c r).responses = s.responses ++ [⟨c, r⟩] := rfl
@[simp] theorem State.answered_bank? (v : Nat) : (s.answered c r).bank? v = s.bank? v := rfl
@[simp] theorem State.answered_slot? (v m : Nat) : (s.answered c r).slot? v m = s.slot? v m := rfl
@[simp] theorem State.answered_nVoices : (s.answered c r).nVoices = s.nVoices := rfl
@[simp] theorem State.rejected_params : (s.rejected c).params = s.params := rfl
@[simp] theorem State.rejected_banks : (s.rejected c).banks = s.banks := rfl
@[simp] theorem State.rejected_status : (s.rejected c).status = s.status.onReject c := rfl
@[simp] theorem State.rejected_active : (s.rejected c).active = s.active := rfl
@[simp] theorem State.rejected_maxBlk : (s.rejected c).maxBlk = s.maxBlk := rfl
@[simp] theorem State.rejected_engineSr : (s.rejected c).engineSr = s.engineSr := rfl
@[simp] theorem State.rejected_inBuf : (s.rejected c).inBuf = s.inBuf := rfl
@[simp] theorem State.rejected_outBuf : (s.rejected c).outBuf = s.outBuf := rfl
@[simp] theorem State.rejected_pending : (s.rejected c).pending = s.pending := rfl
@[simp] theorem State.rejected_responses : (s.rejected c).responses = s.responses ++ [⟨c, 0⟩] := rfl
@[simp] theorem State.rejected_bank? (v : Nat) : (s.rejected c).bank? v = s.bank? v := rfl
@[simp] theorem State.rejected_slot? (v m : Nat) : (s.rejected c).slot? v m = s.slot? v m := rfl
@[simp] theorem State.rejected_nVoices : (s.rejected c).nVoices = s.nVoices := rfl
@[simp] theorem State.completed_params : (s.completed nf r).params = s.params := rfl
@[simp] theorem State.completed_banks : (s.completed nf r).banks = s.banks := rfl
@[simp] theorem State.completed_status :
    (s.completed nf r).status = if nf then s.status.onNF else s.status := rfl
@[simp] theorem State.completed_active : (s.completed nf r).active = s.active := rfl
@[simp] theorem State.completed_maxBlk : (s.completed nf r).maxBlk = s.maxBlk := rfl
@[simp] theorem State.completed_engineSr : (s.completed nf r).engineSr = s.engineSr := rfl
@[simp] theorem State.completed_inBuf : (s.completed nf r).inBuf = s.inBuf := rfl
@[simp] theorem State.completed_outBuf : (s.completed nf r).outBuf = s.outBuf := rfl
@[simp] theorem State.completed_pending : (s.completed nf r).pending = s.pending := rfl
@[simp] theorem State.completed_responses :
    (s.completed nf r).responses = s.responses ++ [⟨if nf then .wNf else .ok, r⟩] := rfl
@[simp] theorem State.completed_bank? (v : Nat) : (s.completed nf r).bank? v = s.bank? v := rfl
@[simp] theorem State.completed_slot? (v m : Nat) : (s.completed nf r).slot? v m = s.slot? v m := rfl
@[simp] theorem State.completed_nVoices : (s.completed nf r).nVoices = s.nVoices := rfl
end simps

theorem respond_eq (c : Code) (r : Word) (s : State) : respond c r s = .next (s.answered c r) := rfl

theorem reject_eq (c : Code) (s : State) : reject c s = .next (s.rejected c) := rfl

theorem complete_eq (nf : Bool) (r : Word) (s : State) : complete nf r s = .next (s.completed nf r) := by
  cases nf <;> rfl

/-- The slot that VID and MID name, with its bank. -/
def State.Names (s : State) (v : BitVec 8) (m : BitVec 4) (b : Bank) (sl : Slot) : Prop :=
  s.bank? v.toNat = some b ∧ b.slots[m.toNat]? = some sl

/-- The effect of an accepted command, and what its acceptance says of the operands. -/
def Effect (i : Instr) (s t : State) : Prop :=
  match i with
  | .nop => t = s.answered .ok 0
  | .mfCfg v m f d r => ∃ b sl, s.Names v m b sl ∧ isFinite f = true ∧ isFinite d = true ∧ isFinite r = true ∧
      ratePositive r = true ∧ t = (s.putSlot v b m
        (({ sl with freq := f, decay := dclamp s.params.t60MinMs d, sr := r } : Slot).update s.params)).answered .ok 0
  | .mfRst v m => ∃ b sl, s.Names v m b sl ∧ t = (s.putSlot v b m sl.clear).answered .ok 0
  | .mfStep v m x => ∃ b sl, s.Names v m b sl ∧ isFinite x = true ∧
      t = (s.putSlot v b m (sl.step s.params x).st).completed (sl.step s.params x).nf (sl.step s.params x).y
  | .rbSetfreq v m f => ∃ b sl, s.Names v m b sl ∧ isFinite f = true ∧
      t = (s.putSlot v b m (({ sl with freq := f } : Slot).update s.params)).answered .ok 0
  | .rbSetdecay v m d r => ∃ b sl, s.Names v m b sl ∧ isFinite d = true ∧ isFinite r = true ∧ ratePositive r = true ∧
      t = (s.putSlot v b m
        (({ sl with decay := dclamp s.params.t60MinMs d, sr := r } : Slot).update s.params)).answered .ok 0
  | .rbSetamp v m a => ∃ b sl, s.Names v m b sl ∧ isFinite a = true ∧
      t = (s.putSlot v b m { sl with amp := a }).answered .ok 0
  | .rbSettag v m g => ∃ b sl tag, s.Names v m b sl ∧ tagOfWord g = some tag ∧
      t = (s.putSlot v b m { sl with tag := tag }).answered .ok 0
  | .rbSetcount v n => ∃ b, s.bank? v.toNat = some b ∧ ∃ h : n.toNat < 9,
      t = (s.putBank v.toNat { b with countPend := ⟨n.toNat, h⟩ }).answered .ok 0
  | .rbTune v f => ∃ b, s.bank? v.toNat = some b ∧ isFinite f = true ∧ (b.partials f).toList.all isFinite = true ∧
      t = (s.putBank v.toNat (b.tune s.params f)).answered .ok 0
  | .rbPrep v r => ∃ b, s.bank? v.toNat = some b ∧ isFinite r = true ∧ ratePositive r = true ∧
      t = (s.putBank v.toNat (b.prep s.params r)).answered .ok 0
  | .rbRst v => ∃ b, s.bank? v.toNat = some b ∧ t = (s.putBank v.toNat b.clear).answered .ok 0
  | .rbStep v x => ∃ b, s.bank? v.toNat = some b ∧ isFinite x = true ∧
      t = (s.putBank v.toNat (b.step s.params x).st).completed (b.step s.params x).nf (b.step s.params x).y
  | .engPrep r n => isFinite r = true ∧ ratePositive r = true ∧ 1 ≤ n.toNat ∧ n.toNat ≤ s.params.maxBlockCap ∧
      t = ({ s with
        engineSr := r
        maxBlk := n.toNat
        banks := s.banks.map fun b => b.prep s.params r } : State).answered .ok 1
  | .mixSetact v a => (∃ b, s.bank? v.toNat = some b) ∧ a.toNat ≤ 1 ∧
      t = ({ s with active := setBit s.active v.toNat (decide (a = 1)) } : State).answered .ok 0
  | .mixBlock ns nc => ns.toNat ≤ s.maxBlk ∧ 1 ≤ nc.toNat ∧ nc.toNat ≤ s.params.numChMax ∧
      t = ({ s with
        banks := (mixAll s nc.toNat ns.toNat).1
        outBuf := (mixAll s nc.toNat ns.toNat).2.out } : State).completed (mixAll s nc.toNat ns.toNat).2.nf 0
  | .mixPanic => t = ({ s with active := 0 } : State).answered .ok 0
  | .mixCount => t = s.answered .ok s.activeCount
  | .bufWrin v n x => (∃ b, s.bank? v.toNat = some b) ∧ n.toNat < s.params.maxBlockCap ∧ isFinite x = true ∧
      t = ({ s with inBuf := s.inBuf.write (aIn s.params v.toNat n.toNat) x } : State).answered .ok 0
  | .bufRdin v n => (∃ b, s.bank? v.toNat = some b) ∧ n.toNat < s.params.maxBlockCap ∧
      t = s.answered .ok (s.inBuf.read (aIn s.params v.toNat n.toNat))
  | .bufRdout ch n => ch.toNat < s.params.numChMax ∧ n.toNat < s.params.maxBlockCap ∧
      t = s.answered .ok (s.outBuf.read (aOut s.params ch.toNat n.toNat))
  | .rdMode v m k => ∃ b sl w, s.Names v m b sl ∧ sl.field? k.toNat = some w ∧ t = s.answered .ok w
  | .rdBank v k => ∃ b w, s.bank? v.toNat = some b ∧ b.field? k.toNat = some w ∧ t = s.answered .ok w
  | .rdGlobal k => ∃ w, s.globalField? k.toNat = some w ∧ t = s.answered .ok w
  | .stClear => t = ({ s with status := Status.cleared } : State).answered .ok 0

/-- A code of a rejection (60_exceptions.md R221). -/
def Code.IsError (c : Code) : Prop := c ≠ .ok ∧ c ≠ .wNf

/-- A command is rejected, or has the effect of its row: there is no third case. -/
theorem exec_cases {i : Instr} {s t : State} (h : exec i s = .next t) :
    (∃ c, Code.IsError c ∧ t = s.rejected c) ∨ Effect i s t := by
  have bad : ∀ c, Code.IsError c → reject c s = .next t → (∃ c, Code.IsError c ∧ t = s.rejected c) := by
    intro c hc h
    rw [reject_eq, Host.Outcome.next.injEq] at h
    exact ⟨c, hc, h.symm⟩
  have hE : ∀ c, c = Code.eVoice ∨ c = .eMode ∨ c = .eOperand ∨ c = .eCount ∨ c = .eBlock ∨ c = .eIndex →
      Code.IsError c := by
    rintro c (rfl | rfl | rfl | rfl | rfl | rfl) <;> exact ⟨by decide, by decide⟩
  have hB : ∀ {v : BitVec 8} {k : Bank → Outcome}, onBank v s k = .next t →
      (∃ c, Code.IsError c ∧ t = s.rejected c) ∨ ∃ b, s.bank? v.toNat = some b ∧ k b = .next t := by
    intro v k h
    rcases onBank_eq_next.1 h with ⟨-, h⟩ | h
    · exact .inl (bad _ (hE _ (by simp)) h)
    · exact .inr h
  have hS : ∀ {v : BitVec 8} {m : BitVec 4} {k : Bank → Slot → Outcome}, onSlot v m s k = .next t →
      (∃ c, Code.IsError c ∧ t = s.rejected c) ∨ ∃ b sl, s.Names v m b sl ∧ k b sl = .next t := by
    intro v m k h
    rcases onSlot_eq_next.1 h with ⟨-, h⟩ | ⟨b, -, -, h⟩ | ⟨b, sl, hb, hs, h⟩
    · exact .inl (bad _ (hE _ (by simp)) h)
    · exact .inl (bad _ (hE _ (by simp)) h)
    · exact .inr ⟨b, sl, ⟨hb, hs⟩, h⟩
  have hF : ∀ {o : Option Word}, respondField o s = .next t →
      (∃ c, Code.IsError c ∧ t = s.rejected c) ∨ ∃ w, o = some w ∧ t = s.answered .ok w := by
    intro o h
    cases o with
    | none => exact .inl (bad _ (hE _ (by simp)) h)
    | some w => exact .inr ⟨w, rfl, (Host.Outcome.next.inj h).symm⟩
  cases i with
  | nop => exact .inr (Host.Outcome.next.inj h).symm
  | mfCfg v m f d r =>
    rcases hS h with h | ⟨b, sl, hn, h⟩
    · exact .inl h
    split at h
    · exact .inl (bad _ (hE _ (by simp)) h)
    split at h
    · exact .inl (bad _ (hE _ (by simp)) h)
    simp_all only [Bool.not_eq_true', Bool.not_eq_false, Bool.and_eq_true]
    exact .inr ⟨b, sl, hn, by simp_all, by simp_all, by simp_all, by simp_all, (Host.Outcome.next.inj h).symm⟩
  | mfRst v m =>
    rcases hS h with h | ⟨b, sl, hn, h⟩
    · exact .inl h
    exact .inr ⟨b, sl, hn, (Host.Outcome.next.inj h).symm⟩
  | mfStep v m x =>
    rcases hS h with h | ⟨b, sl, hn, h⟩
    · exact .inl h
    split at h
    · exact .inl (bad _ (hE _ (by simp)) h)
    simp only [complete_eq] at h
    exact .inr ⟨b, sl, hn, by simp_all, (Host.Outcome.next.inj h).symm⟩
  | rbSetfreq v m f =>
    rcases hS h with h | ⟨b, sl, hn, h⟩
    · exact .inl h
    split at h
    · exact .inl (bad _ (hE _ (by simp)) h)
    exact .inr ⟨b, sl, hn, by simp_all, (Host.Outcome.next.inj h).symm⟩
  | rbSetdecay v m d r =>
    rcases hS h with h | ⟨b, sl, hn, h⟩
    · exact .inl h
    split at h
    · exact .inl (bad _ (hE _ (by simp)) h)
    split at h
    · exact .inl (bad _ (hE _ (by simp)) h)
    exact .inr ⟨b, sl, hn, by simp_all, by simp_all, by simp_all, (Host.Outcome.next.inj h).symm⟩
  | rbSetamp v m a =>
    rcases hS h with h | ⟨b, sl, hn, h⟩
    · exact .inl h
    split at h
    · exact .inl (bad _ (hE _ (by simp)) h)
    exact .inr ⟨b, sl, hn, by simp_all, (Host.Outcome.next.inj h).symm⟩
  | rbSettag v m g =>
    rcases hS h with h | ⟨b, sl, hn, h⟩
    · exact .inl h
    split at h
    · exact .inl (bad _ (hE _ (by simp)) h)
    · next tag ht => exact .inr ⟨b, sl, tag, hn, ht, (Host.Outcome.next.inj h).symm⟩
  | rbSetcount v n =>
    rcases hB h with h | ⟨b, hn, h⟩
    · exact .inl h
    split at h
    · next hlt => exact .inr ⟨b, hn, hlt, (Host.Outcome.next.inj h).symm⟩
    · exact .inl (bad _ (hE _ (by simp)) h)
  | rbTune v f =>
    rcases hB h with h | ⟨b, hn, h⟩
    · exact .inl h
    split at h
    · exact .inl (bad _ (hE _ (by simp)) h)
    split at h
    · exact .inl (bad _ (hE _ (by simp)) h)
    exact .inr ⟨b, hn, by simp_all, by simp_all, (Host.Outcome.next.inj h).symm⟩
  | rbPrep v r =>
    rcases hB h with h | ⟨b, hn, h⟩
    · exact .inl h
    split at h
    · exact .inl (bad _ (hE _ (by simp)) h)
    split at h
    · exact .inl (bad _ (hE _ (by simp)) h)
    exact .inr ⟨b, hn, by simp_all, by simp_all, (Host.Outcome.next.inj h).symm⟩
  | rbRst v =>
    rcases hB h with h | ⟨b, hn, h⟩
    · exact .inl h
    exact .inr ⟨b, hn, (Host.Outcome.next.inj h).symm⟩
  | rbStep v x =>
    rcases hB h with h | ⟨b, hn, h⟩
    · exact .inl h
    split at h
    · exact .inl (bad _ (hE _ (by simp)) h)
    simp only [complete_eq] at h
    exact .inr ⟨b, hn, by simp_all, (Host.Outcome.next.inj h).symm⟩
  | engPrep r n =>
    simp only [exec, execEngPrep] at h
    split at h
    · exact .inl (bad _ (hE _ (by simp)) h)
    split at h
    · exact .inl (bad _ (hE _ (by simp)) h)
    split at h
    · exact .inl (bad _ (hE _ (by simp)) h)
    exact .inr ⟨by simp_all, by simp_all, by omega, by omega, (Host.Outcome.next.inj h).symm⟩
  | mixSetact v a =>
    rcases hB h with h | ⟨b, hn, h⟩
    · exact .inl h
    split at h
    · exact .inl (bad _ (hE _ (by simp)) h)
    exact .inr ⟨⟨b, hn⟩, by omega, (Host.Outcome.next.inj h).symm⟩
  | mixBlock ns nc =>
    simp only [exec, execMixBlock] at h
    split at h
    · exact .inl (bad _ (hE _ (by simp)) h)
    split at h
    · exact .inl (bad _ (hE _ (by simp)) h)
    simp only [complete_eq] at h
    exact .inr ⟨by omega, by omega, by omega, (Host.Outcome.next.inj h).symm⟩
  | mixPanic => exact .inr (Host.Outcome.next.inj h).symm
  | mixCount => exact .inr (Host.Outcome.next.inj h).symm
  | bufWrin v n x =>
    rcases hB h with h | ⟨b, hn, h⟩
    · exact .inl h
    split at h
    · exact .inl (bad _ (hE _ (by simp)) h)
    split at h
    · exact .inl (bad _ (hE _ (by simp)) h)
    exact .inr ⟨⟨b, hn⟩, by omega, by simp_all, (Host.Outcome.next.inj h).symm⟩
  | bufRdin v n =>
    rcases hB h with h | ⟨b, hn, h⟩
    · exact .inl h
    split at h
    · exact .inl (bad _ (hE _ (by simp)) h)
    exact .inr ⟨⟨b, hn⟩, by omega, (Host.Outcome.next.inj h).symm⟩
  | bufRdout ch n =>
    simp only [exec, execBufRdout] at h
    split at h
    · exact .inl (bad _ (hE _ (by simp)) h)
    split at h
    · exact .inl (bad _ (hE _ (by simp)) h)
    exact .inr ⟨by omega, by omega, (Host.Outcome.next.inj h).symm⟩
  | rdMode v m k =>
    rcases hS h with h | ⟨b, sl, hn, h⟩
    · exact .inl h
    rcases hF h with h | ⟨w, hw, h⟩
    · exact .inl h
    exact .inr ⟨b, sl, w, hn, hw, h⟩
  | rdBank v k =>
    rcases hB h with h | ⟨b, hn, h⟩
    · exact .inl h
    rcases hF h with h | ⟨w, hw, h⟩
    · exact .inl h
    exact .inr ⟨b, w, hn, hw, h⟩
  | rdGlobal k =>
    rcases hF h with h | ⟨w, hw, h⟩
    · exact .inl h
    exact .inr ⟨w, hw, h⟩
  | stClear => exact .inr (Host.Outcome.next.inj h).symm

/-! ## Runs -/

/-- A run of `k + 1` steps of any machine is a step and a run of `k`. -/
theorem run_succ_eq_next (M : Host.Core) (k : Nat) (s u : M.State) :
    M.run (k + 1) s = .next u ↔ ∃ t, M.step s = .next t ∧ M.run k t = .next u := by
  rw [Host.Core.run]
  cases M.step s <;> simp

/-- A run of `k + 1` steps of MRB is a step and a run of `k`. -/
theorem core_run_succ {k : Nat} {s u : State} :
    Sys2Proof.core.run (k + 1) s = .next u ↔ ∃ t : State, step s = .next t ∧ Sys2Proof.core.run k t = .next u :=
  run_succ_eq_next Sys2Proof.core k s u

theorem core_run_zero {s u : State} : Sys2Proof.core.run 0 s = .next u ↔ s = u :=
  ⟨fun h => Host.Outcome.next.inj h, fun h => h ▸ rfl⟩

end Sys2Proof.Machine
end

