-- ==== Sys2Proof/Laws/Float.lean ====
section
/-! SUPPORT. The laws of a format: magnitude patterns are in the order of their values, and rounding keeps between its
neighbours. -/

namespace Sys2Proof.Machine

/-! ## Values of magnitude patterns -/

theorem Fmt.infMag_lt_signBit (f : Fmt) : f.infMag < f.signBit := by
  have h1 : 0 < 2 ^ f.ew := Nat.two_pow_pos _
  have h2 : 0 < 2 ^ f.fw := Nat.two_pow_pos _
  simp only [Fmt.infMag, Fmt.signBit, pow_add]
  exact Nat.mul_lt_mul_of_pos_right (by omega) h2

theorem Fmt.mag_of_le {f : Fmt} {p : Nat} (h : p ≤ f.infMag) : f.mag p = p :=
  Nat.mod_eq_of_lt (lt_of_le_of_lt h f.infMag_lt_signBit)

/-- The value of the pattern with biased exponent `e + 1` (or `e` = 0) and significand `q`, `q = 2 ^ (fw + 1)` included. -/
theorem Fmt.units_mk {f : Fmt} {e q : Nat} (he : e = 0 ∨ 2 ^ f.fw ≤ q) (hq : q ≤ 2 ^ (f.fw + 1))
    (hp : e * 2 ^ f.fw + q ≤ f.infMag) : f.units (e * 2 ^ f.fw + q) = q * 2 ^ e := by
  have h2 : 0 < 2 ^ f.fw := Nat.two_pow_pos _
  simp only [Fmt.units, Fmt.mag_of_le hp]
  rcases lt_trichotomy q (2 ^ f.fw) with h | h | h
  · have he : e = 0 := by omega
    subst he
    simp [Nat.div_eq_of_lt h, Nat.mod_eq_of_lt h]
  · subst h
    have h3 : (e * 2 ^ f.fw + 2 ^ f.fw) / 2 ^ f.fw = e + 1 := by
      rw [show e * 2 ^ f.fw + 2 ^ f.fw = (e + 1) * 2 ^ f.fw by ring, Nat.mul_div_cancel _ h2]
    have h4 : (e * 2 ^ f.fw + 2 ^ f.fw) % 2 ^ f.fw = 0 := by
      rw [show e * 2 ^ f.fw + 2 ^ f.fw = (e + 1) * 2 ^ f.fw by ring, Nat.mul_mod_left]
    simp [h3, h4]
  · rw [pow_succ] at hq
    rcases Nat.lt_or_ge q (2 ^ f.fw * 2) with hlt | hge
    · have h3 : (e * 2 ^ f.fw + q) / 2 ^ f.fw = e + 1 := by
        rw [Nat.div_eq_iff h2]
        have h5 : (e + 1) * 2 ^ f.fw = e * 2 ^ f.fw + 2 ^ f.fw := Nat.succ_mul _ _
        omega
      have h4 : (e * 2 ^ f.fw + q) % 2 ^ f.fw = q - 2 ^ f.fw := by
        have := Nat.div_add_mod (e * 2 ^ f.fw + q) (2 ^ f.fw)
        rw [h3] at this
        have h5 : 2 ^ f.fw * (e + 1) = e * 2 ^ f.fw + 2 ^ f.fw := by ring
        omega
      rw [h3, h4, if_neg (by omega)]
      congr 1
      omega
    · have hq' : q = 2 ^ f.fw * 2 := by omega
      subst hq'
      have h3 : (e * 2 ^ f.fw + 2 ^ f.fw * 2) / 2 ^ f.fw = e + 2 := by
        rw [show e * 2 ^ f.fw + 2 ^ f.fw * 2 = (e + 2) * 2 ^ f.fw by ring, Nat.mul_div_cancel _ h2]
      have h4 : (e * 2 ^ f.fw + 2 ^ f.fw * 2) % 2 ^ f.fw = 0 := by
        rw [show e * 2 ^ f.fw + 2 ^ f.fw * 2 = (e + 2) * 2 ^ f.fw by ring, Nat.mul_mod_left]
      rw [h3, h4, if_neg (by omega)]
      simp only [Nat.add_zero, show e + 2 - 1 = e + 1 by omega, pow_succ]
      ring

/-- Every magnitude pattern is some exponent and significand of `units_mk`. -/
theorem Fmt.exists_mk (f : Fmt) (p : Nat) :
    ∃ e q, p = e * 2 ^ f.fw + q ∧ (e = 0 ∨ 2 ^ f.fw ≤ q) ∧ q < 2 ^ (f.fw + 1) := by
  have h2 : 0 < 2 ^ f.fw := Nat.two_pow_pos _
  have hd := Nat.div_add_mod' p (2 ^ f.fw)
  have hm := Nat.mod_lt p h2
  rw [pow_succ]
  rcases Nat.eq_zero_or_pos (p / 2 ^ f.fw) with h | h
  · exact ⟨0, p, by omega, .inl rfl, by rw [h] at hd; omega⟩
  · refine ⟨p / 2 ^ f.fw - 1, 2 ^ f.fw + p % 2 ^ f.fw, ?_, .inr (by omega), by omega⟩
    obtain ⟨k, hk⟩ : ∃ k, p / 2 ^ f.fw = k + 1 := ⟨_, (Nat.succ_pred_eq_of_pos h).symm⟩
    rw [hk] at hd ⊢
    rw [Nat.add_sub_cancel, ← Nat.add_assoc, ← Nat.succ_mul]
    exact hd.symm

/-- The next pattern stands for the next value: one step of the significand. -/
theorem Fmt.units_succ_mk {f : Fmt} {e q : Nat} (he : e = 0 ∨ 2 ^ f.fw ≤ q) (hq : q < 2 ^ (f.fw + 1))
    (hp : e * 2 ^ f.fw + q < f.infMag) : f.units (e * 2 ^ f.fw + q + 1) = (q + 1) * 2 ^ e :=
  Fmt.units_mk (q := q + 1) (by omega) (by omega) (by omega)

theorem Fmt.units_lt_succ {f : Fmt} {p : Nat} (hp : p < f.infMag) : f.units p < f.units (p + 1) := by
  obtain ⟨e, q, rfl, he, hq⟩ := f.exists_mk p
  rw [Fmt.units_mk he hq.le hp.le, Fmt.units_succ_mk he hq hp]
  exact Nat.mul_lt_mul_of_pos_right (by omega) (Nat.two_pow_pos _)

/-- Magnitude patterns are in the order of their values. -/
theorem Fmt.units_lt {f : Fmt} {p q : Nat} (h : p < q) (hq : q ≤ f.infMag) : f.units p < f.units q := by
  induction q with
  | zero => omega
  | succ q ih =>
    rcases Nat.lt_succ_iff_lt_or_eq.1 h with h | rfl
    · exact (ih h (by omega)).trans (Fmt.units_lt_succ hq)
    · exact Fmt.units_lt_succ hq

theorem Fmt.units_lt_iff {f : Fmt} {p q : Nat} (hp : p ≤ f.infMag) (hq : q ≤ f.infMag) :
    f.units p < f.units q ↔ p < q := by
  constructor
  · intro h
    by_contra hn
    rcases Nat.lt_or_eq_of_le (Nat.le_of_not_lt hn) with h' | rfl
    · exact absurd (Fmt.units_lt h' hp) (by omega)
    · omega
  · exact fun h => Fmt.units_lt h hq

theorem Fmt.units_le_iff {f : Fmt} {p q : Nat} (hp : p ≤ f.infMag) (hq : q ≤ f.infMag) :
    f.units p ≤ f.units q ↔ p ≤ q := by
  rw [← not_lt, ← not_lt, Fmt.units_lt_iff hq hp]

theorem Fmt.units_inj {f : Fmt} {p q : Nat} (hp : p ≤ f.infMag) (hq : q ≤ f.infMag) (h : f.units p = f.units q) : p = q :=
  le_antisymm ((Fmt.units_le_iff hp hq).1 h.le) ((Fmt.units_le_iff hq hp).1 h.ge)

@[simp] theorem Fmt.units_zero (f : Fmt) : f.units 0 = 0 := by simp [Fmt.units, Fmt.mag]

/-! ## Rounding -/

/-- The exponent and significand that rounding starts from: the largest pattern at or below the value. -/
theorem Fmt.round_start (f : Fmt) (num den : Nat) :
    let e := (num / den).log2 - f.fw
    let q := num / (den * 2 ^ e)
    (e = 0 ∨ 2 ^ f.fw ≤ q) ∧ q < 2 ^ (f.fw + 1) := by
  simp only [← Nat.div_div_eq_div_mul]
  generalize num / den = n
  have hlt : n < 2 ^ (n.log2 + 1) := Nat.lt_log2_self
  constructor
  · rcases Nat.eq_zero_or_pos (n.log2 - f.fw) with h | h
    · exact .inl h
    · right
      rw [Nat.le_div_iff_mul_le (Nat.two_pow_pos _), ← pow_add]
      have hn : n ≠ 0 := by
        rintro rfl
        simp at h
      rw [show f.fw + (n.log2 - f.fw) = n.log2 by omega]
      exact Nat.log2_self_le hn
  · rw [Nat.div_lt_iff_lt_mul (Nat.two_pow_pos _), ← pow_add]
    exact hlt.trans_le (Nat.pow_le_pow_right (by norm_num) (by omega))

/-- What rounding answers: with the pattern `p` at or below the value and one step `w` between `p` and `p + 1`, it is `p`
or `p + 1`, by the comparison of the rest with half a step. -/
theorem Fmt.round_cases (f : Fmt) {num den : Nat} (hden : 0 < den) :
    ∃ e q r : Nat, (e = 0 ∨ 2 ^ f.fw ≤ q) ∧ q < 2 ^ (f.fw + 1) ∧ num = q * (den * 2 ^ e) + r ∧ r < den * 2 ^ e ∧
      f.round num den =
        min (e * 2 ^ f.fw + q + if den * 2 ^ e < 2 * r ∨ (2 * r = den * 2 ^ e ∧ q % 2 = 1) then 1 else 0) f.infMag := by
  obtain ⟨he, hq⟩ := f.round_start num den
  have hd : 0 < den * 2 ^ ((num / den).log2 - f.fw) := Nat.mul_pos hden (Nat.two_pow_pos _)
  exact ⟨_, _, _, he, hq, (Nat.div_add_mod' _ _).symm, Nat.mod_lt _ hd, rfl⟩

theorem Fmt.round_le_infMag (f : Fmt) (num den : Nat) : f.round num den ≤ f.infMag := Nat.min_le_right _ _

/-- An exponent and significand at or past the pattern of infinity stand for at least its value. -/
theorem Fmt.units_infMag_le {f : Fmt} {e q : Nat} (he : e = 0 ∨ 2 ^ f.fw ≤ q) (hq : q < 2 ^ (f.fw + 1))
    (hp : f.infMag ≤ e * 2 ^ f.fw + q) : f.units f.infMag ≤ q * 2 ^ e := by
  by_cases hE : e * 2 ^ f.fw + q = f.infMag
  · rw [← hE, Fmt.units_mk he hq.le hE.le]
  · have h2 : 0 < 2 ^ f.fw := Nat.two_pow_pos _
    have hi : f.infMag = (2 ^ f.ew - 2) * 2 ^ f.fw + 2 ^ f.fw ∨ f.infMag = 0 := by
      unfold Fmt.infMag
      rcases Nat.lt_or_ge (2 ^ f.ew) 2 with h' | h'
      · right
        have : 2 ^ f.ew - 1 = 0 := by omega
        rw [this, Nat.zero_mul]
      · left
        rw [← Nat.succ_mul]
        congr 1
        omega
    rcases hi with hi | hi
    · have hu : f.units f.infMag = 2 ^ f.fw * 2 ^ (2 ^ f.ew - 2) := by
        conv_lhs => rw [hi]
        exact Fmt.units_mk (.inr le_rfl) (Nat.pow_le_pow_right (by norm_num) (by omega)) hi.ge
      rw [hu]
      generalize 2 ^ f.ew - 2 = k at *
      rw [pow_succ] at hq
      rcases Nat.lt_or_ge e k with hek | hek
      · have h4 : (e + 1) * 2 ^ f.fw ≤ k * 2 ^ f.fw := Nat.mul_le_mul_right _ hek
        have h5 : (e + 1) * 2 ^ f.fw = e * 2 ^ f.fw + 2 ^ f.fw := Nat.succ_mul _ _
        omega
      · have h3 : 2 ^ f.fw ≤ q := by
          rcases he with rfl | he
          · have : k = 0 := by omega
            subst this
            omega
          · exact he
        exact Nat.mul_le_mul h3 (Nat.pow_le_pow_right (by norm_num) hek)
    · rw [hi]; simp

/-- A pattern of a larger value bounds the rounding from above. -/
theorem Fmt.round_le {f : Fmt} {num den c : Nat} (hden : 0 < den) (hc : c ≤ f.infMag) (h : num ≤ f.units c * den) :
    f.round num den ≤ c := by
  obtain ⟨e, q, r, he, hq, hnum, hr, hround⟩ := f.round_cases hden (num := num)
  rw [hround]
  by_contra hcon
  have hp : e * 2 ^ f.fw + q < f.infMag := by
    by_contra hge
    have hinf : min (e * 2 ^ f.fw + q + if den * 2 ^ e < 2 * r ∨ (2 * r = den * 2 ^ e ∧ q % 2 = 1) then 1 else 0)
        f.infMag = f.infMag := Nat.min_eq_right (by omega)
    rw [hinf] at hcon
    have hle := Fmt.units_infMag_le he hq (by omega)
    have h1 : f.units c * den < f.units f.infMag * den :=
      Nat.mul_lt_mul_of_pos_right (Fmt.units_lt (by omega) le_rfl) hden
    have h2 : f.units f.infMag * den ≤ q * 2 ^ e * den := Nat.mul_le_mul_right _ hle
    have h3 : q * (den * 2 ^ e) = q * 2 ^ e * den := by ring
    omega
  have hu := Fmt.units_mk he hq.le hp.le
  have hus := Fmt.units_succ_mk he hq hp
  have hcp : c ≤ e * 2 ^ f.fw + q := by
    by_contra hgt
    apply hcon
    refine (Nat.min_le_left _ _).trans ?_
    split <;> omega
  have h1 : f.units c ≤ q * 2 ^ e := by rw [← hu]; exact (Fmt.units_le_iff hc hp.le).2 hcp
  have h2 : f.units c * den ≤ q * (den * 2 ^ e) := by
    calc f.units c * den ≤ q * 2 ^ e * den := Nat.mul_le_mul_right _ h1
      _ = q * (den * 2 ^ e) := by ring
  have hr0 : r = 0 := by omega
  have hd : 0 < den * 2 ^ e := Nat.mul_pos hden (Nat.two_pow_pos _)
  subst hr0
  rw [if_neg (by omega), Nat.add_zero] at hcon
  have hlt : c < e * 2 ^ f.fw + q := by
    have := Nat.min_le_left (e * 2 ^ f.fw + q) f.infMag
    omega
  have h3 := Fmt.units_lt hlt hp.le
  rw [hu] at h3
  have h4 : f.units c * den < q * 2 ^ e * den := Nat.mul_lt_mul_of_pos_right h3 hden
  have h5 : q * (den * 2 ^ e) = q * 2 ^ e * den := by ring
  omega

/-- A pattern of a smaller value bounds the rounding from below. -/
theorem Fmt.le_round {f : Fmt} {num den c : Nat} (hden : 0 < den) (hc : c ≤ f.infMag) (h : f.units c * den ≤ num) :
    c ≤ f.round num den := by
  obtain ⟨e, q, r, he, hq, hnum, hr, hround⟩ := f.round_cases hden (num := num)
  rw [hround]
  refine le_min ?_ hc
  refine le_trans ?_ (Nat.le_add_right _ _)
  by_contra hlt
  have hp : e * 2 ^ f.fw + q < f.infMag := by omega
  have h1 : f.units (e * 2 ^ f.fw + q + 1) ≤ f.units c := (Fmt.units_le_iff (by omega) hc).2 (by omega)
  rw [Fmt.units_succ_mk he hq hp] at h1
  have h2 : (q + 1) * 2 ^ e * den ≤ num := (Nat.mul_le_mul_right _ h1).trans h
  have h3 : (q + 1) * 2 ^ e * den = q * (den * 2 ^ e) + den * 2 ^ e := by ring
  omega

/-- A value of the format rounds to itself. -/
theorem Fmt.round_exact {f : Fmt} {num den c : Nat} (hden : 0 < den) (hc : c ≤ f.infMag) (h : num = f.units c * den) :
    f.round num den = c :=
  le_antisymm (Fmt.round_le hden hc h.le) (Fmt.le_round hden hc h.ge)

/-- The truncation is a finite pattern whose value is at most the given one. -/
theorem Fmt.trunc_lt (f : Fmt) (h : 0 < f.infMag) (n : Nat) : f.trunc n < f.infMag :=
  lt_of_le_of_lt (Nat.min_le_right _ _) (by omega)

theorem Fmt.units_trunc_le (f : Fmt) (n : Nat) : f.units (f.trunc n) ≤ n := by
  obtain ⟨he, hq⟩ := f.round_start n 1
  simp only [Nat.div_one, one_mul] at he hq
  have hle : f.trunc n ≤ (n.log2 - f.fw) * 2 ^ f.fw + n / 2 ^ (n.log2 - f.fw) := Nat.min_le_left _ _
  rcases Nat.lt_or_ge ((n.log2 - f.fw) * 2 ^ f.fw + n / 2 ^ (n.log2 - f.fw)) f.infMag with h | h
  · refine ((Fmt.units_le_iff ((Nat.min_le_right _ _).trans (by omega)) h.le).2 hle).trans ?_
    rw [Fmt.units_mk he hq.le h.le]
    exact Nat.div_mul_le_self _ _
  · by_contra hlt
    have hn : f.round n 1 ≤ f.trunc n := Fmt.round_le Nat.one_pos ((Nat.min_le_right _ _).trans (by omega)) (by omega)
    have ht : f.trunc n = f.infMag - 1 := Nat.min_eq_right (by omega)
    have hr : f.round n 1 = f.infMag := by
      obtain ⟨e, q, r, he', hq', hnum, hr, hround⟩ := f.round_cases (num := n) Nat.one_pos
      have : f.infMag ≤ (n.log2 - f.fw) * 2 ^ f.fw + n / (2 ^ (n.log2 - f.fw)) := h
      unfold Fmt.round
      simp only [Nat.div_one, one_mul]
      exact Nat.min_eq_right (by omega)
    have h0 : f.infMag = 0 := by omega
    have : f.trunc n = 0 := by omega
    rw [this] at hlt
    simp at hlt

/-- The truncation is the largest finite pattern whose value is at most the given one. -/
theorem Fmt.le_trunc {f : Fmt} {n c : Nat} (hc : c < f.infMag) (h : f.units c ≤ n) : c ≤ f.trunc n := by
  obtain ⟨he, hq⟩ := f.round_start n 1
  simp only [Nat.div_one, one_mul] at he hq
  refine le_min ?_ (by omega)
  by_contra hlt
  have hp : (n.log2 - f.fw) * 2 ^ f.fw + n / 2 ^ (n.log2 - f.fw) < f.infMag := by omega
  have h1 := (Fmt.units_le_iff (f := f) (p := (n.log2 - f.fw) * 2 ^ f.fw + n / 2 ^ (n.log2 - f.fw) + 1) (by omega) hc.le).2
    (by omega)
  rw [Fmt.units_succ_mk he hq hp] at h1
  have h2 := Nat.lt_mul_div_succ n (Nat.two_pow_pos (n.log2 - f.fw))
  have h3 : (n / 2 ^ (n.log2 - f.fw) + 1) * 2 ^ (n.log2 - f.fw) = 2 ^ (n.log2 - f.fw) * (n / 2 ^ (n.log2 - f.fw) + 1) := by
    ring
  omega

/-! ## Patterns -/

@[simp] theorem Fmt.mag_pack {f : Fmt} {neg : Bool} {m : Nat} (h : m < f.signBit) : f.mag (f.pack neg m) = m := by
  cases neg <;> simp [Fmt.mag, Fmt.pack, Nat.mod_eq_of_lt h]

@[simp] theorem Fmt.neg_pack {f : Fmt} {neg : Bool} {m : Nat} (h : m < f.signBit) : f.neg (f.pack neg m) = neg := by
  cases neg
  · simp [Fmt.neg, Fmt.pack, Nat.div_eq_of_lt h]
  · simp [Fmt.neg, Fmt.pack, Nat.add_div_left m (show 0 < f.signBit by omega), Nat.div_eq_of_lt h]

theorem Fmt.pack_lt {f : Fmt} {neg : Bool} {m : Nat} (h : m < f.signBit) : f.pack neg m < 2 * f.signBit := by
  unfold Fmt.pack
  split <;> omega

/-- A pattern is its sign and its magnitude. -/
theorem Fmt.pack_neg_mag {f : Fmt} {x : Nat} (h : x < 2 * f.signBit) : f.pack (f.neg x) (f.mag x) = x := by
  have hd := Nat.div_add_mod x f.signBit
  have hq : x / f.signBit < 2 := Nat.div_lt_of_lt_mul (by rwa [Nat.mul_comm])
  unfold Fmt.pack Fmt.neg Fmt.mag
  by_cases h1 : x / f.signBit = 1
  · rw [h1] at hd ⊢
    simp only [Nat.one_mod, decide_true, if_true]
    omega
  · have h0 : x / f.signBit = 0 := Nat.lt_one_iff.1 (lt_of_le_of_ne (Nat.le_of_lt_succ hq) h1)
    rw [h0] at hd ⊢
    simp only [Nat.zero_mod, decide_false, Nat.zero_ne_one, Bool.false_eq_true, if_false]
    omega

theorem Fmt.units_eq_units_mag (f : Fmt) (x : Nat) : f.units (f.mag x) = f.units x := by simp [Fmt.units, Fmt.mag]

/-- The value of a pattern below infinity. -/
theorem Fmt.view_of_lt {f : Fmt} {x : Nat} (h : f.mag x < f.infMag) : f.view x = .fin (f.neg x) (f.units x) := by
  rw [Fmt.view, if_neg (by omega), if_neg (by omega)]

theorem mag_lt_of_isFinite {x : F32} (h : isFinite x = true) : b32.mag x.toNat < b32.infMag := of_decide_eq_true h

theorem mag_lt_of_isFinite64 {x : F64} (h : isFinite64 x = true) : b64.mag x.toNat < b64.infMag := of_decide_eq_true h

/-- A binary32 made of a sign and a magnitude pattern. -/
theorem toNat_pack32 {neg : Bool} {m : Nat} (h : m ≤ b32.infMag) : (BitVec.ofNat 32 (b32.pack neg m)).toNat = b32.pack neg m := by
  rw [BitVec.toNat_ofNat, Nat.mod_eq_of_lt]
  exact Fmt.pack_lt (lt_of_le_of_lt h b32.infMag_lt_signBit)

/-- A binary64 made of a sign and a magnitude pattern. -/
theorem toNat_pack64 {neg : Bool} {m : Nat} (h : m ≤ b64.infMag) : (BitVec.ofNat 64 (b64.pack neg m)).toNat = b64.pack neg m := by
  rw [BitVec.toNat_ofNat, Nat.mod_eq_of_lt]
  exact Fmt.pack_lt (lt_of_le_of_lt h b64.infMag_lt_signBit)

/-! ## Signed values -/

theorem units32_pack {neg : Bool} {m : Nat} (h : m ≤ b32.infMag) :
    units32 (BitVec.ofNat 32 (b32.pack neg m)) = signedUnits neg (b32.units m) := by
  have hs := lt_of_le_of_lt h b32.infMag_lt_signBit
  rw [units32, toNat_pack32 h, Fmt.neg_pack hs, ← Fmt.units_eq_units_mag, Fmt.mag_pack hs]

theorem units64_pack {neg : Bool} {m : Nat} (h : m ≤ b64.infMag) :
    units64 (BitVec.ofNat 64 (b64.pack neg m)) = signedUnits neg (b64.units m) := by
  have hs := lt_of_le_of_lt h b64.infMag_lt_signBit
  rw [units64, toNat_pack64 h, Fmt.neg_pack hs, ← Fmt.units_eq_units_mag, Fmt.mag_pack hs]

theorem isFinite_pack {neg : Bool} {m : Nat} (h : m ≤ b32.infMag) :
    isFinite (BitVec.ofNat 32 (b32.pack neg m)) = decide (m < b32.infMag) := by
  rw [isFinite, toNat_pack32 h, Fmt.mag_pack (lt_of_le_of_lt h b32.infMag_lt_signBit)]

theorem isFinite64_pack {neg : Bool} {m : Nat} (h : m ≤ b64.infMag) :
    isFinite64 (BitVec.ofNat 64 (b64.pack neg m)) = decide (m < b64.infMag) := by
  rw [isFinite64, toNat_pack64 h, Fmt.mag_pack (lt_of_le_of_lt h b64.infMag_lt_signBit)]

theorem pack_self32 (x : F32) : BitVec.ofNat 32 (b32.pack (b32.neg x.toNat) (b32.mag x.toNat)) = x := by
  rw [Fmt.pack_neg_mag (show x.toNat < 2 * b32.signBit from x.isLt), BitVec.ofNat_toNat, BitVec.setWidth_eq]

theorem pack_self64 (x : F64) : BitVec.ofNat 64 (b64.pack (b64.neg x.toNat) (b64.mag x.toNat)) = x := by
  rw [Fmt.pack_neg_mag (show x.toNat < 2 * b64.signBit from x.isLt), BitVec.ofNat_toNat, BitVec.setWidth_eq]

theorem natAbs_signedUnits (s : Bool) (u : Nat) : (signedUnits s u).natAbs = u := by cases s <;> simp [signedUnits]

/-- Two finite binary32 with one sign and one value are one pattern. -/
theorem eq_of_units32 {x y : F32} (hx : isFinite x = true) (hy : isFinite y = true)
    (hs : b32.neg x.toNat = b32.neg y.toNat) (hu : b32.units x.toNat = b32.units y.toNat) : x = y := by
  rw [← pack_self32 x, ← pack_self32 y, hs]
  congr 2
  refine Fmt.units_inj (mag_lt_of_isFinite hx).le (mag_lt_of_isFinite hy).le ?_
  rw [Fmt.units_eq_units_mag, Fmt.units_eq_units_mag, hu]

/-! ## The operations on finite operands -/

/-- A sum of finite binary32 is the rounded exact sum. -/
theorem add32_of_finite {a b : F32} (ha : isFinite a = true) (hb : isFinite b = true) :
    add32 a b =
      BitVec.ofNat 32
        (if units32 a + units32 b = 0 then b32.pack (b32.neg a.toNat && b32.neg b.toNat) 0
        else b32.pack (decide (units32 a + units32 b < 0)) (b32.round (units32 a + units32 b).natAbs 1)) := by
  unfold add32 Fmt.add
  rw [Fmt.view_of_lt (mag_lt_of_isFinite ha), Fmt.view_of_lt (mag_lt_of_isFinite hb)]
  rfl

/-- A product of finite binary32 is the rounded exact product. -/
theorem mul32_of_finite {a b : F32} (ha : isFinite a = true) (hb : isFinite b = true) :
    mul32 a b =
      BitVec.ofNat 32
        (b32.pack (b32.neg a.toNat ^^ b32.neg b.toNat) (b32.round (b32.units a.toNat * b32.units b.toNat) (2 ^ b32.unit))) := by
  unfold mul32 Fmt.mul
  rw [Fmt.view_of_lt (mag_lt_of_isFinite ha), Fmt.view_of_lt (mag_lt_of_isFinite hb)]

/-- A sum of finite binary64 is the rounded exact sum. -/
theorem add64_of_finite {a b : F64} (ha : isFinite64 a = true) (hb : isFinite64 b = true) :
    add64 a b =
      BitVec.ofNat 64
        (if units64 a + units64 b = 0 then b64.pack (b64.neg a.toNat && b64.neg b.toNat) 0
        else b64.pack (decide (units64 a + units64 b < 0)) (b64.round (units64 a + units64 b).natAbs 1)) := by
  unfold add64 Fmt.add
  rw [Fmt.view_of_lt (mag_lt_of_isFinite64 ha), Fmt.view_of_lt (mag_lt_of_isFinite64 hb)]
  rfl

/-- A product of finite binary64 is the rounded exact product. -/
theorem mul64_of_finite {a b : F64} (ha : isFinite64 a = true) (hb : isFinite64 b = true) :
    mul64 a b =
      BitVec.ofNat 64
        (b64.pack (b64.neg a.toNat ^^ b64.neg b.toNat) (b64.round (b64.units a.toNat * b64.units b.toNat) (2 ^ b64.unit))) := by
  unfold mul64 Fmt.mul
  rw [Fmt.view_of_lt (mag_lt_of_isFinite64 ha), Fmt.view_of_lt (mag_lt_of_isFinite64 hb)]

/-- A quotient of finite binary64 by a divisor other than zero is the rounded exact quotient. -/
theorem div64_of_finite {a b : F64} (ha : isFinite64 a = true) (hb : isFinite64 b = true) (h0 : b64.units b.toNat ≠ 0) :
    div64 a b =
      BitVec.ofNat 64
        (b64.pack (b64.neg a.toNat ^^ b64.neg b.toNat) (b64.round (b64.units a.toNat * 2 ^ b64.unit) (b64.units b.toNat))) := by
  unfold div64 Fmt.div
  rw [Fmt.view_of_lt (mag_lt_of_isFinite64 ha), Fmt.view_of_lt (mag_lt_of_isFinite64 hb)]
  simp only [if_neg h0]

/-- The widening of a finite binary32. -/
theorem to64_of_finite {x : F32} (hx : isFinite x = true) :
    to64 x = BitVec.ofNat 64 (b64.pack (b32.neg x.toNat) (b64.round (b32.units x.toNat * 2 ^ 925) 1)) := by
  unfold to64
  rw [Fmt.view_of_lt (mag_lt_of_isFinite hx)]

/-- The narrowing of a finite binary64. -/
theorem rne32_of_finite {y : F64} (hy : isFinite64 y = true) :
    rne32 y = BitVec.ofNat 32 (b32.pack (b64.neg y.toNat) (b32.round (b64.units y.toNat) (2 ^ 925))) := by
  unfold rne32
  rw [Fmt.view_of_lt (mag_lt_of_isFinite64 hy)]

/-! ## Negation and absolute value -/

theorem mag32_eq (x : F32) : b32.mag x.toNat = (x.setWidth 31).toNat := by rw [BitVec.toNat_setWidth]; rfl

theorem neg32_eq_msb (x : F32) : b32.neg x.toNat = x.msb := by
  have h : x.toNat / 2 ^ 31 < 2 := Nat.div_lt_of_lt_mul x.isLt
  simp only [BitVec.msb_eq_decide, Fmt.neg]
  rw [decide_eq_decide]
  simp only [Fmt.signBit, b32]
  omega

@[simp] theorem mag_neg32 (x : F32) : b32.mag (neg32 x).toNat = b32.mag x.toNat := by
  have h : (0x80000000#32).setWidth 31 = 0#31 := by decide
  rw [mag32_eq, mag32_eq, neg32, BitVec.setWidth_xor, h, BitVec.xor_zero]

@[simp] theorem neg_neg32 (x : F32) : b32.neg (neg32 x).toNat = !b32.neg x.toNat := by
  rw [neg32_eq_msb, neg32_eq_msb, neg32, BitVec.msb_xor, show (0x80000000#32).msb = true by decide, Bool.xor_true]

@[simp] theorem mag_abs32 (x : F32) : b32.mag (abs32 x).toNat = b32.mag x.toNat := by
  have h : (0x7FFFFFFF#32).setWidth 31 = BitVec.allOnes 31 := by decide
  rw [mag32_eq, mag32_eq, abs32, BitVec.setWidth_and, h, BitVec.and_allOnes]

@[simp] theorem neg_abs32 (x : F32) : b32.neg (abs32 x).toNat = false := by
  rw [neg32_eq_msb, abs32, BitVec.msb_and, show (0x7FFFFFFF#32).msb = false by decide, Bool.and_false]

@[simp] theorem units_neg32 (x : F32) : b32.units (neg32 x).toNat = b32.units x.toNat := by
  rw [← Fmt.units_eq_units_mag, mag_neg32, Fmt.units_eq_units_mag]

@[simp] theorem units_abs32 (x : F32) : b32.units (abs32 x).toNat = b32.units x.toNat := by
  rw [← Fmt.units_eq_units_mag, mag_abs32, Fmt.units_eq_units_mag]

@[simp] theorem isFinite_neg32 (x : F32) : isFinite (neg32 x) = isFinite x := by simp [isFinite]

@[simp] theorem isFinite_abs32 (x : F32) : isFinite (abs32 x) = isFinite x := by simp [isFinite]

@[simp] theorem units32_neg32 (x : F32) : units32 (neg32 x) = -units32 x := by
  rw [units32, units32, units_neg32, neg_neg32]
  cases b32.neg x.toNat <;> simp [signedUnits]

theorem units32_abs32 (x : F32) : units32 (abs32 x) = |units32 x| := by
  rw [units32, units32, units_abs32, neg_abs32]
  cases b32.neg x.toNat <;> simp [signedUnits]

theorem mag64_eq (x : F64) : b64.mag x.toNat = (x.setWidth 63).toNat := by rw [BitVec.toNat_setWidth]; rfl

theorem neg64_eq_msb (x : F64) : b64.neg x.toNat = x.msb := by
  have h : x.toNat / 2 ^ 63 < 2 := Nat.div_lt_of_lt_mul x.isLt
  simp only [BitVec.msb_eq_decide, Fmt.neg]
  rw [decide_eq_decide]
  simp only [Fmt.signBit, b64]
  omega

@[simp] theorem mag_neg64 (x : F64) : b64.mag (neg64 x).toNat = b64.mag x.toNat := by
  have h : (0x8000000000000000#64).setWidth 63 = 0#63 := by decide
  rw [mag64_eq, mag64_eq, neg64, BitVec.setWidth_xor, h, BitVec.xor_zero]

@[simp] theorem neg_neg64 (x : F64) : b64.neg (neg64 x).toNat = !b64.neg x.toNat := by
  rw [neg64_eq_msb, neg64_eq_msb, neg64, BitVec.msb_xor, show (0x8000000000000000#64).msb = true by decide, Bool.xor_true]

@[simp] theorem units_neg64 (x : F64) : b64.units (neg64 x).toNat = b64.units x.toNat := by
  rw [← Fmt.units_eq_units_mag, mag_neg64, Fmt.units_eq_units_mag]

@[simp] theorem isFinite64_neg64 (x : F64) : isFinite64 (neg64 x) = isFinite64 x := by simp [isFinite64]

@[simp] theorem units64_neg64 (x : F64) : units64 (neg64 x) = -units64 x := by
  rw [units64, units64, units_neg64, neg_neg64]
  cases b64.neg x.toNat <;> simp [signedUnits]

/-! ## Differences and square roots -/

/-- A difference of finite binary32 is the sum with the negated operand. -/
theorem sub32_of_finite {a b : F32} (ha : isFinite a = true) (hb : isFinite b = true) : sub32 a b = add32 a (neg32 b) := by
  have hb' : isFinite (neg32 b) = true := by rwa [isFinite_neg32]
  unfold sub32 add32 Fmt.add
  rw [Fmt.view_of_lt (mag_lt_of_isFinite ha), Fmt.view_of_lt (mag_lt_of_isFinite hb')]

/-- A difference of finite binary64 is the sum with the negated operand. -/
theorem sub64_of_finite {a b : F64} (ha : isFinite64 a = true) (hb : isFinite64 b = true) : sub64 a b = add64 a (neg64 b) := by
  have hb' : isFinite64 (neg64 b) = true := by rwa [isFinite64_neg64]
  unfold sub64 add64 Fmt.add
  rw [Fmt.view_of_lt (mag_lt_of_isFinite64 ha), Fmt.view_of_lt (mag_lt_of_isFinite64 hb')]

/-- `isqrt` is the whole part of the root, with enough bits. -/
theorem isqrt_spec {bits n : Nat} (h : n < 4 ^ bits) :
    isqrt n bits * isqrt n bits ≤ n ∧ n < (isqrt n bits + 1) * (isqrt n bits + 1) := by
  induction bits generalizing n with
  | zero =>
    have : n = 0 := by simpa using h
    subst this
    simp [isqrt]
  | succ bits ih =>
    obtain ⟨h1, h2⟩ := ih (n := n / 4) (by rw [pow_succ] at h; omega)
    simp only [isqrt]
    generalize isqrt (n / 4) bits = r at h1 h2
    split
    · next hle => exact ⟨hle, by nlinarith [Nat.lt_mul_of_div_lt h2 (by norm_num : 0 < 4)]⟩
    · next hgt => exact ⟨by nlinarith [Nat.div_mul_le_self n 4], by omega⟩

end Sys2Proof.Machine
end

