-- ==== Sys2Proof/Laws/PerInstr.lean ====
section
/-! SUPPORT. Laws of every command, one lemma for each constructor: the header word is that of its row of the opcode
table (30_encoding.md R80, R81, R84). -/

namespace Sys2Proof.Laws.TableRow

/-- The mask of a row: OPC, RSV, and the header fields its class does not use. -/
def mask : OpClass → Word
  | .vm => 0xFF000FFF#32
  | .v => 0xFF00FFFF#32
  | .g => 0xFFFFFFFF#32

/-- The class and the match word of the row of a command. -/
def row : Instr → OpClass × Word
  | .nop => (.g, 0x00000000#32)
  | .mfCfg _ _ _ _ _ => (.vm, 0x01000000#32)
  | .mfRst _ _ => (.vm, 0x02000000#32)
  | .mfStep _ _ _ => (.vm, 0x03000000#32)
  | .rbSetfreq _ _ _ => (.vm, 0x10000000#32)
  | .rbSetdecay _ _ _ _ => (.vm, 0x11000000#32)
  | .rbSetamp _ _ _ => (.vm, 0x12000000#32)
  | .rbSettag _ _ _ => (.vm, 0x13000000#32)
  | .rbSetcount _ _ => (.v, 0x14000000#32)
  | .rbTune _ _ => (.v, 0x15000000#32)
  | .rbPrep _ _ => (.v, 0x16000000#32)
  | .rbRst _ => (.v, 0x17000000#32)
  | .rbStep _ _ => (.v, 0x18000000#32)
  | .engPrep _ _ => (.g, 0x20000000#32)
  | .mixSetact _ _ => (.v, 0x21000000#32)
  | .mixBlock _ _ => (.g, 0x22000000#32)
  | .mixPanic => (.g, 0x23000000#32)
  | .mixCount => (.g, 0x24000000#32)
  | .bufWrin _ _ _ => (.v, 0x30000000#32)
  | .bufRdin _ _ => (.v, 0x31000000#32)
  | .bufRdout _ _ => (.g, 0x32000000#32)
  | .rdMode _ _ _ => (.vm, 0x40000000#32)
  | .rdBank _ _ => (.v, 0x41000000#32)
  | .rdGlobal _ => (.g, 0x42000000#32)
  | .stClear => (.g, 0x43000000#32)

/-- Under the mask of its row the header of the encoded command is the match word, whatever the operands; and a command
names a voice or a slot exactly where its class uses VID or MID. -/
def Statement (i : Instr) : Prop :=
  (encode i).w0 &&& mask (row i).1 = (row i).2 ∧
    (i.voice?.isSome = true ↔ (row i).1 ≠ .g) ∧ (i.mode?.isSome = true ↔ (row i).1 = .vm)

theorem header_and_vm (o v : BitVec 8) (m : BitVec 4) : headerWord o v m &&& mask .vm = o ++ 0#8 ++ 0#4 ++ 0#12 := by
  have e : mask .vm = (0xFF#8 ++ 0x00#8 ++ 0x0#4 ++ 0xFFF#12 : BitVec 32) := by decide
  rw [e, headerWord, BitVec.and_append, BitVec.and_append, BitVec.and_append, BitVec.and_zero, BitVec.and_zero,
    BitVec.zero_and, show o &&& 0xFF#8 = o from BitVec.and_allOnes]

theorem header_and_v (o v : BitVec 8) : headerWord o v 0 &&& mask .v = o ++ 0#8 ++ 0#4 ++ 0#12 := by
  have e : mask .v = (0xFF#8 ++ 0x00#8 ++ 0xF#4 ++ 0xFFF#12 : BitVec 32) := by decide
  rw [e, headerWord, BitVec.and_append, BitVec.and_append, BitVec.and_append, BitVec.and_zero,
    show (0 : BitVec 4) &&& 0xF#4 = 0#4 by decide, BitVec.zero_and, show o &&& 0xFF#8 = o from BitVec.and_allOnes]

theorem nop : Statement (.nop) := by
  have h : headerWord 0x00 0 0 &&& 0xFFFFFFFF#32 = 0x00000000#32 := by decide
  exact ⟨h, by simp [row, Instr.voice?], by simp [row, Instr.mode?]⟩

theorem mfCfg a b c d e : Statement (.mfCfg a b c d e) := by
  exact ⟨(header_and_vm _ _ _).trans rfl, by simp [row, Instr.voice?], by simp [row, Instr.mode?]⟩

theorem mfRst a b : Statement (.mfRst a b) := by
  exact ⟨(header_and_vm _ _ _).trans rfl, by simp [row, Instr.voice?], by simp [row, Instr.mode?]⟩

theorem mfStep a b c : Statement (.mfStep a b c) := by
  exact ⟨(header_and_vm _ _ _).trans rfl, by simp [row, Instr.voice?], by simp [row, Instr.mode?]⟩

theorem rbSetfreq a b c : Statement (.rbSetfreq a b c) := by
  exact ⟨(header_and_vm _ _ _).trans rfl, by simp [row, Instr.voice?], by simp [row, Instr.mode?]⟩

theorem rbSetdecay a b c d : Statement (.rbSetdecay a b c d) := by
  exact ⟨(header_and_vm _ _ _).trans rfl, by simp [row, Instr.voice?], by simp [row, Instr.mode?]⟩

theorem rbSetamp a b c : Statement (.rbSetamp a b c) := by
  exact ⟨(header_and_vm _ _ _).trans rfl, by simp [row, Instr.voice?], by simp [row, Instr.mode?]⟩

theorem rbSettag a b c : Statement (.rbSettag a b c) := by
  exact ⟨(header_and_vm _ _ _).trans rfl, by simp [row, Instr.voice?], by simp [row, Instr.mode?]⟩

theorem rbSetcount a b : Statement (.rbSetcount a b) := by
  exact ⟨(header_and_v _ _).trans rfl, by simp [row, Instr.voice?], by simp [row, Instr.mode?]⟩

theorem rbTune a b : Statement (.rbTune a b) := by
  exact ⟨(header_and_v _ _).trans rfl, by simp [row, Instr.voice?], by simp [row, Instr.mode?]⟩

theorem rbPrep a b : Statement (.rbPrep a b) := by
  exact ⟨(header_and_v _ _).trans rfl, by simp [row, Instr.voice?], by simp [row, Instr.mode?]⟩

theorem rbRst a : Statement (.rbRst a) := by
  exact ⟨(header_and_v _ _).trans rfl, by simp [row, Instr.voice?], by simp [row, Instr.mode?]⟩

theorem rbStep a b : Statement (.rbStep a b) := by
  exact ⟨(header_and_v _ _).trans rfl, by simp [row, Instr.voice?], by simp [row, Instr.mode?]⟩

theorem engPrep a b : Statement (.engPrep a b) := by
  have h : headerWord 0x20 0 0 &&& 0xFFFFFFFF#32 = 0x20000000#32 := by decide
  exact ⟨h, by simp [row, Instr.voice?], by simp [row, Instr.mode?]⟩

theorem mixSetact a b : Statement (.mixSetact a b) := by
  exact ⟨(header_and_v _ _).trans rfl, by simp [row, Instr.voice?], by simp [row, Instr.mode?]⟩

theorem mixBlock a b : Statement (.mixBlock a b) := by
  have h : headerWord 0x22 0 0 &&& 0xFFFFFFFF#32 = 0x22000000#32 := by decide
  exact ⟨h, by simp [row, Instr.voice?], by simp [row, Instr.mode?]⟩

theorem mixPanic : Statement (.mixPanic) := by
  have h : headerWord 0x23 0 0 &&& 0xFFFFFFFF#32 = 0x23000000#32 := by decide
  exact ⟨h, by simp [row, Instr.voice?], by simp [row, Instr.mode?]⟩

theorem mixCount : Statement (.mixCount) := by
  have h : headerWord 0x24 0 0 &&& 0xFFFFFFFF#32 = 0x24000000#32 := by decide
  exact ⟨h, by simp [row, Instr.voice?], by simp [row, Instr.mode?]⟩

theorem bufWrin a b c : Statement (.bufWrin a b c) := by
  exact ⟨(header_and_v _ _).trans rfl, by simp [row, Instr.voice?], by simp [row, Instr.mode?]⟩

theorem bufRdin a b : Statement (.bufRdin a b) := by
  exact ⟨(header_and_v _ _).trans rfl, by simp [row, Instr.voice?], by simp [row, Instr.mode?]⟩

theorem bufRdout a b : Statement (.bufRdout a b) := by
  have h : headerWord 0x32 0 0 &&& 0xFFFFFFFF#32 = 0x32000000#32 := by decide
  exact ⟨h, by simp [row, Instr.voice?], by simp [row, Instr.mode?]⟩

theorem rdMode a b c : Statement (.rdMode a b c) := by
  exact ⟨(header_and_vm _ _ _).trans rfl, by simp [row, Instr.voice?], by simp [row, Instr.mode?]⟩

theorem rdBank a b : Statement (.rdBank a b) := by
  exact ⟨(header_and_v _ _).trans rfl, by simp [row, Instr.voice?], by simp [row, Instr.mode?]⟩

theorem rdGlobal a : Statement (.rdGlobal a) := by
  have h : headerWord 0x42 0 0 &&& 0xFFFFFFFF#32 = 0x42000000#32 := by decide
  exact ⟨h, by simp [row, Instr.voice?], by simp [row, Instr.mode?]⟩

theorem stClear : Statement (.stClear) := by
  have h : headerWord 0x43 0 0 &&& 0xFFFFFFFF#32 = 0x43000000#32 := by decide
  exact ⟨h, by simp [row, Instr.voice?], by simp [row, Instr.mode?]⟩

end Sys2Proof.Laws.TableRow
end

