-- ==== Sys2Proof/Tests/Slice0.lean ====
section
/-! SUPPORT. The model's own tests: the checks of WellFormed, a word of every row of the opcode table, steps with the
values of 95_test_vectors.md, and a witness for the hypotheses of every statement. -/

namespace Sys2Proof.Tests

open Sys2Proof.Machine Sys2Proof.Claims

/-! ## WellFormed: an ill-formed term for each check, refused -/

theorem test_voice_15_is_well_formed : (Instr.rbRst 15).WellFormed 16 = true := by decide
theorem test_voice_16_is_refused : (Instr.rbRst 16).WellFormed 16 = false := by decide
theorem test_mode_7_is_well_formed : (Instr.mfRst 0 7).WellFormed 16 = true := by decide
theorem test_mode_8_is_refused : (Instr.mfRst 0 8).WellFormed 16 = false := by decide
theorem test_voice_16_of_buffer_write_is_refused : (Instr.bufWrin 16 0 0).WellFormed 16 = false := by decide

/-! ## Decoding: one word of every row, written out from 30_encoding.md R80 and R84.
OPC is bits 31:24, VID bits 23:16, MID bits 15:12, RSV bits 11:0. -/

theorem test_decode_nop : decode 16 ⟨0x00000000, 0xFFFFFFFF, 0xFFFFFFFF, 0xFFFFFFFF⟩ = .ok .nop := by decide
theorem test_decode_mf_cfg : decode 16 ⟨0b00000001000000110101000000000000, 0x43DC0000, 0x447A0000, 0x473B8000⟩ =
    .ok (.mfCfg 3 5 0x43DC0000 0x447A0000 0x473B8000) := by decide
theorem test_decode_mf_rst : decode 16 ⟨0b00000010000011110111000000000000, 1, 2, 3⟩ = .ok (.mfRst 15 7) := by decide
theorem test_decode_mf_step : decode 16 ⟨0x03012000, 0x3F800000, 2, 3⟩ = .ok (.mfStep 1 2 0x3F800000) := by decide
theorem test_decode_rb_setfreq : decode 16 ⟨0x10021000, 0x43DC0000, 0, 0⟩ = .ok (.rbSetfreq 2 1 0x43DC0000) := by decide
theorem test_decode_rb_setdecay : decode 16 ⟨0x11043000, 0x447A0000, 0x473B8000, 9⟩ =
    .ok (.rbSetdecay 4 3 0x447A0000 0x473B8000) := by decide
theorem test_decode_rb_setamp : decode 16 ⟨0x12021000, 0x3A03126F, 0, 0⟩ = .ok (.rbSetamp 2 1 0x3A03126F) := by decide
theorem test_decode_rb_settag : decode 16 ⟨0x13024000, 0x00000001, 0, 0⟩ = .ok (.rbSettag 2 4 1) := by decide
theorem test_decode_rb_setcount : decode 16 ⟨0b00010100000000100000000000000000, 4, 0, 0⟩ = .ok (.rbSetcount 2 4) := by decide
theorem test_decode_rb_tune : decode 16 ⟨0x15020000, 0x435C0000, 0, 0⟩ = .ok (.rbTune 2 0x435C0000) := by decide
theorem test_decode_rb_prep : decode 16 ⟨0x16020000, 0x473B8000, 0, 0⟩ = .ok (.rbPrep 2 0x473B8000) := by decide
theorem test_decode_rb_rst : decode 16 ⟨0x170A0000, 0, 0, 0⟩ = .ok (.rbRst 10) := by decide
theorem test_decode_rb_step : decode 16 ⟨0x18020000, 0x3F800000, 0, 0⟩ = .ok (.rbStep 2 0x3F800000) := by decide
theorem test_decode_eng_prep : decode 16 ⟨0b00100000000000000000000000000000, 0x473B8000, 2, 0⟩ =
    .ok (.engPrep 0x473B8000 2) := by decide
theorem test_decode_mix_setact : decode 16 ⟨0x21010000, 1, 0, 0⟩ = .ok (.mixSetact 1 1) := by decide
theorem test_decode_mix_block : decode 16 ⟨0x22000000, 64, 2, 0⟩ = .ok (.mixBlock 64 2) := by decide
theorem test_decode_mix_panic : decode 16 ⟨0x23000000, 0, 0, 0⟩ = .ok .mixPanic := by decide
theorem test_decode_mix_count : decode 16 ⟨0x24000000, 0, 0, 0⟩ = .ok .mixCount := by decide
theorem test_decode_buf_wrin : decode 16 ⟨0b00110000000000010000000000000000, 5, 0x3F000000, 0⟩ =
    .ok (.bufWrin 1 5 0x3F000000) := by decide
theorem test_decode_buf_rdin : decode 16 ⟨0x31010000, 5, 0, 0⟩ = .ok (.bufRdin 1 5) := by decide
theorem test_decode_buf_rdout : decode 16 ⟨0x32000000, 1, 3, 0⟩ = .ok (.bufRdout 1 3) := by decide
theorem test_decode_rd_mode : decode 16 ⟨0b01000000000000100001000000000000, 7, 0, 0⟩ = .ok (.rdMode 2 1 7) := by decide
theorem test_decode_rd_bank : decode 16 ⟨0x41020000, 3, 0, 0⟩ = .ok (.rdBank 2 3) := by decide
theorem test_decode_rd_global : decode 16 ⟨0x42000000, 6, 0, 0⟩ = .ok (.rdGlobal 6) := by decide
theorem test_decode_st_clear : decode 16 ⟨0x43000000, 0, 0, 0⟩ = .ok .stClear := by decide

/-- V-SYS-3 to V-SYS-11: the rejections of the decoder, in their order. -/
theorem test_decode_rejections :
    decode 16 ⟨0x00000001, 0, 0, 0⟩ = .error .eRsv ∧ decode 16 ⟨0x05000000, 0, 0, 0⟩ = .error .eOpcode ∧
    decode 16 ⟨0xFF123456, 0, 0, 0⟩ = .error .eOpcode ∧ decode 16 ⟨0x42010000, 0, 0, 0⟩ = .error .eRsv ∧
    decode 16 ⟨0x17001000, 0, 0, 0⟩ = .error .eRsv ∧ decode 16 ⟨0x30100000, 0, 0, 0⟩ = .error .eVoice ∧
    decode 16 ⟨0x40008000, 0, 0, 0⟩ = .error .eMode ∧ decode 16 ⟨0x40F08001, 0, 0, 0⟩ = .error .eRsv ∧
    decode 16 ⟨0x40F08000, 0, 0, 0⟩ = .error .eVoice := by decide

/-- 20_memory.md R64: the bytes of a header, least significant first. -/
theorem test_word_bytes : wordBytes 0x30010000 = [0x00, 0x00, 0x01, 0x30] := by decide

theorem test_decode_table_word : decodeTableWord 32 0x12021000 = some (.rbSetamp 2 1 0) := by decide

theorem test_encode_mf_cfg : encode (.mfCfg 3 5 7 8 9) = ⟨0x01035000, 7, 8, 9⟩ := by decide

/-! ## Arithmetic -/

/-- 1 + 2^-24 is a tie and rounds to even; 1 + 2^-24 + 2^-47 does not (V-MIX-2; 40_numerics.md R101). -/
theorem test_add_tie : add32 0x3F800000 0x33800000 = 0x3F800000 ∧ add32 0x3F800000 0x33800001 = 0x3F800001 := by decide

/-- 2e38 + 2e38 overflows to +infinity (V-MIX-8). -/
theorem test_add_overflow : add32 0x7F167699 0x7F167699 = 0x7F800000 := by decide

/-- The smallest subnormal is not flushed (V-MF-6). -/
theorem test_mul_subnormal : mul32 0x3F800000 0x00000001 = 0x00000001 := by decide

/-- The coefficients of the radius and cosine of V-COEF-1: 440 Hz, 1000 ms, 48000 Hz. -/
theorem test_coefs_of_440_hz :
    coefsOf 0x3FEFFF76BF07E575 0x3FEFF26A8992C474 = ⟨0x388940F8, 0xBFFF8F0C, 0x3F7FF76C⟩ := by decide +kernel

/-- V-COEF-3 and V-COEF-10: the guard acts. -/
theorem test_coefs_of_guarded :
    coefsOf 0x3FEFFF76BF07E575 0x3FF0000000000000 = ⟨0x388940F8, 0xBFFFFBB5, 0x3F7FF76C⟩ ∧
    coefsOf (limitRadius 0x3FEFFFFFFFFFFFFF) 0x3FF0000000000000 = ⟨0x33800000, 0xBFFFFFFE, 0x3F7FFFFE⟩ := by decide +kernel

/-! ## Steps on small states -/

/-- The identity slot of V-COEF-9. -/
def identitySlot : Slot :=
  { Slot.reset with decay := 0x3F800000, sr := 0x3F800000, b0 := 0x3F800000, a1 := 0x80000000, a2 := 0x00000000 }

/-- The slot of V-COEF-1. -/
def slot440 : Slot :=
  { Slot.reset with freq := 0x43DC0000, sr := 0x473B8000, b0 := 0x388940F8, a1 := 0xBFFF8F0C, a2 := 0x3F7FF76C }

/-- A bank of eight equal slots with a count in force. -/
def bankOf (sl : Slot) (n : Fin 9) : Bank := ⟨Vector.replicate 8 sl, n, n, normTable n, 0⟩

/-- A state with two banks, the first of `n` active slots. -/
def demo (sl : Slot) (n : Fin 9) : State :=
  { State.resetWith { Config.params with voiceOrder := [0, 1] } 2 with banks := [bankOf sl n, bankOf identitySlot 1] }

/-- The response of one command, and a word read from the state after it. -/
def answer (s : State) (i : Instr) (f : State → Option Word) : Option (Nat × Word × Option Word) :=
  match exec i s with
  | .next t => t.responses.getLast?.map fun r => ((Code.byte r.status).toNat, r.result, f t)
  | .fault _ => none
  | .refused _ => none

/-- A slot's field after a command. -/
def slotField (v m sel : Nat) (t : State) : Option Word := (t.slot? v m).bind fun sl => sl.field? sel

/-- A global field after a command. -/
def globalField (sel : Nat) (t : State) : Option Word := t.globalField? sel

theorem test_nop : answer State.reset .nop (globalField 0) = some (0, 0, some 0) := by decide

/-- V-SYS-21: the decay is clamped. -/
theorem test_mf_cfg_clamps_decay :
    answer (demo Slot.reset 0) (.mfCfg 0 1 0x447A0000 0xC0A00000 0x473B8000) (slotField 0 1 1) =
      some (0, 0, some 0x3F800000) := by decide

/-- V-MF-9: a zero rate is refused, and changes nothing but the status. -/
theorem test_mf_cfg_refuses_zero_rate :
    answer State.reset (.mfCfg 0 0 0x43DC0000 0x447A0000 0) (slotField 0 0 0) = some (5, 0, some 0) := by decide

/-- V-MF-1, n = 0: output, S1. -/
theorem test_mf_step_impulse :
    answer (demo slot440 1) (.mfStep 0 0 0x3F800000) (slotField 0 0 7) = some (0, 0x388940F8, some 0x39090469) := by
  decide +kernel

/-- V-MF-1, n = 1: output, S2. -/
theorem test_mf_step_second :
    answer (demo { slot440 with s1 := 0x39090469, s2 := 0xB8893C5F } 1) (.mfStep 0 0 0) (slotField 0 0 8) =
      some (0, 0x39090469, some 0xB908FFD2) := by decide +kernel

/-- V-MF-8. -/
theorem test_mf_rst :
    answer (demo { slot440 with s1 := 1, s2 := 2 } 1) (.mfRst 0 0) (slotField 0 0 8) = some (0, 0, some 0) := by decide

/-- V-COEF-16: a slot with no rate keeps its coefficients. -/
theorem test_rb_setfreq_no_rate :
    answer State.reset (.rbSetfreq 0 0 0x43DC0000) (slotField 0 0 4) = some (0, 0, some 0) := by decide

theorem test_rb_setdecay :
    answer State.reset (.rbSetdecay 0 0 0x447A0000 0x473B8000) (slotField 0 0 2) = some (0, 0, some 0x473B8000) := by decide

theorem test_rb_setamp : answer State.reset (.rbSetamp 2 1 0x3A03126F) (slotField 2 1 3) =
    some (0, 0, some 0x3A03126F) := by decide

/-- V-SYS-17, and the tag that is stored. -/
theorem test_rb_settag : answer State.reset (.rbSettag 0 0 2) (slotField 0 0 9) = some (5, 0, some 0) ∧
    answer State.reset (.rbSettag 0 0 1) (slotField 0 0 9) = some (0, 0, some 1) := by decide

/-- V-SYS-18 and V-BANK-9. -/
theorem test_rb_setcount :
    answer State.reset (.rbSetcount 0 9) (globalField 0) = some (6, 0, some 0x00000601) ∧
    answer (demo identitySlot 8) (.rbSetcount 0 4) (fun t => (t.bank? 0).bind fun b => b.field? 1) =
      some (0, 0, some 8) := by decide

/-- V-COEF-16: 220 Hz, harmonic: slot 2 gets 660 Hz. -/
theorem test_rb_tune : answer State.reset (.rbTune 0 0x435C0000) (slotField 0 2 0) =
    some (0, 0, some 0x44250000) := by decide +kernel

theorem test_rb_prep : answer State.reset (.rbPrep 0 0x473B8000) (fun t => (t.bank? 0).bind fun b => b.field? 2) =
    some (0, 0, some 0x3EB504F3) := by decide

theorem test_rb_rst : answer (demo { slot440 with s1 := 1, s2 := 2 } 1) (.rbRst 0) (slotField 0 7 7) =
    some (0, 0, some 0) := by decide +kernel

/-- V-BANK-1: four identity slots. -/
theorem test_rb_step_sum : answer (demo identitySlot 4) (.rbStep 0 0x3F800000) (slotField 0 0 7) =
    some (0, 0x40000000, some 0) := by decide +kernel

/-- V-BANK-2b: one ulp below the threshold is skipped. -/
theorem test_rb_step_skip :
    answer (demo { identitySlot with amp := 0x3A83126E } 1) (.rbStep 0 0x3F800000) (slotField 0 0 7) =
      some (0, 0, some 0) := by decide +kernel

/-- V-MIX-4. -/
theorem test_eng_prep : answer State.reset (.engPrep 0x473B8000 64) (globalField 3) = some (0, 1, some 64) ∧
    answer State.reset (.engPrep 0x80000000 64) (globalField 3) = some (5, 0, some 0) := by decide

/-- V-MIX-7. -/
theorem test_mix_setact : answer State.reset (.mixSetact 3 1) (globalField 1) = some (0, 0, some 0x00000008) := by decide

/-- A block of one sample over two identity voices (as V-MIX-1). -/
def blockDemo : State :=
  { demo identitySlot 4 with active := 3, maxBlk := 2, inBuf := ⟨[(0, 0x3F800000), (1024, 0x3E800000)]⟩ }

/-- 4 * 1.0 * 0.5 + 0.25 on both channels. -/
theorem test_mix_block :
    answer blockDemo (.mixBlock 1 2) (fun t => some (t.outBuf.read 0)) = some (0, 0, some 0x40100000) ∧
    answer blockDemo (.mixBlock 1 2) (fun t => some (t.outBuf.read 1024)) = some (0, 0, some 0x40100000) := by
  decide +kernel

/-- V-MIX-3. -/
theorem test_mix_block_checks : answer State.reset (.mixBlock 64 2) (globalField 0) = some (7, 0, some 0x00000701) ∧
    answer State.reset (.mixBlock 0 1) (globalField 0) = some (0, 0, some 0) ∧
    answer State.reset (.mixBlock 0 0) (globalField 0) = some (7, 0, some 0x00000701) := by decide

theorem test_mix_panic : answer blockDemo .mixPanic (globalField 2) = some (0, 0, some 0) := by decide

theorem test_mix_count : answer blockDemo .mixCount (globalField 1) = some (0, 2, some 3) := by decide

/-- V-BUF-1, V-BUF-6 and V-BUF-7. -/
theorem test_buf_wrin :
    answer State.reset (.bufWrin 1 5 0x3F000000) (fun t => some (t.inBuf.read 1029)) = some (0, 0, some 0x3F000000) ∧
    answer State.reset (.bufWrin 0 0 0x7FC00000) (globalField 0) = some (5, 0, some 0x00000501) ∧
    answer State.reset (.bufWrin 0 2000 0x7FC00000) (globalField 0) = some (8, 0, some 0x00000801) := by decide

/-- V-BUF-3, and a stored word. -/
theorem test_buf_rdin : answer State.reset (.bufRdin 1 1024) (globalField 0) = some (8, 0, some 0x00000801) ∧
    answer blockDemo (.bufRdin 1 0) (globalField 0) = some (0, 0x3E800000, some 0) := by decide

/-- V-BUF-4 and V-BUF-5. -/
theorem test_buf_rdout : answer State.reset (.bufRdout 2 0) (globalField 0) = some (8, 0, some 0x00000801) ∧
    answer State.reset (.bufRdout 0 1024) (globalField 0) = some (8, 0, some 0x00000801) := by decide

/-- V-SYS-15, and the reset decay. -/
theorem test_rd_mode : answer State.reset (.rdMode 0 0 10) (globalField 0) = some (5, 0, some 0x00000501) ∧
    answer State.reset (.rdMode 15 7 1) (globalField 0) = some (0, 0x447A0000, some 0) := by decide

/-- V-SYS-16, and the reset count. -/
theorem test_rd_bank : answer State.reset (.rdBank 0 4) (globalField 0) = some (5, 0, some 0x00000501) ∧
    answer State.reset (.rdBank 0 0) (globalField 0) = some (0, 8, some 0) := by decide

/-- V-SYS-12, V-SYS-13 and V-SYS-14. -/
theorem test_rd_global : answer State.reset (.rdGlobal 5) (globalField 0) = some (0, 0x4D524231, some 0) ∧
    answer State.reset (.rdGlobal 6) (globalField 0) = some (0, 0x04002810, some 0) ∧
    answer State.reset (.rdGlobal 7) (globalField 0) = some (5, 0, some 0x00000501) := by decide

/-- V-SYS-20. -/
theorem test_st_clear : answer { State.reset with status := ⟨true, true, 6⟩ } .stClear (globalField 0) =
    some (0, 0, some 0) := by decide

/-- The first command after reset runs as its row's. -/
theorem test_with_fetch_word : step (State.reset.withFetchWord 32 0x24000000) = exec .mixCount State.reset := by rfl

/-! ## Witnesses: concrete states and operands that meet the hypotheses of each statement, clause by clause -/

/-- A next state that passes a check. -/
theorem next_of_check {i : Instr} {s : State} (p : State → Bool)
    (h : (match exec i s with
      | .next t => p t
      | .fault _ => false
      | .refused _ => false) = true) : ∃ t, exec i s = .next t ∧ p t = true := by
  cases he : exec i s with
  | next t => exact ⟨t, rfl, by rw [he] at h; exact h⟩
  | fault r => rw [he] at h; cases h
  | refused r => rw [he] at h; cases h

/-- A state with one command pending from the audio agent. -/
def waiting (c : Command) : State := { State.reset with pending := [⟨.audio, c⟩] }

theorem witness_DecodeOfEncodeIsTheCommand :
    (Instr.mfCfg 15 7 0x7F800000 0 1).WellFormed 16 = true ∧ Instr.stClear.WellFormed 0 = true := by decide

theorem witness_DecodedCommandEncodesBack :
    decode 16 ⟨0x030F7000, 1, 2, 3⟩ = .ok (.mfStep 15 7 1) ∧ decode 16 ⟨0, 1, 2, 3⟩ = .ok .nop := by decide

/-- The last byte of the last word of a command and of a response; the longest partial command. -/
theorem witness_ByteStreamDeliversWholeCommands :
    (3 < 4 ∧ [(1 : Word), 2, 3, 4][3]? = some 4) ∧
    [(Response.mk .wNf 0x7F800000).r0, (Response.mk .wNf 0x7F800000).r1][1]? = some 0x7F800000 ∧
    (List.replicate 15 (0xFF : Byte)).length < 16 := by decide

/-- The bytes of MF.CFG v0, m0, 440.0, 1000.0, 48000.0 (30_encoding.md R92), and of the response of V-SYS-1's form. -/
theorem test_bytes_of_a_command_and_a_response :
    (Command.mk 0x01000000 0x43DC0000 0x447A0000 0x473B8000).toBytes =
      [0x00, 0x00, 0x00, 0x01, 0x00, 0x00, 0xDC, 0x43, 0x00, 0x00, 0x7A, 0x44, 0x00, 0x80, 0x3B, 0x47] ∧
    (Response.mk .wNf 0x7F800000).toBytes = [0x09, 0, 0, 0, 0x00, 0x00, 0x80, 0x7F] := by decide

theorem witness_StepRunsTheNextCommand :
    (waiting ⟨0x170F0000, 0, 0, 0⟩).pending = ⟨.audio, ⟨0x170F0000, 0, 0, 0⟩⟩ :: [] ∧
    decode (waiting ⟨0x170F0000, 0, 0, 0⟩).nVoices ⟨0x170F0000, 0, 0, 0⟩ = .ok (.rbRst 15) := by decide

theorem witness_StepRejectsOrIdles :
    ((waiting ⟨0x17100000, 0, 0, 0⟩).pending = ⟨.audio, ⟨0x17100000, 0, 0, 0⟩⟩ :: [] ∧
      decode (waiting ⟨0x17100000, 0, 0, 0⟩).nVoices ⟨0x17100000, 0, 0, 0⟩ = .error .eVoice) ∧
    State.reset.pending = [] := by decide

theorem reset_bank (v : Nat) (b : Bank) (h : State.reset.bank? v = some b) : b = Bank.reset := by
  simp only [State.bank?, State.reset, State.resetWith, List.getElem?_replicate] at h
  split at h <;> simp_all

theorem reset_slot (v m : Nat) (sl : Slot) (h : State.reset.slot? v m = some sl) : sl = Slot.reset := by
  obtain ⟨b, hb, hs⟩ := State.slot?_eq_some.1 h
  rw [reset_bank v b hb] at hs
  simp only [Bank.reset, Vector.getElem?_replicate] at hs
  split at hs <;> simp_all

theorem default_params_legal : ParamsLegal Config.params Config.nVoices :=
  ⟨by decide, by decide, by decide, by decide, by decide, by decide, .inl rfl, List.Perm.refl _⟩

theorem waiting_wellFormed (c : Command) : (waiting c).WellFormed := by
  have hstable : Slot.Stable Slot.reset := ⟨by decide, by decide, by decide, by decide, by decide⟩
  have hslot : Slot.Wf Config.params Slot.reset :=
    ⟨by decide, ⟨by decide, by decide⟩, .inl (by decide), by decide, by decide, hstable⟩
  refine ⟨{ params := default_params_legal, banks := ?_, active := (by decide : State.reset.activeWord = State.reset.active)
            maxBlk := Nat.zero_le _, inWf := Memory.wf_empty, inExtent := (fun _ h => by cases h), inFinite := ?_
            outWf := Memory.wf_empty, outExtent := (fun _ h => by cases h) }, ?_⟩
  · intro v b h
    rw [reset_bank v b h]
    refine ⟨by decide, by decide, fun m sl hm => ?_⟩
    simp only [Bank.reset, Vector.getElem?_replicate] at hm
    split at hm <;> cases hm
    exact hslot
  · intro a
    show isFinite unlistedWord = true
    decide
  · intro v m sl h
    rw [reset_slot v m sl h]
    exact ⟨by decide, by decide⟩

/-- A well-formed state with a command pending, the step it takes, which reports OK; the run of one command from reset, with
the longest minimum decay that reset satisfies. -/
theorem witness_EveryStepKeepsInv :
    ((waiting ⟨0x23000000, 0, 0, 0⟩).Inv ∧ (waiting ⟨0x23000000, 0, 0, 0⟩).WellFormed ∧
      ∃ t, step (waiting ⟨0x23000000, 0, 0, 0⟩) = .next t ∧
        ∀ c r, Answers (waiting ⟨0x23000000, 0, 0, 0⟩) t c r → c ≠ .wNf) ∧
    ParamsLegal Config.params 16 ∧ le32 Config.params.t60MinMs 0x447A0000 = true ∧
    ∃ s, State.ReachedFromReset Config.params 16 [⟨.audio, ⟨0x23000000, 0, 0, 0⟩⟩] s ∧ s.runFaulted = false := by
  have hwf := waiting_wellFormed ⟨0x23000000, 0, 0, 0⟩
  refine ⟨⟨⟨hwf.config, by decide, fun _ => hwf.samples⟩, hwf, _, rfl, ?_⟩, default_params_legal, by decide, _, rfl, by decide⟩
  intro c r h
  have h : [(⟨.ok, 0⟩ : Response)] = [⟨c, r⟩] := h
  cases h
  decide

theorem witness_ResetIsWellFormed :
    ParamsLegal State.reset.params State.reset.nVoices ∧ le32 State.reset.params.t60MinMs 0x447A0000 = true :=
  ⟨default_params_legal, by decide⟩

/-- A state whose S1 is infinite, as NF leaves it. -/
theorem witness_NopAndStClear : ¬ (demo { identitySlot with s1 := 0x7F800000 } 1).SamplesFinite := fun h =>
  absurd (h 0 0 { identitySlot with s1 := 0x7F800000 } (by decide)).1 (by decide)

/-! ## The launch premises -/

/-- One voice of two slots, and the events after its configuration. -/
def smallPlan (events : List HostEvent) : BootPlan :=
  ⟨0x473B8000, 64, [⟨3, [⟨0, some 0, .setFreq 1, 0x447A0000, 5⟩, ⟨1, some 1, .cfg 2 3, 0x447A0000, 6⟩], none, some 2⟩],
    events⟩

/-- The steps of the boot sequence in the order of R253: one voice of two slots, one note, one block of one sample. -/
theorem test_boot_sequence :
    (smallPlan [.note 3, .block [(3, [0x3F800000])] 1 2]).commands =
    [.engPrep 0x473B8000 64, .rbSettag 3 0 0, .rbSettag 3 1 1, .rbSetfreq 3 0 1, .mfCfg 3 1 2 3 0x473B8000,
      .rbSetdecay 3 0 0x447A0000 0x473B8000, .rbSetamp 3 0 5, .rbSetdecay 3 1 0x447A0000 0x473B8000, .rbSetamp 3 1 6,
      .rbSetcount 3 2, .rbPrep 3 0x473B8000, .rbRst 3, .mixSetact 3 1, .bufWrin 3 0 0x3F800000, .mixBlock 1 2,
      .bufRdout 0 0, .bufRdout 1 0] := by decide

/-- That plan leaves nothing out. A plan is not complete with no row for an active voice, a row of too few samples, a row for an Idle
voice, a note on a voice that is not configured, or a slot in use that is not configured. -/
theorem test_complete_plans :
    (smallPlan [.note 3, .block [(3, [0x3F800000])] 1 2]).complete = true ∧
    (smallPlan [.note 3, .block [] 1 2]).complete = false ∧
    (smallPlan [.note 3, .block [(3, [0x3F800000])] 2 2]).complete = false ∧
    (smallPlan [.block [(3, [0x3F800000])] 1 2]).complete = false ∧
    (smallPlan [.note 4]).complete = false ∧
    (BootPlan.mk 0 1 [⟨3, [⟨0, some 0, .setFreq 1, 2, 5⟩], none, some 2⟩] []).complete = false := by decide

/-- A boot with no voice configured and one empty block: its plan is complete and each of its commands accepted. -/
theorem test_booted : ∃ s, State.Booted Config.params 16 ⟨0x473B8000, 64, [], [.block [] 0 2]⟩ s := by
  refine ⟨_, by decide, ⟨[⟨.control, encode (.engPrep 0x473B8000 64)⟩, ⟨.audio, encode (.mixBlock 0 2)⟩], by decide, rfl⟩, ?_⟩
  intro r hr
  change r ∈ [(⟨.ok, 1⟩ : Response), ⟨.ok, 0⟩] at hr
  simp only [List.mem_cons, List.not_mem_nil, or_false] at hr
  rcases hr with rfl | rfl <;> exact .inl rfl

/-- One active voice, blocks of up to two samples, nothing written yet. -/
def unwritten : State := { demo identitySlot 1 with active := 1, maxBlk := 2 }

/-- BUF.WRIN v0, 0, 1.0. -/
def oneWrite : List Issued := [⟨.control, encode (.bufWrin 0 0 0x3F800000)⟩]

/-- The state after the write, which holds the sample, is ready for a block of one sample. -/
theorem test_block_entry :
    State.BlockEntry unwritten oneWrite
      { unwritten with inBuf := ⟨[(0, 0x3F800000)]⟩, responses := [⟨.ok, 0⟩] } 1 2 := by
  refine ⟨by decide, by decide, rfl, fun v n hv hn => ⟨_, List.mem_singleton_self _, 0, 0, 0x3F800000, by decide, ?_, ?_,
    ?_, by decide⟩⟩
  · by_contra h
    change unwritten.isActive v = true at hv
    have h0 : unwritten.activeWord = 1#32 := by decide
    rw [State.isActive, h0, BitVec.getLsbD_one] at hv
    simp only [Bool.and_eq_true, decide_eq_true_eq] at hv
    exact h hv.2.symm
  all_goals
    have h0 : n = 0 := Nat.lt_one_iff.1 hn
    subst h0
    decide

/-- A state whose IN does not hold what the commands wrote is not ready after them, nor is one after no command at all. -/
theorem test_no_block_entry :
    ¬ State.BlockEntry unwritten oneWrite { unwritten with responses := [⟨.ok, 0⟩] } 1 2 ∧
    ¬ State.BlockEntry unwritten [] unwritten 1 2 := by
  refine ⟨fun h => ?_, fun h => ?_⟩
  · have hs := Host.Outcome.next.inj (h.rows.reached : Host.Outcome.next (σ := State)
      { unwritten with inBuf := ⟨[(0, 0x3F800000)]⟩, responses := [⟨.ok, 0⟩] } = _)
    exact absurd (congrArg State.inBuf hs) (by decide)
  · obtain ⟨c, hc, -⟩ := h.rows.written 0 0 (by decide) (by decide)
    cases hc

theorem witness_NoCommandChangesAParameter : ∃ t, exec (.engPrep 0x473B8000 64) State.reset = .next t := ⟨_, rfl⟩

theorem witness_RejectionIsPrecise :
    (∃ t, runCommand ⟨0x14000000, 9, 0, 0⟩ State.reset = .next t ∧ Answers State.reset t .eCount 0 ∧
      Code.eCount ≠ .ok ∧ Code.eCount ≠ .wNf) ∧
    ∃ t, runCommand ⟨0x44000000, 0, 0, 0⟩ State.reset = .next t ∧ Answers State.reset t .eOpcode 0 :=
  ⟨⟨_, rfl, rfl, by decide, by decide⟩, _, rfl, rfl⟩

/-- A slot whose next step overflows. -/
def nearOverflow : Slot := { identitySlot with s1 := 0x7F7FFFFF }

/-- One hypothesis for each end: a command that raises NF, and one that does not. -/
theorem witness_OnlyStepsRaiseNf :
    (∃ t, exec (.mfStep 0 0 0x7F7FFFFF) (demo nearOverflow 1) = .next t ∧
      Answers (demo nearOverflow 1) t .wNf 0x7F800000 ∧ t.status.nf = true) ∧
    ∃ t, exec .nop State.reset = .next t ∧ Answers State.reset t .ok 0 := by
  refine ⟨?_, _, rfl, rfl⟩
  obtain ⟨t, ht, h⟩ := next_of_check (i := .mfStep 0 0 0x7F7FFFFF) (s := demo nearOverflow 1)
    (fun t => decide (t.responses = [⟨.wNf, 0x7F800000⟩]) && t.status.nf) (by decide +kernel)
  simp only [Bool.and_eq_true, decide_eq_true_eq] at h
  exact ⟨t, ht, h.1, h.2⟩

theorem witness_OnlyStClearClearsStatus :
    ∃ t, exec .nop { State.reset with status := ⟨true, true, 6⟩ } = .next t ∧ Instr.nop ≠ .stClear := ⟨_, rfl, by decide⟩

theorem witness_AgentIsNotSeen :
    [(⟨.control, ⟨0, 0, 0, 0⟩⟩ : Issued)].map (fun c => c.cmd) =
      (waiting ⟨0, 0, 0, 0⟩).pending.map (fun c => c.cmd) ∧ ∃ t, step (waiting ⟨0, 0, 0, 0⟩) = .next t := ⟨rfl, _, rfl⟩

/-- Voice 15 after a command for voice 14, with the last element of its row; and after a command of no voice. -/
theorem witness_VoicesAreIsolated :
    (∃ t, exec (.bufWrin 14 1023 0x3F800000) State.reset = .next t ∧
      (∀ w, (Instr.bufWrin 14 1023 0x3F800000).voice? = some w → w.toNat ≠ 15) ∧
      (∀ ns nc, Instr.bufWrin 14 1023 0x3F800000 ≠ .mixBlock ns nc) ∧
      (∀ sr n, Instr.bufWrin 14 1023 0x3F800000 ≠ .engPrep sr n) ∧
      State.reset.inBuf.wf ∧ 1023 < State.reset.params.maxBlockCap ∧ 15 < 32) ∧
    ∃ t, exec .mixPanic blockDemo = .next t ∧ ∀ w, Instr.mixPanic.voice? = some w → w.toNat ≠ 0 := by
  refine ⟨⟨_, rfl, ?_, by simp, by simp, Memory.wf_empty, by decide, by decide⟩, _, rfl, by simp [Instr.voice?]⟩
  intro w h
  cases h
  decide

theorem witness_FieldsChangeOnlyThroughTheirCommands :
    ∃ t, exec (.rbSetamp 0 0 0) State.reset = .next t ∧ State.reset.bank? 0 = some Bank.reset ∧
      State.reset.slot? 0 0 = some Slot.reset := ⟨_, rfl, rfl, rfl⟩

theorem witness_RejectionDependsOnWordsAndMaxblk :
    (∀ v f, Instr.mixBlock 3 1 ≠ .rbTune v f) ∧ blockDemo.params = (demo slot440 0).params ∧
    blockDemo.nVoices = (demo slot440 0).nVoices ∧ blockDemo.maxBlk = { demo slot440 0 with maxBlk := 2 }.maxBlk ∧
    Code.eBlock ≠ .ok ∧ Code.eBlock ≠ .wNf := by
  refine ⟨by simp, by decide, by decide, by decide, by decide, by decide⟩

theorem witness_StateSamplesStayFlushed :
    ratePositive (waiting ⟨0x170F0000, 0, 0, 0⟩).params.epsFlush = true ∧
    (∀ v m sl, (waiting ⟨0x170F0000, 0, 0, 0⟩).slot? v m = some sl → sl.s1 = 0x00000000 ∧ sl.s2 = 0x00000000) ∧
    ∃ t, step (waiting ⟨0x170F0000, 0, 0, 0⟩) = .next t :=
  ⟨by decide, fun v m sl h => by rw [reset_slot v m sl h]; decide, _, rfl⟩

/-- The largest finite value and the smallest negative one; a NaN. -/
theorem witness_ComparisonIsOfExactValues :
    isFinite 0x7F7FFFFF = true ∧ isFinite 0xFF7FFFFF = true ∧ b32.infMag < b32.mag (0x7F800001#32).toNat := by decide

/-- Both formats, a value at the threshold of overflow, and one below it. -/
theorem witness_RoundIsNearestTiesToEven :
    (0 < 1 ∧ b32.round ((2 ^ 25 - 1) * 2 ^ 252) 1 = b32.infMag ∧ b32.round ((2 ^ 25 - 1) * 2 ^ 252 - 1) 1 < b32.infMag) ∧
    b64.round 3 2 < b64.infMag := by decide +kernel

theorem witness_ExactResultsAreKept :
    (isFinite 0x3F800000 = true ∧ isFinite 0x80000001 = true ∧ isFinite 0x00000001 = true ∧
      units32 0x00000001 ≠ 0 ∧ units32 0x00000002 + units32 0x80000001 = units32 0x00000001) ∧
    (isFinite 0x80000000 = true ∧ units32 0x80000000 + units32 0x80000000 = 0) ∧
    units32 0x40000000 * units32 0x3F000000 = units32 0x3F800000 * 2 ^ 149 ∧
    (isFinite64 0xFFEFFFFFFFFFFFFF = true ∧ isFinite64 0x0000000000000001 = true ∧ 0 < units64 0x0000000000000001) ∧
    (units64 0x3FF0000000000000 + units64 0xBFF0000000000000 = 0 ∧ units64 0x8000000000000000 = 0) := by decide +kernel

/-- Inside the bound, and exactly at it: 1 + a2 with a2 = 0 and with a2 just below 1. -/
theorem witness_JuryGuardIsStrict :
    (isFinite 0x3F7FFFFF = true ∧ 0 ≤ units32 0x3F7FFFFF ∧ units32 0x3F7FFFFF < 2 ^ 149 ∧
      |units32 0x3F800000| < 2 ^ 149 + units32 0x3F7FFFFF) ∧
    (isFinite 0xBF800000 = true ∧ isFinite 0x00000000 = true ∧ 2 ^ 149 + units32 0x00000000 ≤ |units32 0xBF800000|) ∧
    isFinite 0x3F7FFFFE = true ∧ units32 0x3F7FFFFE < 2 ^ 149 := by decide +kernel

theorem witness_ResetLeavesTheResetValues :
    (15 < 16 ∧ 7 < 8 ∧ (15 : BitVec 8).toNat < 16 ∧ isFinite 0x7F7FFFFF = true) ∧ 0 < (1 : Word).toNat := by decide

/-- The largest value below 1.0, and 1.0. -/
theorem witness_DecayBelowTheMinimumStoresAsIt :
    isFinite 0x3F7FFFFF = true ∧ units32 0x3F7FFFFF < 2 ^ 149 ∧ isFinite 0x3F800000 = true ∧
    2 ^ 149 ≤ units32 0x3F800000 := by decide +kernel

/-- One below EPS_FLUSH, EPS_FLUSH itself, and an infinity. -/
theorem witness_FlushZeroesSmallValuesOnly :
    (isFinite 0x26901D7D = true ∧ 0 < units32 0x26901D7D) ∧
    (isFinite 0xA6901D7C = true ∧ |units32 0xA6901D7C| < units32 0x26901D7D) ∧
    (isFinite 0xA6901D7D = true ∧ units32 0x26901D7D ≤ |units32 0xA6901D7D|) ∧ isFinite 0xFF800000 = false := by
  decide +kernel

/-- The most negative finite argument, and both zeros. -/
theorem witness_ConfigurationFunctionsKeepTheirBounds :
    (isFinite64 0xFFEFFFFFFFFFFFFF = true ∧ le64 0xFFEFFFFFFFFFFFFF zero64 = true) ∧
    (isFinite64 0x8000000000000000 = true ∧ le64 0x8000000000000000 zero64 = true ∧
      le64 zero64 0x8000000000000000 = true) := by decide +kernel

/-- The shortest decay, the lowest rate, the largest frequency, both values of DECAY_K. -/
theorem witness_CoefficientsAreStable :
    (Config.kT60 = Config.pi64 ∨ Config.kT60 = Config.kT60) ∧ isFinite 0x7F7FFFFF = true ∧ isFinite 0x3F800000 = true ∧
    2 ^ 149 ≤ units32 0x3F800000 ∧ isFinite 0x00000001 = true ∧ 0 < units32 0x00000001 :=
  ⟨.inr rfl, by decide, by decide, by decide +kernel, by decide, by decide +kernel⟩

theorem witness_TablesAreTheirFormulas : (8 : Fin 9) ≠ 0 ∧ 1 ≤ 1 ∧ 7 < 8 := by decide

theorem witness_IdentitySlotReturnsItsInput :
    isFinite Config.params.epsFlush = true ∧ 0 < units32 Config.params.epsFlush ∧ identitySlot.b0 = 0x3F800000 ∧
    identitySlot.a1 = 0x80000000 ∧ identitySlot.a2 = 0x00000000 ∧ identitySlot.s1 = 0x00000000 ∧
    identitySlot.s2 = 0x00000000 ∧ isFinite 0x80000000 = true ∧ isFinite 0x7F7FFFFF = true := by decide +kernel

/-- The last slot of the last voice, a negative frequency, a negative decay, the smallest rate. Also the hypotheses of
ConfiguringTwiceIsConfiguringOnce, RbSetfreqSetsOneFrequency and RbSetdecaySetsDecayAndRate. -/
theorem witness_MfCfgConfiguresOneSlot :
    State.reset.slot? (15 : BitVec 8).toNat (7 : BitVec 4).toNat = some Slot.reset ∧ isFinite 0xC3DC0000 = true ∧
    isFinite 0xC0A00000 = true ∧ isFinite 0x00000001 = true ∧ 0 < units32 0x00000001 := by decide +kernel

theorem witness_MfRstZeroesTheStateOfOneSlot :
    State.reset.slot? (15 : BitVec 8).toNat (7 : BitVec 4).toNat = some Slot.reset := by decide

/-- Both ends: a step that raises NF and one that does not. -/
theorem witness_MfStepRunsTheRecurrence :
    (demo nearOverflow 1).slot? (0 : BitVec 8).toNat (0 : BitVec 4).toNat = some nearOverflow ∧ isFinite 0x7F7FFFFF = true ∧
    StepRaises Config.params nearOverflow 0x7F7FFFFF ∧ ¬ StepRaises Config.params identitySlot 0x3F800000 := by
  refine ⟨by decide, by decide, ?_, ?_⟩
  · intro h
    exact absurd h.1 (by decide +kernel)
  · unfold StepRaises
    decide +kernel

theorem witness_ConfiguringTwiceIsConfiguringOnce :
    State.reset.slot? (15 : BitVec 8).toNat (7 : BitVec 4).toNat = some Slot.reset ∧ isFinite 0x43DC0000 = true ∧
    isFinite 0x447A0000 = true ∧ isFinite 0x473B8000 = true ∧ 0 < units32 0x473B8000 := by decide +kernel

theorem witness_RbSetfreqSetsOneFrequency :
    State.reset.slot? (15 : BitVec 8).toNat (7 : BitVec 4).toNat = some Slot.reset ∧ isFinite 0xFF7FFFFF = true := by
  decide

theorem witness_RbSetdecaySetsDecayAndRate :
    State.reset.slot? (0 : BitVec 8).toNat (0 : BitVec 4).toNat = some Slot.reset ∧ isFinite 0x80000000 = true ∧
    isFinite 0x7F7FFFFF = true ∧ 0 < units32 0x7F7FFFFF := by decide +kernel

theorem witness_RbSetampAndSettagSetOneField :
    State.reset.slot? (15 : BitVec 8).toNat (7 : BitVec 4).toNat = some Slot.reset ∧ isFinite 0x7F7FFFFF = true ∧
    (1 : Word).toNat ≤ 1 := by decide

theorem witness_RbSetcountSetsThePendingCountOnly :
    State.reset.bank? (15 : BitVec 8).toNat = some Bank.reset ∧ (8 : Word).toNat = (8 : Fin 9).val ∧
    (0 : Word).toNat = (0 : Fin 9).val := by decide

theorem witness_PendingCountDoesNotChangeAStep :
    (∃ t, exec (.rbSetcount 0 4) (demo identitySlot 8) = .next t) ∧
    ∃ u, exec (.rbStep 0 0x3F800000) (demo identitySlot 8) = .next u ∧
      u.responses = (demo identitySlot 8).responses ++ [⟨.ok, 0x403504F3⟩] := by
  refine ⟨⟨_, rfl⟩, ?_⟩
  obtain ⟨t, ht, h⟩ := next_of_check (i := .rbStep 0 0x3F800000) (s := demo identitySlot 8)
    (fun t => decide (t.responses = [⟨.ok, 0x403504F3⟩])) (by decide +kernel)
  exact ⟨t, ht, of_decide_eq_true h⟩

theorem witness_RbTuneTunesAllSlots :
    State.reset.bank? (15 : BitVec 8).toNat = some Bank.reset ∧ isFinite 0x435C0000 = true ∧
    ∀ m sl, Bank.reset.slots[m]? = some sl → isFinite (partialOf Bank.reset m sl 0x435C0000) = true := by
  refine ⟨by decide, by decide, fun m sl h => ?_⟩
  have hm : m < 8 := (Vector.getElem?_eq_some_iff.1 h).1
  have hsl : sl = Slot.reset := by
    simp only [Bank.reset, Vector.getElem?_replicate] at h
    split at h <;> simp_all
  subst hsl
  interval_cases m <;> decide +kernel

theorem witness_RbPrepPreparesOneBank :
    State.reset.bank? (15 : BitVec 8).toNat = some Bank.reset ∧ isFinite 0x00000001 = true ∧ 0 < units32 0x00000001 := by
  decide +kernel

theorem witness_RbRstZeroesTheStateOfOneBank : State.reset.bank? (15 : BitVec 8).toNat = some Bank.reset := by decide

/-- Both ends: a bank step that raises NF in its sum (V-BANK-8) and one that does not (V-BANK-1). -/
theorem witness_RbStepStepsAndSumsTheActiveSlots :
    (demo identitySlot 4).bank? (0 : BitVec 8).toNat = some (bankOf identitySlot 4) ∧ isFinite 0x40000000 = true ∧
    BankRaises Config.params (bankOf { identitySlot with amp := 0x7F61B1E6 } 1) 0x40000000 ∧
    bankOut Config.params (bankOf identitySlot 4) 0x3F800000 = 0x40000000 := by
  refine ⟨by decide, by decide, .inr fun h => ?_, by decide +kernel⟩
  exact absurd h.1 (by decide +kernel)

theorem witness_SkippedSlotStillAdvances :
    (bankOf { identitySlot with amp := 0 } 3).countEff = (bankOf identitySlot 3).countEff ∧
    (∀ (m : Nat) (sl : Slot), (bankOf identitySlot 3).slots[m]? = some sl →
      ∃ amp, (bankOf { identitySlot with amp := 0 } 3).slots[m]? = some { sl with amp := amp }) ∧
    ∃ sl, ((bankOf identitySlot 3).step Config.params 0x3F800000).st.slots[2]? = some sl := by
  refine ⟨rfl, fun m sl h => ⟨0, ?_⟩, ?_⟩
  · simp only [bankOf, Vector.getElem?_replicate] at h ⊢
    split at h
    · next hm =>
      cases h
      rw [if_pos hm]
    · cases h
  · rw [Bank.slots_step]
    exact ⟨_, rfl⟩

theorem witness_RanksRiseWithinATag :
    Bank.reset.slots[0]? = some Slot.reset ∧ Bank.reset.slots[7]? = some Slot.reset ∧ 0 < 7 ∧
    Slot.reset.tag = Slot.reset.tag := by decide

/-- The smallest and the largest block size. -/
theorem witness_EngPrepPreparesEveryBank :
    isFinite 0x473B8000 = true ∧ 0 < units32 0x473B8000 ∧ 1 ≤ (1 : Word).toNat ∧ 1 ≤ (1024 : Word).toNat ∧
    (1024 : Word).toNat ≤ State.reset.params.maxBlockCap ∧ State.reset.bank? 15 = some Bank.reset := by decide +kernel

theorem witness_MixSetactWritesOneBit :
    State.reset.bank? (15 : BitVec 8).toNat = some Bank.reset ∧ State.reset.nVoices ≤ 32 ∧ (1 : Word).toNat ≤ 1 ∧
    (0 : Word).toNat ≤ 1 ∧ 14 ≠ (15 : BitVec 8).toNat := by decide

theorem blockDemo_inBuf_wf : blockDemo.inBuf.wf := by decide

/-- A full block on both channels of two voices, and an empty one. -/
theorem witness_MixBlockSumsTheActiveBanks :
    (2 : Word).toNat ≤ blockDemo.maxBlk ∧ (0 : Word).toNat ≤ blockDemo.maxBlk ∧ 1 ≤ (2 : Word).toNat ∧
    (2 : Word).toNat ≤ blockDemo.params.numChMax ∧ blockDemo.maxBlk ≤ blockDemo.params.maxBlockCap ∧
    blockDemo.outBuf.wf ∧ blockDemo.params.voiceOrder.Nodup := by decide

/-- A block that raises NF in a partial sum of OUT (V-MIX-8): two voices of 2e38. -/
theorem witness_BlockRaises :
    BlockRaises { demo identitySlot 1 with active := 3, inBuf := ⟨[(0, 0x7F167699), (1024, 0x7F167699)]⟩ } 1 :=
  .inr ⟨1, 0, by decide, by decide, by decide +kernel⟩

theorem witness_BlockAfterPanicIsSilent :
    ∃ t, exec .mixPanic blockDemo = .next t ∧ (2 : Word).toNat ≤ blockDemo.maxBlk ∧ 1 ≤ (2 : Word).toNat ∧
      (2 : Word).toNat ≤ blockDemo.params.numChMax ∧ blockDemo.outBuf.wf :=
  ⟨_, rfl, by decide, by decide, by decide, by decide⟩

/-- The last element of the last row. -/
theorem witness_BufWrinWritesOneElement :
    State.reset.bank? (15 : BitVec 8).toNat = some Bank.reset ∧ (1023 : Word).toNat < State.reset.params.maxBlockCap ∧
    isFinite 0x7F7FFFFF = true ∧ State.reset.inBuf.wf := by decide

theorem witness_BufReadsReturnTheStoredWord :
    (State.reset.bank? (15 : BitVec 8).toNat = some Bank.reset ∧ (1023 : Word).toNat < State.reset.params.maxBlockCap) ∧
    (1 : Word).toNat < State.reset.params.numChMax ∧ (1023 : Word).toNat < State.reset.params.maxBlockCap := by decide

/-- The last selector of each of the three reads. -/
theorem witness_RegisterReadsReturnTheField :
    (State.reset.slot? (15 : BitVec 8).toNat (7 : BitVec 4).toNat = some Slot.reset ∧
      [Slot.reset.freq, Slot.reset.decay, Slot.reset.sr, Slot.reset.amp, Slot.reset.b0, Slot.reset.a1, Slot.reset.a2,
        Slot.reset.s1, Slot.reset.s2, if Slot.reset.tag = .harmonic then 0 else 1][(9 : Word).toNat]? = some 0) ∧
    (State.reset.bank? (15 : BitVec 8).toNat = some Bank.reset ∧
      [BitVec.ofNat 32 Bank.reset.countPend.val, BitVec.ofNat 32 Bank.reset.countEff.val, Bank.reset.norm,
        Bank.reset.fund][(3 : Word).toNat]? = some 0) ∧
    [State.reset.status.word, State.reset.activeWord, BitVec.ofNat 32 (popcount State.reset.activeWord),
      BitVec.ofNat 32 State.reset.maxBlk, State.reset.engineSr, 0x4D524231,
      State.reset.configWord][(6 : Word).toNat]? = some 0x04002810 := by decide

theorem witness_StatusAndConfigWords :
    State.reset.params.maxBlockCap < 2 ^ 16 ∧ State.reset.params.numChMax < 2 ^ 4 ∧ State.reset.nVoices < 2 ^ 8 := by decide

/-- Each clause at the boundary of its range: the eighth harmonic of the largest binary32, infinity, a NaN, both zero rates, 0 and 1025 samples, 2, 9, 1024, a block
above G.MAXBLK, no channel, a channel too many, a selector one too large. -/
theorem witness_OperandChecksReject :
    State.reset.slot? (15 : BitVec 8).toNat (7 : BitVec 4).toNat = some Slot.reset ∧
    ¬ (isFinite 0x7F800000 = true ∧ isFinite 0 = true ∧ isFinite 0x3F800000 = true ∧ 0 < units32 0x3F800000) ∧
    isFinite 0x7FC00000 = false ∧
    ¬ (isFinite 0 = true ∧ isFinite 0x80000000 = true ∧ 0 < units32 0x80000000) ∧
    ¬ (isFinite 0 = true ∧ 0 < units32 0) ∧
    (isFinite 0x7F7FFFFF = true ∧ State.reset.bank? (15 : BitVec 8).toNat = some Bank.reset ∧
      Bank.reset.slots[7]? = some Slot.reset ∧ isFinite (partialOf Bank.reset 7 Slot.reset 0x7F7FFFFF) = false) ∧
    (isFinite 0x3F800000 = true ∧ 0 < units32 0x3F800000 ∧ (0 : Word).toNat < 1 ∧
      State.reset.params.maxBlockCap < (1025 : Word).toNat) ∧
    1 < (2 : Word).toNat ∧ 8 < (9 : Word).toNat ∧
    (State.reset.maxBlk < (1 : Word).toNat ∧ (0 : Word).toNat < 1 ∧ State.reset.params.numChMax < (3 : Word).toNat) ∧
    State.reset.params.maxBlockCap ≤ (1024 : Word).toNat ∧
    ((1023 : Word).toNat < State.reset.params.maxBlockCap ∧ isFinite 0xFF800000 = false) ∧
    (State.reset.params.numChMax ≤ (2 : Word).toNat ∧ State.reset.params.maxBlockCap ≤ (1024 : Word).toNat) ∧
    9 < (10 : Word).toNat ∧ 3 < (4 : Word).toNat ∧ 6 < (7 : Word).toNat := by decide +kernel

end Sys2Proof.Tests
end

/-! ## The order of a format: the key of a pattern is in the order of its exact value -/

namespace Sys2Proof.Machine

/-- Signed numbers are in one order when their magnitudes are: a common sign keeps or reverses it, and of two signs only
whether both magnitudes are zero counts, which is why the two zeros are equal. -/
theorem signedUnits_lt_congr {m n u w : Nat} (s t : Bool) (hlt : m < n ↔ u < w) (hgt : n < m ↔ w < u)
    (hm : 0 < m ↔ 0 < u) (hn : 0 < n ↔ 0 < w) :
    signedUnits s m < signedUnits t n ↔ signedUnits s u < signedUnits t w := by
  cases s <;> cases t <;> simp only [signedUnits, if_true, Bool.false_eq_true, if_false] <;> omega

variable {f : Fmt} {a b : Nat}

theorem Fmt.mag_lt_iff (ha : f.mag a ≤ f.infMag) (hb : f.mag b ≤ f.infMag) :
    f.mag a < f.mag b ↔ f.units a < f.units b := by
  rw [← Fmt.units_lt_iff ha hb, Fmt.units_eq_units_mag, Fmt.units_eq_units_mag]

theorem Fmt.mag_pos_iff (ha : f.mag a ≤ f.infMag) : 0 < f.mag a ↔ 0 < f.units a := by
  rw [← Fmt.units_lt_iff (Nat.zero_le _) ha, Fmt.units_zero, Fmt.units_eq_units_mag]

theorem Fmt.key_lt_iff (ha : f.mag a ≤ f.infMag) (hb : f.mag b ≤ f.infMag) :
    f.key a < f.key b ↔ signedUnits (f.neg a) (f.units a) < signedUnits (f.neg b) (f.units b) :=
  signedUnits_lt_congr _ _ (Fmt.mag_lt_iff ha hb) (Fmt.mag_lt_iff hb ha) (Fmt.mag_pos_iff ha) (Fmt.mag_pos_iff hb)

theorem Fmt.key_le_iff (ha : f.mag a ≤ f.infMag) (hb : f.mag b ≤ f.infMag) :
    f.key a ≤ f.key b ↔ signedUnits (f.neg a) (f.units a) ≤ signedUnits (f.neg b) (f.units b) := by
  rw [← not_lt, Fmt.key_lt_iff hb ha, not_lt]

/-! ## The comparisons of a format -/

theorem Fmt.view_eq_nan_iff : f.view a = .nan ↔ f.infMag < f.mag a := by
  unfold Fmt.view
  split
  · next h => exact iff_of_true rfl h
  · next h => split <;> exact iff_of_false FpView.noConfusion h

theorem Fmt.lt_iff : f.lt a b = true ↔ f.mag a ≤ f.infMag ∧ f.mag b ≤ f.infMag ∧ f.key a < f.key b := by
  simp [Fmt.lt, Fmt.view_eq_nan_iff, and_assoc]

theorem Fmt.le_iff : f.le a b = true ↔ f.mag a ≤ f.infMag ∧ f.mag b ≤ f.infMag ∧ f.key a ≤ f.key b := by
  simp [Fmt.le, Fmt.view_eq_nan_iff, and_assoc]

theorem Fmt.lt_iff_of_finite (ha : f.mag a < f.infMag) (hb : f.mag b < f.infMag) :
    f.lt a b = true ↔ signedUnits (f.neg a) (f.units a) < signedUnits (f.neg b) (f.units b) := by
  rw [Fmt.lt_iff, Fmt.key_lt_iff ha.le hb.le]
  exact ⟨fun ⟨_, _, h⟩ => h, fun h => ⟨ha.le, hb.le, h⟩⟩

theorem Fmt.le_iff_of_finite (ha : f.mag a < f.infMag) (hb : f.mag b < f.infMag) :
    f.le a b = true ↔ signedUnits (f.neg a) (f.units a) ≤ signedUnits (f.neg b) (f.units b) := by
  rw [Fmt.le_iff, Fmt.key_le_iff ha.le hb.le]
  exact ⟨fun ⟨_, _, h⟩ => h, fun h => ⟨ha.le, hb.le, h⟩⟩

theorem Fmt.lt_of_nan (h : f.infMag < f.mag a ∨ f.infMag < f.mag b) : f.lt a b = false := by
  rw [Bool.eq_false_iff, ne_eq, Fmt.lt_iff]
  rintro ⟨ha, hb, -⟩
  omega

theorem Fmt.le_of_nan (h : f.infMag < f.mag a ∨ f.infMag < f.mag b) : f.le a b = false := by
  rw [Bool.eq_false_iff, ne_eq, Fmt.le_iff]
  rintro ⟨ha, hb, -⟩
  omega

theorem lt32_iff_of_finite {x y : F32} (hx : isFinite x = true) (hy : isFinite y = true) :
    lt32 x y = true ↔ units32 x < units32 y :=
  Fmt.lt_iff_of_finite (mag_lt_of_isFinite hx) (mag_lt_of_isFinite hy)

theorem le32_iff_of_finite {x y : F32} (hx : isFinite x = true) (hy : isFinite y = true) :
    le32 x y = true ↔ units32 x ≤ units32 y :=
  Fmt.le_iff_of_finite (mag_lt_of_isFinite hx) (mag_lt_of_isFinite hy)

end Sys2Proof.Machine

namespace Sys2Proof.Claims

open Sys2Proof.Machine

/-- Settles O23: the key of a pattern is in the order of its exact value, and a NaN fails the check before it. -/
theorem comparisonIsOfExactValues : Obligations.ComparisonIsOfExactValues :=
  ⟨fun _ _ ha hb => ⟨lt32_iff_of_finite ha hb, le32_iff_of_finite ha hb⟩,
    fun _ _ h => ⟨Fmt.lt_of_nan h, Fmt.le_of_nan h⟩⟩

end Sys2Proof.Claims

/-! ## No command reaches the parameters, the number of voices or the pending commands -/

namespace Sys2Proof.Machine

@[simp] theorem length_mixOne (s : State) (nc ns : Nat) (st : List Bank × MixAcc) (v : Nat) :
    (mixOne s nc ns st v).1.length = st.1.length := by
  unfold mixOne
  split
  · split
    · rfl
    · exact List.length_set
  · rfl

/-- A block steps banks in their place: none comes and none goes. -/
@[simp] theorem length_mixAll (s : State) (nc ns : Nat) : (mixAll s nc ns).1.length = s.banks.length :=
  List.foldlRecOn s.params.voiceOrder (mixOne s nc ns) (motive := fun st => st.1.length = s.banks.length) rfl
    fun st h v _ => (length_mixOne s nc ns st v).trans h

end Sys2Proof.Machine

namespace Sys2Proof.Claims

open Sys2Proof.Machine

theorem PortKept.answered {s u : State} (h : PortKept s u) (c : Code) (r : Word) : PortKept s (u.answered c r) :=
  ⟨h.params, h.nVoices, h.pending⟩

theorem PortKept.completed {s u : State} (h : PortKept s u) (nf : Bool) (r : Word) : PortKept s (u.completed nf r) :=
  ⟨h.params, h.nVoices, h.pending⟩

theorem portKept_rejected (s : State) (c : Code) : PortKept s (s.rejected c) := ⟨rfl, rfl, rfl⟩

theorem portKept_putBank (s : State) (v : Nat) (b : Bank) : PortKept s (s.putBank v b) :=
  ⟨rfl, State.putBank_nVoices .., rfl⟩

theorem portKept_putSlot (s : State) (v : BitVec 8) (b : Bank) (m : BitVec 4) (sl : Slot) :
    PortKept s (s.putSlot v b m sl) :=
  portKept_putBank s v.toNat _

/-- The effect of every row of the opcode table keeps the port: a row writes a slot, a bank, all banks in their place, a
global field or a buffer, or it only answers. -/
theorem portKept_of_effect {i : Instr} {s t : State} (h : Effect i s t) : PortKept s t := by
  cases i with
  | nop | mixCount | mixPanic | stClear => obtain rfl := h; exact ⟨rfl, rfl, rfl⟩
  | mfCfg => obtain ⟨b, sl, -, -, -, -, -, rfl⟩ := h; exact (portKept_putSlot ..).answered ..
  | mfRst => obtain ⟨b, sl, -, rfl⟩ := h; exact (portKept_putSlot ..).answered ..
  | mfStep => obtain ⟨b, sl, -, -, rfl⟩ := h; exact (portKept_putSlot ..).completed ..
  | rbSetfreq | rbSetamp => obtain ⟨b, sl, -, -, rfl⟩ := h; exact (portKept_putSlot ..).answered ..
  | rbSetdecay => obtain ⟨b, sl, -, -, -, -, rfl⟩ := h; exact (portKept_putSlot ..).answered ..
  | rbSettag => obtain ⟨b, sl, tag, -, -, rfl⟩ := h; exact (portKept_putSlot ..).answered ..
  | rbSetcount => obtain ⟨b, -, -, rfl⟩ := h; exact (portKept_putBank ..).answered ..
  | rbTune | rbPrep => obtain ⟨b, -, -, -, rfl⟩ := h; exact (portKept_putBank ..).answered ..
  | rbRst => obtain ⟨b, -, rfl⟩ := h; exact (portKept_putBank ..).answered ..
  | rbStep => obtain ⟨b, -, -, rfl⟩ := h; exact (portKept_putBank ..).completed ..
  | engPrep => obtain ⟨-, -, -, -, rfl⟩ := h; exact ⟨rfl, List.length_map .., rfl⟩
  | mixBlock => obtain ⟨-, -, -, rfl⟩ := h; exact ⟨rfl, length_mixAll .., rfl⟩
  | bufWrin => obtain ⟨-, -, -, rfl⟩ := h; exact ⟨rfl, rfl, rfl⟩
  | mixSetact | bufRdin | bufRdout => obtain ⟨-, -, rfl⟩ := h; exact ⟨rfl, rfl, rfl⟩
  | rdMode => obtain ⟨b, sl, w, -, -, rfl⟩ := h; exact ⟨rfl, rfl, rfl⟩
  | rdBank => obtain ⟨b, w, -, -, rfl⟩ := h; exact ⟨rfl, rfl, rfl⟩
  | rdGlobal => obtain ⟨w, -, rfl⟩ := h; exact ⟨rfl, rfl, rfl⟩

theorem portKept_of_exec {i : Instr} {s t : State} (h : exec i s = .next t) : PortKept s t := by
  obtain ⟨c, -, rfl⟩ | he := exec_cases h
  · exact portKept_rejected s c
  · exact portKept_of_effect he

/-- Settles O13: a rejection and the effect of every row keep the port. -/
theorem noCommandChangesAParameter : Obligations.NoCommandChangesAParameter := fun _ _ _ h =>
  ⟨(portKept_of_exec h).params, (portKept_of_exec h).nVoices⟩

end Sys2Proof.Claims

/-! ## The read-only words, field by field -/

namespace Sys2Proof.Machine

/-- A word made of two fields, as a number. -/
theorem toNat_append_eq_add {m n : Nat} (x : BitVec m) (y : BitVec n) :
    (x ++ y).toNat = 2 ^ n * x.toNat + y.toNat := by
  rw [BitVec.toNat_append, ← Nat.shiftLeft_add_eq_or_of_lt y.isLt, Nat.shiftLeft_eq, Nat.mul_comm]

theorem Status.toNat_word (st : Status) : st.word.toNat = st.err.toNat + 2 * st.nf.toNat + 2 ^ 8 * st.lastErr.toNat := by
  simp only [Status.word, toNat_append_eq_add, BitVec.toNat_ofBool, BitVec.toNat_ofNat]
  omega

theorem State.toNat_configWord {s : State} (hcap : s.params.maxBlockCap < 2 ^ 16) (hch : s.params.numChMax < 2 ^ 4)
    (hv : s.nVoices < 2 ^ 8) :
    s.configWord.toNat = 2 ^ 16 * s.params.maxBlockCap + 2 ^ 12 * s.params.numChMax + 2 ^ 8 * 8 + s.nVoices := by
  simp only [State.configWord, toNat_append_eq_add, BitVec.toNat_ofNat, Nat.mod_eq_of_lt hcap, Nat.mod_eq_of_lt hch,
    Nat.mod_eq_of_lt hv]
  omega

end Sys2Proof.Machine

namespace Sys2Proof.Claims

open Sys2Proof.Machine

/-- Settles O59: each word is the sum of its fields, and the codes are listed in the order of their numbers. -/
theorem statusAndConfigWords : Obligations.StatusAndConfigWords := by
  refine ⟨fun st => ?_, fun s => State.toNat_configWord, ⟨rfl, fun c => ?_⟩, fun c _ => (BitVec.ofNat_toNat ..).symm⟩
  · rw [Status.toNat_word]
    cases st.err <;> cases st.nf <;> rfl
  · cases c <;> decide

end Sys2Proof.Claims

/-! ## The state after power-on reset -/

namespace Sys2Proof.Machine

variable {p : Params} {n v m : Nat} {b : Bank} {sl : Slot}

@[simp] theorem State.nVoices_resetWith (p : Params) (n : Nat) : (State.resetWith p n).nVoices = n :=
  List.length_replicate ..

@[simp] theorem State.nVoices_powerOn (s : State) : s.powerOn.nVoices = s.nVoices := State.nVoices_resetWith ..

theorem State.bank?_resetWith (h : v < n) : (State.resetWith p n).bank? v = some Bank.reset :=
  (List.getElem?_replicate ..).trans (if_pos h)

theorem Bank.slots_reset (h : m < 8) : Bank.reset.slots[m]? = some Slot.reset :=
  Vector.getElem?_replicate.trans (if_pos h)

theorem Bank.eq_reset_of_mem (h : b ∈ (State.resetWith p n).banks) : b = Bank.reset := List.eq_of_mem_replicate h

theorem Slot.eq_reset_of_getElem? (h : Bank.reset.slots[m]? = some sl) : sl = Slot.reset := by
  rw [Bank.reset, Vector.getElem?_replicate] at h
  split at h
  · exact (Option.some.inj h).symm
  · cases h

/-- After reset no slot is active, so a bank answers +0.0 and stays as it is, whatever the input. -/
theorem Bank.step_reset (p : Params) (x : F32) : Bank.reset.step p x = ⟨Bank.reset, zero32, false⟩ := by
  have hslots : Bank.reset.stepSlots p x = Vector.replicate 8 ⟨Slot.reset, zero32, false⟩ := rfl
  have hcount : Bank.reset.countEff.val = 0 := rfl
  have hout : mul32 zero32 Bank.reset.norm = zero32 := by decide
  have hfin : isFinite zero32 = true := by decide
  simp only [Bank.step, hslots, hcount, List.take_zero, weightedSum, List.foldl_nil, hout, hfin,
    Vector.map_replicate, Vector.toList_replicate, List.any_replicate]
  rfl

end Sys2Proof.Machine

namespace Sys2Proof.Claims

open Sys2Proof.Machine

theorem atResetValues_resetWith (p : Params) (n : Nat) : AtResetValues (State.resetWith p n) where
  slots v m hv hm := by
    rw [State.nVoices_resetWith] at hv
    exact State.slot?_eq_some.2 ⟨_, State.bank?_resetWith hv, Bank.slots_reset hm⟩
  fields v hv := by
    rw [State.nVoices_resetWith] at hv
    rw [State.bank?_resetWith hv]
    rfl
  status := (by decide : Status.word ⟨false, false, 0#8⟩ = 0)
  active := BitVec.zero_and
  maxBlk := rfl
  engineSr := rfl
  inBuf := Memory.read_empty
  outBuf := Memory.read_empty
  pending := rfl

theorem rbStep_reset {v : BitVec 8} {x : F32} (hv : v.toNat < 16) (hx : isFinite x = true) :
    exec (.rbStep v x) State.reset = .next ((State.reset.putBank v.toNat Bank.reset).answered .ok zero32) := by
  have hb : State.reset.bank? v.toNat = some Bank.reset := State.bank?_resetWith hv
  have he : exec (.rbStep v x) State.reset = onBank v State.reset _ := rfl
  rw [he, onBank_of_some hb, hx]
  simp only [Bank.step_reset]
  rfl

theorem mixBlock_reset {ns nc : Word} (h : 0 < ns.toNat) : RejectedWith (.mixBlock ns nc) State.reset .eBlock :=
  if_pos (show State.reset.maxBlk < ns.toNat from h)

/-- Settles O12: the values of `State.resetWith`, which every reset is. -/
theorem resetLeavesTheResetValues : Obligations.ResetLeavesTheResetValues :=
  ⟨atResetValues_resetWith .., ⟨rfl, rfl⟩, fun _ _ hv hx => ⟨_, rbStep_reset hv hx, rfl⟩, fun _ _ => mixBlock_reset,
    fun _ => ⟨atResetValues_resetWith .., rfl, State.nVoices_powerOn _⟩⟩

end Sys2Proof.Claims

/-! ## The invariant, bank by bank -/

namespace Sys2Proof.Machine

variable {p : Params} {n v : Nat} {b : Bank} {sl : Slot}

/-- The clause of `State.SamplesFinite` on one bank. -/
def Bank.SamplesFinite (b : Bank) : Prop := ∀ (m : Nat) (sl : Slot), b.slots[m]? = some sl → sl.StateFinite

/-- A property of every bank that VID can name is a property of the list of banks. -/
theorem State.forall_bank?_iff {s : State} {P : Bank → Prop} :
    (∀ v b, s.bank? v = some b → P b) ↔ ∀ b ∈ s.banks, P b := by
  simp only [State.bank?, List.mem_iff_getElem?]
  exact ⟨fun h b ⟨v, hv⟩ => h v b hv, fun h v b hv => h b ⟨v, hv⟩⟩

theorem State.samplesFinite_iff {s : State} : s.SamplesFinite ↔ ∀ b ∈ s.banks, b.SamplesFinite := by
  rw [← State.forall_bank?_iff]
  simp only [State.SamplesFinite, State.slot?_eq_some]
  exact ⟨fun h v b hb m sl hs => h v m sl ⟨b, hb, hs⟩, fun h v m sl ⟨b, hb, hs⟩ => h v b hb m sl hs⟩

/-! ## Reset -/

/-- The reset values of a slot: every one is finite, and the decay is at least the minimum by hypothesis (log 20). -/
theorem Slot.wf_reset (ht : le32 p.t60MinMs 0x447A0000 = true) : Slot.reset.Wf p where
  freq := by decide
  decay := ⟨by decide, ht⟩
  sr := .inl rfl
  amp := by decide
  b0 := by decide
  stable := ⟨by decide, by decide, by decide, by decide, by decide⟩

theorem Bank.wf_reset (ht : le32 p.t60MinMs 0x447A0000 = true) : Bank.reset.Wf p where
  norm := rfl
  fund := by decide
  slots _ _ h := Slot.eq_reset_of_getElem? h ▸ Slot.wf_reset ht

theorem Bank.samplesFinite_reset : Bank.reset.SamplesFinite := fun _ _ h =>
  Slot.eq_reset_of_getElem? h ▸ ⟨by decide, by decide⟩

theorem State.wellFormed_resetWith (hp : ParamsLegal p n) (ht : le32 p.t60MinMs 0x447A0000 = true) :
    (State.resetWith p n).WellFormed where
  config :=
    { params := (State.nVoices_resetWith p n).symm ▸ hp
      banks := State.forall_bank?_iff.2 fun _ h => Bank.eq_reset_of_mem h ▸ Bank.wf_reset ht
      active := BitVec.zero_and
      maxBlk := Nat.zero_le _
      inWf := Memory.wf_empty
      inExtent := fun _ h => nomatch h
      inFinite := fun _ => (by decide : isFinite unlistedWord = true)
      outWf := Memory.wf_empty
      outExtent := fun _ h => nomatch h }
  samples := State.samplesFinite_iff.2 fun _ h => Bank.eq_reset_of_mem h ▸ Bank.samplesFinite_reset

theorem State.WellFormed.inv {s : State} (h : s.WellFormed) (hnf : s.status.nf = false) : s.Inv :=
  ⟨h.config, fun hn => absurd (hnf.symm.trans hn) Bool.false_ne_true, fun _ => h.samples⟩

theorem State.inv_and_cleanEntry_resetWith (hp : ParamsLegal p n) (ht : le32 p.t60MinMs 0x447A0000 = true) :
    (State.resetWith p n).Inv ∧ (State.resetWith p n).CleanEntry :=
  ⟨(State.wellFormed_resetWith hp ht).inv rfl, rfl, rfl, State.wellFormed_resetWith hp ht⟩

theorem paramsLegal_default : ParamsLegal Config.params Config.nVoices :=
  ⟨by decide, by decide, by decide, by decide, by decide, by decide, .inl rfl, List.Perm.refl _⟩

end Sys2Proof.Machine

namespace Sys2Proof.Claims

open Sys2Proof.Machine

/-- Settles O11: both resets are a `State.resetWith` of legal parameters. -/
theorem resetIsWellFormed : Obligations.ResetIsWellFormed :=
  ⟨State.inv_and_cleanEntry_resetWith paramsLegal_default (by decide),
    fun _ hp ht => State.inv_and_cleanEntry_resetWith hp ht⟩

end Sys2Proof.Claims

/-! ## Bounds of binary64 results by powers of two, in units of the smallest subnormal -/

namespace Sys2Proof.Machine

theorem Fmt.units_two_pow {f : Fmt} {e : Nat} (h : (e + 1) * 2 ^ f.fw ≤ f.infMag) :
    f.units ((e + 1) * 2 ^ f.fw) = 2 ^ (f.fw + e) := by
  have hp : (e + 1) * 2 ^ f.fw = e * 2 ^ f.fw + 2 ^ f.fw := Nat.succ_mul _ _
  rw [hp] at h ⊢
  rw [Fmt.units_mk (.inr le_rfl) (Nat.pow_le_pow_right two_pos (Nat.le_succ _)) h, pow_add]

/-- A pattern of a larger value bounds the value of the rounding from above. -/
theorem Fmt.units_round_le {f : Fmt} {num den c : Nat} (hden : 0 < den) (hc : c ≤ f.infMag) (h : num ≤ f.units c * den) :
    f.units (f.round num den) ≤ f.units c :=
  (Fmt.units_le_iff (f.round_le_infMag _ _) hc).2 (Fmt.round_le hden hc h)

/-- A pattern of a smaller value bounds the value of the rounding from below. -/
theorem Fmt.le_units_round {f : Fmt} {num den c : Nat} (hden : 0 < den) (hc : c ≤ f.infMag) (h : f.units c * den ≤ num) :
    f.units c ≤ f.units (f.round num den) :=
  (Fmt.units_le_iff hc (f.round_le_infMag _ _)).2 (Fmt.le_round hden hc h)

section pack
variable {s : Bool} {m : Nat}

theorem units_ofNat_pack64 (h : m ≤ b64.infMag) : b64.units (BitVec.ofNat 64 (b64.pack s m)).toNat = b64.units m := by
  rw [toNat_pack64 h, ← Fmt.units_eq_units_mag, Fmt.mag_pack (h.trans_lt b64.infMag_lt_signBit)]

theorem neg_ofNat_pack64 (h : m ≤ b64.infMag) : b64.neg (BitVec.ofNat 64 (b64.pack s m)).toNat = s := by
  rw [toNat_pack64 h, Fmt.neg_pack (h.trans_lt b64.infMag_lt_signBit)]

theorem units_ofNat_pack32 (h : m ≤ b32.infMag) : b32.units (BitVec.ofNat 32 (b32.pack s m)).toNat = b32.units m := by
  rw [toNat_pack32 h, ← Fmt.units_eq_units_mag, Fmt.mag_pack (h.trans_lt b32.infMag_lt_signBit)]

end pack

theorem natAbs_units32 (x : F32) : (units32 x).natAbs = b32.units x.toNat := natAbs_signedUnits ..

theorem natAbs_units64 (x : F64) : (units64 x).natAbs = b64.units x.toNat := natAbs_signedUnits ..

/-- A binary64 is finite and of at most `2 ^ hi` units. -/
structure AtMost64 (hi : Nat) (x : F64) : Prop where
  finite : isFinite64 x = true
  le : b64.units x.toNat ≤ 2 ^ hi

/-- A binary64 has no sign and at least `2 ^ lo` units. -/
structure AtLeast64 (lo : Nat) (x : F64) : Prop where
  pos : b64.neg x.toNat = false
  le : 2 ^ lo ≤ b64.units x.toNat

variable {i j k num den : Nat} {s : Bool} {x y : F64}

theorem AtLeast64.ne_zero (h : AtLeast64 i x) : b64.units x.toNat ≠ 0 := (lt_of_lt_of_le (Nat.two_pow_pos i) h.le).ne'

theorem AtMost64.mono (h : AtMost64 i x) (hij : i ≤ j) : AtMost64 j x :=
  ⟨h.finite, h.le.trans (Nat.pow_le_pow_right two_pos hij)⟩

theorem AtMost64.neg64 (h : AtMost64 i x) : AtMost64 i (neg64 x) :=
  ⟨(isFinite64_neg64 x).trans h.finite, (units_neg64 x).trans_le h.le⟩

/-! The range of exponents: `2 ^ k` units are a pattern for `k` from 52, below which the patterns are subnormal, to 2097. -/

theorem two_pow64_lt_infMag (hk : k ≤ 2045) : (k + 1) * 2 ^ b64.fw < b64.infMag :=
  Nat.mul_lt_mul_of_pos_right (show k + 1 < 2047 by omega) (Nat.two_pow_pos _)

theorem units_two_pow64 (hk : k ≤ 2045) : b64.units ((k + 1) * 2 ^ b64.fw) = 2 ^ (52 + k) :=
  Fmt.units_two_pow (two_pow64_lt_infMag hk).le

theorem atMost64_of_mag_le (hk : k ≤ 2045) (h : b64.mag x.toNat ≤ (k + 1) * 2 ^ b64.fw) : AtMost64 (52 + k) x := by
  have hc := two_pow64_lt_infMag hk
  refine ⟨decide_eq_true (h.trans_lt hc), ?_⟩
  rw [← units_two_pow64 hk, ← Fmt.units_eq_units_mag]
  exact (Fmt.units_le_iff (h.trans hc.le) hc.le).2 h

theorem atLeast64_of_le_mag (hk : k ≤ 2045) (hx : b64.mag x.toNat < b64.infMag) (hpos : b64.neg x.toNat = false)
    (h : (k + 1) * 2 ^ b64.fw ≤ b64.mag x.toNat) : AtLeast64 (52 + k) x := by
  refine ⟨hpos, ?_⟩
  rw [← units_two_pow64 hk, ← Fmt.units_eq_units_mag b64 x.toNat]
  exact (Fmt.units_le_iff (h.trans hx.le) hx.le).2 h

/-- A bound of the exact value is a bound of the rounded one. -/
theorem atMost64_round (hk : k ≤ 2045) (hden : 0 < den) (h : num ≤ 2 ^ (52 + k) * den) :
    AtMost64 (52 + k) (BitVec.ofNat 64 (b64.pack s (b64.round num den))) := by
  have hc := two_pow64_lt_infMag hk
  have hr := b64.round_le_infMag num den
  rw [← units_two_pow64 hk] at h
  refine ⟨?_, ?_⟩
  · rw [isFinite64_pack hr, decide_eq_true_eq]
    exact (Fmt.round_le hden hc.le h).trans_lt hc
  · rw [units_ofNat_pack64 hr, ← units_two_pow64 hk]
    exact Fmt.units_round_le hden hc.le h

theorem atLeast64_round (hk : k ≤ 2045) (hden : 0 < den) (h : 2 ^ (52 + k) * den ≤ num) :
    AtLeast64 (52 + k) (BitVec.ofNat 64 (b64.pack false (b64.round num den))) := by
  have hr := b64.round_le_infMag num den
  rw [← units_two_pow64 hk] at h
  refine ⟨neg_ofNat_pack64 hr, ?_⟩
  rw [units_ofNat_pack64 hr, ← units_two_pow64 hk]
  exact Fmt.le_units_round hden (two_pow64_lt_infMag hk).le h

/-! ## The operations: exponents add and subtract -/

theorem AtMost64.mul (hx : AtMost64 i x) (hy : AtMost64 j y) (hk : k ≤ 2045) (h : i + j ≤ 52 + k + b64.unit) :
    AtMost64 (52 + k) (mul64 x y) := by
  rw [mul64_of_finite hx.finite hy.finite]
  refine atMost64_round hk (Nat.two_pow_pos _) ?_
  calc b64.units x.toNat * b64.units y.toNat ≤ 2 ^ i * 2 ^ j := Nat.mul_le_mul hx.le hy.le
    _ = 2 ^ (i + j) := (pow_add ..).symm
    _ ≤ 2 ^ (52 + k + b64.unit) := Nat.pow_le_pow_right two_pos h
    _ = 2 ^ (52 + k) * 2 ^ b64.unit := pow_add ..

theorem AtLeast64.mul (hx : AtLeast64 i x) (hy : AtLeast64 j y) (hxf : isFinite64 x = true) (hyf : isFinite64 y = true)
    (hk : k ≤ 2045) (h : 52 + k + b64.unit ≤ i + j) : AtLeast64 (52 + k) (mul64 x y) := by
  rw [mul64_of_finite hxf hyf, hx.pos, hy.pos, Bool.xor_false]
  refine atLeast64_round hk (Nat.two_pow_pos _) ?_
  rw [← pow_add]
  calc 2 ^ (52 + k + b64.unit) ≤ 2 ^ (i + j) := Nat.pow_le_pow_right two_pos h
    _ = 2 ^ i * 2 ^ j := pow_add ..
    _ ≤ b64.units x.toNat * b64.units y.toNat := Nat.mul_le_mul hx.le hy.le

theorem AtMost64.div (hx : AtMost64 i x) (hy : AtLeast64 j y) (hyf : isFinite64 y = true) (hk : k ≤ 2045)
    (h : i + b64.unit ≤ 52 + k + j) : AtMost64 (52 + k) (div64 x y) := by
  rw [div64_of_finite hx.finite hyf hy.ne_zero]
  refine atMost64_round hk (Nat.pos_of_ne_zero hy.ne_zero) ?_
  calc b64.units x.toNat * 2 ^ b64.unit ≤ 2 ^ i * 2 ^ b64.unit := Nat.mul_le_mul_right _ hx.le
    _ = 2 ^ (i + b64.unit) := (pow_add ..).symm
    _ ≤ 2 ^ (52 + k + j) := Nat.pow_le_pow_right two_pos h
    _ = 2 ^ (52 + k) * 2 ^ j := pow_add ..
    _ ≤ 2 ^ (52 + k) * b64.units y.toNat := Nat.mul_le_mul_left _ hy.le

theorem AtLeast64.div (hx : AtLeast64 i x) (hy : AtMost64 j y) (hypos : b64.neg y.toNat = false)
    (hy0 : b64.units y.toNat ≠ 0) (hxf : isFinite64 x = true) (hk : k ≤ 2045) (h : 52 + k + j ≤ i + b64.unit) :
    AtLeast64 (52 + k) (div64 x y) := by
  rw [div64_of_finite hxf hy.finite hy0, hx.pos, hypos, Bool.xor_false]
  refine atLeast64_round hk (Nat.pos_of_ne_zero hy0) ?_
  calc 2 ^ (52 + k) * b64.units y.toNat ≤ 2 ^ (52 + k) * 2 ^ j := Nat.mul_le_mul_left _ hy.le
    _ = 2 ^ (52 + k + j) := (pow_add ..).symm
    _ ≤ 2 ^ (i + b64.unit) := Nat.pow_le_pow_right two_pos h
    _ = 2 ^ i * 2 ^ b64.unit := pow_add ..
    _ ≤ b64.units x.toNat * 2 ^ b64.unit := Nat.mul_le_mul_right _ hx.le

/-- The quotient of two positive numbers has no sign. -/
theorem neg_div64 (hx : b64.neg x.toNat = false) (hy : AtLeast64 j y) (hxf : isFinite64 x = true)
    (hyf : isFinite64 y = true) : b64.neg (div64 x y).toNat = false := by
  rw [div64_of_finite hxf hyf hy.ne_zero, neg_ofNat_pack64 (b64.round_le_infMag _ _), hx, hy.pos]
  rfl

/-- Every finite binary32 is below `2 ^ 277` units, the value of the pattern of infinity. -/
theorem units_lt_of_isFinite {d : F32} (hd : isFinite d = true) : b32.units d.toNat < 2 ^ (b32.fw + 254) := by
  rw [← Fmt.units_eq_units_mag, ← Fmt.units_two_pow (f := b32) (e := 254) le_rfl]
  exact Fmt.units_lt (mag_lt_of_isFinite hd) le_rfl

theorem atMost64_to64 {d : F32} (hd : isFinite d = true) : AtMost64 1202 (to64 d) := by
  rw [to64_of_finite hd]
  refine atMost64_round (k := 1150) (by omega) one_pos ?_
  calc b32.units d.toNat * 2 ^ 925 ≤ 2 ^ (b32.fw + 254) * 2 ^ 925 := Nat.mul_le_mul_right _ (units_lt_of_isFinite hd).le
    _ = 2 ^ (52 + 1150) * 1 := by rw [← pow_add, show b32.fw + 254 + 925 = 52 + 1150 from rfl, Nat.mul_one]

/-- A positive number has no sign and at least one unit. -/
theorem neg_eq_false_of_units32_pos {d : F32} (h : 0 < units32 d) : b32.neg d.toNat = false ∧ 0 < b32.units d.toNat := by
  rw [units32, signedUnits] at h
  split at h
  · omega
  · next hn => exact ⟨Bool.eq_false_iff.2 hn, by omega⟩

theorem atLeast64_to64 {d : F32} (hd : isFinite d = true) (hpos : 0 < units32 d) : AtLeast64 925 (to64 d) := by
  obtain ⟨hn, hu⟩ := neg_eq_false_of_units32_pos hpos
  rw [to64_of_finite hd, hn]
  refine atLeast64_round (k := 873) (by omega) one_pos ?_
  simpa only [Nat.reduceAdd, Nat.mul_one] using Nat.le_mul_of_pos_left (2 ^ 925) hu

/-! ## The arguments of `FN_EXP` and `FN_COS` are finite -/

theorem atMost64_msPerS : AtMost64 1084 msPerS := atMost64_of_mag_le (k := 1032) (by omega) (by decide)

theorem atLeast64_msPerS : AtLeast64 1083 msPerS :=
  atLeast64_of_le_mag (k := 1031) (by omega) (by decide) (by decide) (by decide)

theorem atMost64_twoPi : AtMost64 1077 twoPi64 := atMost64_of_mag_le (k := 1025) (by omega) (by decide)

/-- Both choices of `DECAY_K` are positive and at most 8. -/
theorem atMost64_decayK {K : F64} (hK : K = Config.pi64 ∨ K = Config.kT60) :
    AtMost64 1077 K ∧ b64.neg K.toNat = false := by
  obtain rfl | rfl := hK
  · exact ⟨atMost64_of_mag_le (k := 1025) (by omega) (by decide), by decide⟩
  · exact ⟨atMost64_of_mag_le (k := 1025) (by omega) (by decide), by decide⟩

variable {d sr f : F32}

/-- The angle is finite for every finite frequency and positive rate (40_numerics.md R112). -/
theorem isFinite64_poleAngle (hf : isFinite f = true) (hsr : isFinite sr = true) (hpos : 0 < units32 sr) :
    isFinite64 (poleAngle f sr) = true := by
  have hw := atMost64_twoPi.mul (atMost64_to64 hf) (k := 1153) (by decide) (by decide)
  exact (hw.div (atLeast64_to64 hsr hpos) (atMost64_to64 hsr).finite (k := 1302) (by decide) (by decide)).finite

/-- The argument of `FN_EXP` is finite and not positive: the decay time and the rate are between the smallest and the
largest binary32, which keeps their product and the quotient far inside binary64 (40_numerics.md R112). -/
theorem exp_argument_nonpos {K : F64} (hK : K = Config.pi64 ∨ K = Config.kT60) (hd : isFinite d = true)
    (hdpos : 0 < units32 d) (hsr : isFinite sr = true) (hsrpos : 0 < units32 sr) :
    let q := div64 K (mul64 (div64 (to64 d) msPerS) (to64 sr))
    isFinite64 (neg64 q) = true ∧ units64 (neg64 q) ≤ 0 := by
  obtain ⟨hKle, hKpos⟩ := atMost64_decayK hK
  have ht := (atMost64_to64 hd).div atLeast64_msPerS atMost64_msPerS.finite (k := 1150) (by decide) (by decide)
  have ht' := (atLeast64_to64 hd hdpos).div atMost64_msPerS atLeast64_msPerS.pos atLeast64_msPerS.ne_zero
    (atMost64_to64 hd).finite (k := 863) (by decide) (by decide)
  have hu := ht.mul (atMost64_to64 hsr) (k := 1278) (by decide) (by decide)
  have hu' := ht'.mul (atLeast64_to64 hsr hsrpos) ht.finite (atMost64_to64 hsr).finite (k := 714) (by decide) (by decide)
  have hq := hKle.div hu' hu.finite (k := 1333) (by decide) (by decide)
  refine ⟨hq.neg64.finite, ?_⟩
  rw [units64_neg64, units64, neg_div64 hKpos hu' hKle.finite hu.finite]
  exact neg_nonpos.2 (Int.natCast_nonneg _)

end Sys2Proof.Machine

/-! ## The bounds of the configuration functions (40_numerics.md R106) -/

namespace Sys2Proof.Machine

theorem le64_iff_of_finite {x y : F64} (hx : isFinite64 x = true) (hy : isFinite64 y = true) :
    le64 x y = true ↔ units64 x ≤ units64 y :=
  Fmt.le_iff_of_finite (mag_lt_of_isFinite64 hx) (mag_lt_of_isFinite64 hy)

theorem lt64_iff_of_finite {x y : F64} (hx : isFinite64 x = true) (hy : isFinite64 y = true) :
    lt64 x y = true ↔ units64 x < units64 y :=
  Fmt.lt_iff_of_finite (mag_lt_of_isFinite64 hx) (mag_lt_of_isFinite64 hy)

/-- What lies between two finite patterns is finite. -/
theorem Fmt.mag_lt_of_between {f : Fmt} {lo x hi : Nat} (hlo : f.mag lo < f.infMag) (hhi : f.mag hi < f.infMag)
    (h1 : f.le lo x = true) (h2 : f.le x hi = true) : f.mag x < f.infMag := by
  obtain ⟨-, hx, hkey1⟩ := Fmt.le_iff.1 h1
  obtain ⟨-, -, hkey2⟩ := Fmt.le_iff.1 h2
  unfold Fmt.key signedUnits at hkey1 hkey2
  split_ifs at hkey1 hkey2 <;> omega

/-- A comparison with finite bounds on both sides bounds the exact value. -/
theorem units64_between {lo x hi : F64} (hlo : isFinite64 lo = true) (hhi : isFinite64 hi = true)
    (h1 : le64 lo x = true) (h2 : le64 x hi = true) :
    isFinite64 x = true ∧ units64 lo ≤ units64 x ∧ units64 x ≤ units64 hi := by
  have hx : isFinite64 x = true :=
    decide_eq_true (Fmt.mag_lt_of_between (mag_lt_of_isFinite64 hlo) (mag_lt_of_isFinite64 hhi) h1 h2)
  exact ⟨hx, (le64_iff_of_finite hlo hx).1 h1, (le64_iff_of_finite hx hhi).1 h2⟩

theorem clamp64_between {lo hi : F64} (hlo : le64 lo lo = true) (hhi : le64 hi hi = true) (h : le64 lo hi = true) (x : F64) :
    le64 lo (clamp64 lo hi x) = true ∧ le64 (clamp64 lo hi x) hi = true := by
  unfold clamp64
  split
  · next h1 =>
    split
    · next h2 => exact ⟨h1, h2⟩
    · exact ⟨h, hhi⟩
  · exact ⟨hlo, h⟩

theorem expBounded_fnExp : ExpBounded fnExp := by
  refine ⟨fun x hx h0 => ?_, fun x hx h0 h1 => ?_⟩
  · rw [fnExp, hx, h0, Bool.and_self, if_pos rfl]
    split
    · exact ⟨by decide, by decide⟩
    · exact clamp64_between (by decide) (by decide) (by decide) _
  · rw [fnExp, hx, h0, h1, Bool.and_self, if_pos rfl, if_pos rfl]

theorem cosBounded_fnCos : CosBounded fnCos := by
  refine ⟨fun x hx => ?_, fun x hx h0 h1 => ?_⟩
  · rw [fnCos, hx, if_pos rfl]
    split
    · exact ⟨by decide, by decide⟩
    · exact clamp64_between (by decide) (by decide) (by decide) _
  · rw [fnCos, hx, h0, h1, Bool.and_self, if_pos rfl, if_pos rfl]

/-! ## The coefficients are finite and stable (40_numerics.md R113, R116, R123) -/

theorem atMost64_one : AtMost64 1074 one64 := atMost64_of_mag_le (k := 1022) (by omega) (by decide)

theorem atMost64_negTwo : AtMost64 1075 negTwo64 := atMost64_of_mag_le (k := 1023) (by omega) (by decide)

theorem atMost64_rMax : AtMost64 1074 rMax := atMost64_of_mag_le (k := 1022) (by omega) (by decide)

theorem two_pow_925_pos : 0 < 2 ^ 925 := pow_pos two_pos _

theorem unit_b64 : b64.unit = 1074 := rfl

/-- `R_MAX` is 1 - 2^-24, which is also the largest binary32 below 1. -/
theorem units_rMax : b64.units rMax.toNat = (2 ^ 24 - 1) * 2 ^ 125 * 2 ^ 925 := by
  have h := Fmt.units_mk (f := b64) (e := 1021) (q := (2 ^ 24 - 1) * 2 ^ 29) (.inr (by decide)) (by decide) (by decide)
  rw [show rMax.toNat = 1021 * 2 ^ b64.fw + (2 ^ 24 - 1) * 2 ^ 29 by decide, h]
  rw [Nat.mul_assoc, Nat.mul_assoc, ← pow_add, ← pow_add]

theorem units_belowOne : b32.units 0x3F7FFFFF = (2 ^ 24 - 1) * 2 ^ 125 := by decide

variable {r c y : F64} {k : Nat}

/-- What is known of the limited radius of a pole: it is finite and of magnitude at most `R_MAX`. -/
structure IsRadius (r : F64) : Prop where
  finite : isFinite64 r = true
  le : b64.units r.toNat ≤ b64.units rMax.toNat

theorem IsRadius.atMost64 (h : IsRadius r) : AtMost64 1074 r := ⟨h.finite, h.le.trans atMost64_rMax.le⟩

theorem isRadius_limitRadius (hr : isFinite64 r = true) (h0 : 0 ≤ units64 r) : IsRadius (limitRadius r) := by
  unfold limitRadius
  split
  · exact ⟨atMost64_rMax.finite, le_rfl⟩
  · next h =>
    rw [lt64_iff_of_finite atMost64_rMax.finite hr, not_lt] at h
    refine ⟨hr, ?_⟩
    rw [← natAbs_units64, ← natAbs_units64]
    omega

/-- A binary64 of magnitude at most 2^127 rounds to a finite binary32. -/
theorem isFinite_rne32 (hy : AtMost64 k y) (hk : k ≤ b32.fw + 253 + 925) : isFinite (rne32 y) = true := by
  have hu : b32.units ((253 + 1) * 2 ^ b32.fw) = 2 ^ (b32.fw + 253) := Fmt.units_two_pow (by decide)
  rw [rne32_of_finite hy.finite, isFinite_pack (b32.round_le_infMag _ _), decide_eq_true_eq]
  refine (Fmt.round_le (two_pow_925_pos) (by decide) ?_).trans_lt (by decide : (253 + 1) * 2 ^ b32.fw < b32.infMag)
  calc b64.units y.toNat ≤ 2 ^ (b32.fw + 253 + 925) := (hy.mono hk).le
    _ = b32.units ((253 + 1) * 2 ^ b32.fw) * 2 ^ 925 := by rw [hu, ← pow_add]

theorem atMost64_add {x : F64} (hx : AtMost64 (51 + k) x) (hy : AtMost64 (51 + k) y) (hk : k ≤ 2045) :
    AtMost64 (52 + k) (add64 x y) := by
  rw [add64_of_finite hx.finite hy.finite]
  split
  · refine ⟨?_, ?_⟩
    · rw [isFinite64_pack (Nat.zero_le _)]
      decide
    · rw [units_ofNat_pack64 (Nat.zero_le _), Fmt.units_zero]
      exact Nat.zero_le _
  · refine atMost64_round hk one_pos ?_
    calc (units64 x + units64 y).natAbs ≤ b64.units x.toNat + b64.units y.toNat := by
          rw [← natAbs_units64, ← natAbs_units64]
          exact Int.natAbs_add_le _ _
      _ ≤ 2 ^ (51 + k) + 2 ^ (51 + k) := Nat.add_le_add hx.le hy.le
      _ = 2 ^ (52 + k) * 1 := by rw [show 52 + k = 51 + k + 1 by omega, pow_succ]; omega

/-- `B0` of a radius is finite. -/
theorem isFinite_b0 (hr : IsRadius r) : isFinite (rne32 (sub64 one64 r)) = true := by
  rw [sub64_of_finite atMost64_one.finite hr.finite]
  exact isFinite_rne32 (atMost64_add (k := 1023) atMost64_one hr.atMost64.neg64 (by omega)) (by decide)

/-- `A1` of a radius and a cosine is finite before the guard. -/
theorem isFinite_a1 (hr : IsRadius r) (hc : AtMost64 1074 c) : isFinite (rne32 (mul64 (mul64 negTwo64 r) c)) = true :=
  isFinite_rne32 ((atMost64_negTwo.mul hr.atMost64 (k := 1023) (by decide) (by decide)).mul hc (k := 1023) (by decide)
    (by decide)) (by decide)

/-- A rounded magnitude below that of `R_MAX`. -/
theorem isRadius_round {s : Bool} {num den : Nat} (hden : 0 < den) (h : num ≤ b64.units rMax.toNat * den) :
    IsRadius (BitVec.ofNat 64 (b64.pack s (b64.round num den))) := by
  have hmax : rMax.toNat < b64.infMag := by decide
  have hround := b64.round_le_infMag num den
  refine ⟨?_, ?_⟩
  · rw [isFinite64_pack hround, decide_eq_true_eq]
    exact (Fmt.round_le hden hmax.le h).trans_lt hmax
  · rw [units_ofNat_pack64 hround]
    exact Fmt.units_round_le hden hmax.le h

/-- The square of a radius is no larger than `R_MAX` and has no sign. -/
theorem square_radius (hr : IsRadius r) : IsRadius (mul64 r r) ∧ b64.neg (mul64 r r).toNat = false := by
  rw [mul64_of_finite hr.finite hr.finite, Bool.xor_self]
  refine ⟨isRadius_round (Nat.two_pow_pos _) ?_, neg_ofNat_pack64 (b64.round_le_infMag _ _)⟩
  rw [unit_b64]
  exact Nat.mul_le_mul hr.le hr.atMost64.le

/-- A magnitude of at most 1 - 2^-24 rounds to a binary32 in [0, 1), because it is at most a binary32 there. -/
theorem round32_below_one {num den : Nat} (hden : 0 < den) (h : num ≤ b32.units 0x3F7FFFFF * den) :
    let a2 := BitVec.ofNat 32 (b32.pack false (b32.round num den))
    isFinite a2 = true ∧ 0 ≤ units32 a2 ∧ units32 a2 < 2 ^ 149 := by
  have hmax : 0x3F7FFFFF < b32.infMag := by decide
  have hround := b32.round_le_infMag num den
  have hunits : b32.units (b32.round num den) ≤ (2 ^ 24 - 1) * 2 ^ 125 :=
    (Fmt.units_round_le hden hmax.le h).trans_eq units_belowOne
  refine ⟨?_, ?_, ?_⟩
  · rw [isFinite_pack hround, decide_eq_true_eq]
    exact (Fmt.round_le hden hmax.le h).trans_lt hmax
  · rw [units32_pack hround]
    exact Int.natCast_nonneg _
  · rw [units32_pack hround]
    simp only [signedUnits, Bool.false_eq_true, if_false]
    omega

/-- `A2` of a radius is in [0, 1): the square is at most `R_MAX`, which is a binary32. -/
theorem a2_of_radius (hr : IsRadius r) :
    isFinite (rne32 (mul64 r r)) = true ∧ 0 ≤ units32 (rne32 (mul64 r r)) ∧ units32 (rne32 (mul64 r r)) < 2 ^ 149 := by
  obtain ⟨hsq, hneg⟩ := square_radius hr
  rw [rne32_of_finite hsq.finite, hneg]
  refine round32_below_one two_pow_925_pos ?_
  rw [units_belowOne, ← units_rMax]
  exact hsq.le

/-- The guard puts a finite `a1` strictly inside `1 + a2` (40_numerics.md R116). -/
theorem jury_inside {a1 a2 : F32} (h1 : isFinite a1 = true) (h2 : 0 ≤ units32 a2) :
    isFinite (jury a1 a2) = true ∧ |units32 (jury a1 a2)| < 2 ^ 149 + units32 a2 := by
  have hview : b32.view a1.toNat ≠ .nan := by
    rw [Fmt.view_of_lt (mag_lt_of_isFinite h1)]
    exact FpView.noConfusion
  unfold jury
  rw [decide_eq_true hview, Bool.true_and]
  split
  · have ht := b32.trunc_lt (by decide) (2 ^ b32.unit + units32 a2 - 1).toNat
    have hu := b32.units_trunc_le (2 ^ b32.unit + units32 a2 - 1).toNat
    refine ⟨(isFinite_pack ht.le).trans (decide_eq_true ht), ?_⟩
    have habs : |units32 (BitVec.ofNat 32 (b32.pack (b32.neg a1.toNat) (belowOnePlus a2)))| =
        (b32.units (belowOnePlus a2) : Int) := by
      rw [Int.abs_eq_natAbs, natAbs_units32, belowOnePlus, units_ofNat_pack32 ht.le]
    rw [habs, belowOnePlus]
    have hunit : b32.unit = 149 := rfl
    rw [hunit] at hu ⊢
    omega
  · next h =>
    refine ⟨h1, ?_⟩
    rw [decide_eq_true_eq, not_le] at h
    rwa [Int.abs_eq_natAbs, natAbs_units32]

/-- Finite coefficients with `A2` in [0, 1) and `|A1| < 1 + A2` (40_numerics.md R123). -/
structure Coefs.Stable (c : Coefs) : Prop where
  b0_finite : isFinite c.b0 = true
  a1_finite : isFinite c.a1 = true
  a2_finite : isFinite c.a2 = true
  a2_nonneg : 0 ≤ units32 c.a2
  a2_lt_one : units32 c.a2 < 2 ^ 149
  a1_lt : |units32 c.a1| < 2 ^ 149 + units32 c.a2

theorem coefsOf_stable (hr : IsRadius r) (hc : AtMost64 1074 c) : (coefsOf r c).Stable := by
  obtain ⟨ha2, hnonneg, hlt⟩ := a2_of_radius hr
  obtain ⟨ha1, hinside⟩ := jury_inside (isFinite_a1 hr hc) hnonneg
  exact ⟨isFinite_b0 hr, ha1, ha2, hnonneg, hlt, hinside⟩

variable {K : F64} {f d sr : F32}

theorem isRadius_pole (hK : K = Config.pi64 ∨ K = Config.kT60) (hd : isFinite d = true) (hdpos : 0 < units32 d)
    (hsr : isFinite sr = true) (hsrpos : 0 < units32 sr) : IsRadius (limitRadius (poleRadius K d sr)) := by
  obtain ⟨hfin, hle⟩ := exp_argument_nonpos hK hd hdpos hsr hsrpos
  obtain ⟨h0, h1⟩ := expBounded_fnExp.1 _ hfin ((le64_iff_of_finite hfin (by decide)).2 hle)
  obtain ⟨hrfin, hr0, -⟩ := units64_between (by decide) (by decide) h0 h1
  exact isRadius_limitRadius hrfin hr0

theorem atMost64_cosine (hf : isFinite f = true) (hsr : isFinite sr = true) (hpos : 0 < units32 sr) :
    AtMost64 1074 (fnCos (poleAngle f sr)) := by
  obtain ⟨h1, h2⟩ := cosBounded_fnCos.1 _ (isFinite64_poleAngle hf hsr hpos)
  obtain ⟨hfin, hlo, hhi⟩ := units64_between (by decide) (by decide) h1 h2
  have hneg : units64 negOne64 = -units64 one64 := units64_neg64 one64
  refine ⟨hfin, le_trans ?_ atMost64_one.le⟩
  rw [← natAbs_units64, ← natAbs_units64]
  omega

/-- The coefficients of every finite frequency, positive decay and positive rate (40_numerics.md R112, R123), within the
bounds of R106 that the model builds in (log 6). -/
theorem coef_stable (hK : K = Config.pi64 ∨ K = Config.kT60) (hf : isFinite f = true) (hd : isFinite d = true)
    (hdpos : 0 < units32 d) (hsr : isFinite sr = true) (hsrpos : 0 < units32 sr) : (coef K f d sr).Stable :=
  coefsOf_stable (isRadius_pole hK hd hdpos hsr hsrpos) (atMost64_cosine hf hsr hsrpos)

end Sys2Proof.Machine

/-! ## Banks up to S1 and S2: `Bank.clear` forgets what running the filters changes, and nothing else -/

namespace Sys2Proof.Machine

variable {p : Params} {s t : State} {i : Instr} {b b' b₀ : Bank} {sl sl' : Slot} {m v nc ns : Nat}

/-- Banks are compared slot by slot. -/
theorem slots_ext {xs ys : Vector Slot 8} (h : ∀ m : Nat, xs[m]? = ys[m]?) : xs = ys :=
  Vector.ext fun m hm => by simpa [hm] using h m

theorem Slot.clear_clear (sl : Slot) : sl.clear.clear = sl.clear := rfl

theorem Slot.clear_step (p : Params) (sl : Slot) (x : F32) : (sl.step p x).st.clear = sl.clear := rfl

theorem Bank.clear_clear (b : Bank) : b.clear.clear = b.clear := by
  simp [Bank.clear, Function.comp_def, Slot.clear_clear]

theorem Bank.clear_step (p : Params) (b : Bank) (x : F32) : (b.step p x).st.clear = b.clear := by
  have hslots : ((b.step p x).st.slots.map Slot.clear) = b.slots.map Slot.clear := by
    refine slots_ext fun m => ?_
    simp only [Vector.getElem?_map, Bank.slots_step, Option.map_map]
    congr 1
    funext sl
    dsimp only [Function.comp]
    split
    · exact Slot.clear_step ..
    · rfl
  exact congrArg (fun slots => { b with slots := slots }) hslots

theorem Bank.clear_putSlot (hs : b.slots[m]? = some sl) (h : sl'.clear = sl.clear) : (b.putSlot m sl').clear = b.clear := by
  obtain ⟨hm, hsl⟩ := Vector.getElem?_eq_some_iff.1 hs
  have hslots : (b.putSlot m sl').slots.map Slot.clear = b.slots.map Slot.clear := by
    refine slots_ext fun k => ?_
    simp only [Vector.getElem?_map, Bank.slots_putSlot hm]
    split
    · next hk => rw [hk, hs, Option.map_some, Option.map_some, h]
    · rfl
  exact congrArg (fun slots => { b with slots := slots }) hslots

/-- A slot of a bank that differs at most in S1 and S2. -/
theorem Bank.exists_slot_of_clear_eq (h : b'.clear = b.clear) (hs : b.slots[m]? = some sl) :
    ∃ sl', b'.slots[m]? = some sl' ∧ sl'.clear = sl.clear := by
  have hm : b'.slots[m]?.map Slot.clear = some sl.clear := by
    rw [← Bank.slots_clear, h, Bank.slots_clear, hs, Option.map_some]
  exact Option.map_eq_some_iff.1 hm

/-- Replacing an element by one with the same image keeps the images. -/
theorem map_set_of_getElem? {α β : Type} {f : α → β} {l : List α} {a a' : α} (h : l[v]? = some a) (hf : f a' = f a) :
    (l.set v a').map f = l.map f := by
  obtain ⟨hv, rfl⟩ := List.getElem?_eq_some_iff.1 h
  rw [List.map_set, hf, ← List.getElem_map f (h := by rwa [List.length_map]), List.set_getElem_self]

/-- Every bank is as before but for S1 and S2. -/
def FiltersRun (s t : State) : Prop := t.banks.map Bank.clear = s.banks.map Bank.clear

theorem FiltersRun.exists_bank (h : FiltersRun s t) (hb : s.bank? v = some b) :
    ∃ b', t.bank? v = some b' ∧ b'.clear = b.clear := by
  have hv : (t.bank? v).map Bank.clear = some b.clear := by
    rw [State.bank?, ← List.getElem?_map, h, List.getElem?_map, ← State.bank?, hb, Option.map_some]
  exact Option.map_eq_some_iff.1 hv

theorem filtersRun_putBank (hb : s.bank? v = some b) (h : b'.clear = b.clear) : FiltersRun s (s.putBank v b') :=
  map_set_of_getElem? hb h

theorem filtersRun_putSlot {v : BitVec 8} {m : BitVec 4} (hn : s.Names v m b sl) (h : sl'.clear = sl.clear) :
    FiltersRun s (s.putSlot v b m sl') :=
  filtersRun_putBank hn.1 (Bank.clear_putSlot hn.2 h)

/-! ## The block, up to S1 and S2 -/

theorem clear_mixVoice (p : Params) (inBuf : Memory) (v nc ns : Nat) (b : Bank) (acc : MixAcc) :
    (mixVoice p inBuf v nc ns b acc).1.clear = b.clear :=
  List.foldlRecOn (List.range ns) (mixSample p inBuf v nc) (motive := fun st => st.1.clear = b.clear) rfl
    fun _ h _ _ => (Bank.clear_step ..).trans h

/-- What one voice of the order does: nothing when it is Idle or missing, and otherwise its whole block. -/
theorem mixOne_cases (s : State) (nc ns : Nat) (st : List Bank × MixAcc) (v : Nat) :
    mixOne s nc ns st v = st ∨ ∃ b, st.1[v]? = some b ∧
      mixOne s nc ns st v =
        (st.1.set v (mixVoice s.params s.inBuf v nc ns b st.2).1, (mixVoice s.params s.inBuf v nc ns b st.2).2) := by
  unfold mixOne
  split
  · cases hb : st.1[v]? with
    | none => exact .inl rfl
    | some b => exact .inr ⟨b, rfl, rfl⟩
  · exact .inl rfl

theorem map_clear_mixOne (s : State) (nc ns : Nat) (st : List Bank × MixAcc) (v : Nat) :
    (mixOne s nc ns st v).1.map Bank.clear = st.1.map Bank.clear := by
  obtain heq | ⟨b, hb, heq⟩ := mixOne_cases s nc ns st v
  · rw [heq]
  · rw [heq]
    exact map_set_of_getElem? hb (clear_mixVoice ..)

theorem map_clear_mixAll (s : State) (nc ns : Nat) : (mixAll s nc ns).1.map Bank.clear = s.banks.map Bank.clear :=
  List.foldlRecOn s.params.voiceOrder (mixOne s nc ns)
    (motive := fun st => st.1.map Bank.clear = s.banks.map Bank.clear) rfl
    fun _ h _ _ => (map_clear_mixOne ..).trans h

/-- The commands that run filters or reset them: the writers of S1 and S2 (10_state.md R41). -/
def RunsFilters (i : Instr) : Prop :=
  (∃ w k x, i = .mfStep w k x) ∨ (∃ w x, i = .rbStep w x) ∨ (∃ ns nc, i = .mixBlock ns nc) ∨
    (∃ w k, i = .mfRst w k) ∨ ∃ w, i = .rbRst w

theorem filtersRun_of_effect (hi : RunsFilters i) (h : Effect i s t) : FiltersRun s t := by
  obtain ⟨v, m, x, rfl⟩ | ⟨v, x, rfl⟩ | ⟨ns, nc, rfl⟩ | ⟨v, m, rfl⟩ | ⟨v, rfl⟩ := hi
  · obtain ⟨b, sl, hn, -, rfl⟩ := h
    exact filtersRun_putSlot hn (Slot.clear_step ..)
  · obtain ⟨b, hb, -, rfl⟩ := h
    exact filtersRun_putBank hb (Bank.clear_step ..)
  · obtain ⟨-, -, -, rfl⟩ := h
    exact map_clear_mixAll ..
  · obtain ⟨b, sl, hn, rfl⟩ := h
    exact filtersRun_putSlot hn (Slot.clear_clear _)
  · obtain ⟨b, hb, rfl⟩ := h
    exact filtersRun_putBank hb (Bank.clear_clear _)

end Sys2Proof.Machine

/-! ## The writers of each field (10_state.md R41) -/

namespace Sys2Proof.Claims

open Sys2Proof.Machine

variable {p : Params} {s t : State} {i : Instr} {b b' : Bank} {sl sl' : Slot} {m v : Nat}

/-- A field of a slot that `i` changed is one of those it writes. -/
structure SlotWrites (i : Instr) (sl sl' : Slot) : Prop where
  freq : sl'.freq ≠ sl.freq →
    (∃ w k f d r, i = .mfCfg w k f d r) ∨ (∃ w k f, i = .rbSetfreq w k f) ∨ ∃ w f, i = .rbTune w f
  decay : sl'.decay ≠ sl.decay → (∃ w k f d r, i = .mfCfg w k f d r) ∨ ∃ w k d r, i = .rbSetdecay w k d r
  sr : sl'.sr ≠ sl.sr →
    (∃ w k f d r, i = .mfCfg w k f d r) ∨ (∃ w k d r, i = .rbSetdecay w k d r) ∨ (∃ w r, i = .rbPrep w r) ∨
      ∃ r n, i = .engPrep r n
  amp : sl'.amp ≠ sl.amp → ∃ w k a, i = .rbSetamp w k a
  coefs : (sl'.b0, sl'.a1, sl'.a2) ≠ (sl.b0, sl.a1, sl.a2) →
    (∃ w k f d r, i = .mfCfg w k f d r) ∨ (∃ w k f, i = .rbSetfreq w k f) ∨ (∃ w k d r, i = .rbSetdecay w k d r) ∨
      (∃ w f, i = .rbTune w f) ∨ (∃ w r, i = .rbPrep w r) ∨ ∃ r n, i = .engPrep r n
  state : (sl'.s1, sl'.s2) ≠ (sl.s1, sl.s2) → RunsFilters i
  tag : sl'.tag ≠ sl.tag → ∃ w k g, i = .rbSettag w k g

/-- A field of a bank, its slots included, that `i` changed is one of those it writes. -/
structure BankWrites (i : Instr) (b b' : Bank) : Prop where
  slots : ∀ (m : Nat) (sl : Slot), b.slots[m]? = some sl → ∃ sl', b'.slots[m]? = some sl' ∧ SlotWrites i sl sl'
  countPend : b'.countPend ≠ b.countPend → ∃ w n, i = .rbSetcount w n
  inForce : (b'.countEff, b'.norm) ≠ (b.countEff, b.norm) → (∃ w r, i = .rbPrep w r) ∨ ∃ r n, i = .engPrep r n
  fund : b'.fund ≠ b.fund → ∃ w f, i = .rbTune w f

/-- Every bank is still there, with no more than the fields `i` writes changed. -/
def BanksWrites (i : Instr) (s t : State) : Prop :=
  ∀ v b, s.bank? v = some b → ∃ b', t.bank? v = some b' ∧ BankWrites i b b'

/-- A global field or a buffer that `i` changed is one of those it writes. -/
structure GlobalWrites (i : Instr) (s t : State) : Prop where
  active : t.active ≠ s.active → (∃ w a, i = .mixSetact w a) ∨ i = .mixPanic
  prepared : (t.maxBlk, t.engineSr) ≠ (s.maxBlk, s.engineSr) → ∃ r n, i = .engPrep r n
  inBuf : t.inBuf ≠ s.inBuf → ∃ w n x, i = .bufWrin w n x
  outBuf : t.outBuf ≠ s.outBuf → ∃ ns nc, i = .mixBlock ns nc

theorem SlotWrites.refl (i : Instr) (sl : Slot) : SlotWrites i sl sl :=
  ⟨absurd rfl, absurd rfl, absurd rfl, absurd rfl, absurd rfl, absurd rfl, absurd rfl⟩

theorem BankWrites.refl (i : Instr) (b : Bank) : BankWrites i b b :=
  ⟨fun _ sl h => ⟨sl, h, .refl i sl⟩, absurd rfl, absurd rfl, absurd rfl⟩

theorem BanksWrites.of_banks_eq (h : t.banks = s.banks) : BanksWrites i s t := fun v b hb =>
  ⟨b, by rwa [State.bank?, h], .refl i b⟩

theorem SlotWrites.of_clear_eq (hi : RunsFilters i) (h : sl'.clear = sl.clear) : SlotWrites i sl sl' where
  freq hne := absurd (congrArg Slot.freq h) hne
  decay hne := absurd (congrArg Slot.decay h) hne
  sr hne := absurd (congrArg Slot.sr h) hne
  amp hne := absurd (congrArg Slot.amp h) hne
  coefs hne := absurd (congrArg (fun sl => (sl.b0, sl.a1, sl.a2)) h) hne
  state _ := hi
  tag hne := absurd (congrArg Slot.tag h) hne

theorem BankWrites.of_clear_eq (hi : RunsFilters i) (h : b'.clear = b.clear) : BankWrites i b b' where
  slots _ _ hs :=
    let ⟨sl', hs', hsl⟩ := Bank.exists_slot_of_clear_eq h hs
    ⟨sl', hs', .of_clear_eq hi hsl⟩
  countPend hne := absurd (congrArg Bank.countPend h) hne
  inForce hne := absurd (congrArg (fun b => (b.countEff, b.norm)) h) hne
  fund hne := absurd (congrArg Bank.fund h) hne

theorem BanksWrites.of_runsFilters (hi : RunsFilters i) (h : Effect i s t) : BanksWrites i s t := fun _ _ hb =>
  let ⟨b', hb', hclear⟩ := (filtersRun_of_effect hi h).exists_bank hb
  ⟨b', hb', .of_clear_eq hi hclear⟩

theorem BankWrites.putSlot (hs : b.slots[m]? = some sl) (h : SlotWrites i sl sl') : BankWrites i b (b.putSlot m sl') := by
  obtain ⟨hm, -⟩ := Vector.getElem?_eq_some_iff.1 hs
  refine ⟨fun k old hk => ?_, absurd rfl, absurd rfl, absurd rfl⟩
  rw [Bank.slots_putSlot hm]
  split
  · next hkm =>
    obtain rfl : sl = old := Option.some.inj (hs.symm.trans (hkm ▸ hk))
    exact ⟨sl', rfl, h⟩
  · exact ⟨old, hk, .refl i old⟩

theorem BanksWrites.putBank {w : Nat} (hw : s.bank? w = some b) (h : BankWrites i b b') : BanksWrites i s (s.putBank w b') := by
  intro v old hold
  rw [State.bank?_putBank (State.bank?_eq_some_lt hw)]
  split
  · next hv =>
    obtain rfl : b = old := Option.some.inj (hw.symm.trans (hv ▸ hold))
    exact ⟨b', rfl, h⟩
  · exact ⟨old, hold, .refl i old⟩

theorem BanksWrites.putSlot {w : BitVec 8} {k : BitVec 4} (hn : s.Names w k b sl) (h : SlotWrites i sl sl') :
    BanksWrites i s (s.putSlot w b k sl') :=
  .putBank hn.1 (.putSlot hn.2 h)

/-- Preparation writes SR, the coefficients, and the count and scale in force. -/
theorem BankWrites.prep (hi : (∃ w r, i = .rbPrep w r) ∨ ∃ r n, i = .engPrep r n) (p : Params) (b : Bank) (sr : F32) :
    BankWrites i b (b.prep p sr) := by
  refine ⟨fun m sl hs => ?_, absurd rfl, fun _ => hi, absurd rfl⟩
  rw [Bank.slots_prep, hs]
  refine ⟨_, rfl, ?_⟩
  dsimp only
  split
  · exact ⟨by simp, by simp, fun _ => .inr (.inr hi), by simp, fun _ => .inr (.inr (.inr (.inr hi))), by simp, by simp⟩
  · exact .refl i sl

theorem BankWrites.tune (w : BitVec 8) (f : F32) (p : Params) (b : Bank) :
    BankWrites (.rbTune w f) b (b.tune p f) := by
  refine ⟨fun m sl hs => ?_, absurd rfl, absurd rfl, fun _ => ⟨w, f, rfl⟩⟩
  rw [Bank.slots_tune, hs]
  exact ⟨_, rfl, by simp, by simp, by simp, by simp, by simp, by simp, by simp⟩

/-- The effect of a command on the banks: it runs filters, it writes the fields of one slot or bank, it prepares every bank,
or it leaves them alone. -/
theorem banksWrites_of_effect (h : Effect i s t) : BanksWrites i s t := by
  cases i with
  | mfStep v m x => exact .of_runsFilters (.inl ⟨v, m, x, rfl⟩) h
  | rbStep v x => exact .of_runsFilters (.inr (.inl ⟨v, x, rfl⟩)) h
  | mixBlock ns nc => exact .of_runsFilters (.inr (.inr (.inl ⟨ns, nc, rfl⟩))) h
  | mfRst v m => exact .of_runsFilters (.inr (.inr (.inr (.inl ⟨v, m, rfl⟩)))) h
  | rbRst v => exact .of_runsFilters (.inr (.inr (.inr (.inr ⟨v, rfl⟩)))) h
  | mfCfg =>
    obtain ⟨b, sl, hn, -, -, -, -, rfl⟩ := h
    exact .putSlot hn (by constructor <;> simp)
  | rbSetfreq | rbSetamp =>
    obtain ⟨b, sl, hn, -, rfl⟩ := h
    exact .putSlot hn (by constructor <;> simp)
  | rbSetdecay =>
    obtain ⟨b, sl, hn, -, -, -, rfl⟩ := h
    exact .putSlot hn (by constructor <;> simp)
  | rbSettag =>
    obtain ⟨b, sl, tag, hn, -, rfl⟩ := h
    exact .putSlot hn (by constructor <;> simp)
  | rbSetcount w n =>
    obtain ⟨b, hb, -, rfl⟩ := h
    exact .putBank hb ⟨fun _ sl hs => ⟨sl, hs, .refl _ sl⟩, fun _ => ⟨w, n, rfl⟩, absurd rfl, absurd rfl⟩
  | rbTune =>
    obtain ⟨b, hb, -, -, rfl⟩ := h
    exact .putBank hb (.tune ..)
  | rbPrep w r =>
    obtain ⟨b, hb, -, -, rfl⟩ := h
    exact .putBank hb (.prep (.inl ⟨w, r, rfl⟩) ..)
  | engPrep r n =>
    obtain ⟨-, -, -, -, rfl⟩ := h
    intro v b hb
    have hv : (s.banks.map fun b => b.prep s.params r)[v]? = some (b.prep s.params r) := by
      rw [List.getElem?_map, show s.banks[v]? = some b from hb, Option.map_some]
    exact ⟨_, hv, .prep (.inr ⟨r, n, rfl⟩) ..⟩
  | nop | mixPanic | mixCount | stClear => obtain rfl := h; exact .of_banks_eq rfl
  | mixSetact | bufRdin | bufRdout => obtain ⟨-, -, rfl⟩ := h; exact .of_banks_eq rfl
  | bufWrin => obtain ⟨-, -, -, rfl⟩ := h; exact .of_banks_eq rfl
  | rdMode => obtain ⟨b, sl, w, -, -, rfl⟩ := h; exact .of_banks_eq rfl
  | rdBank => obtain ⟨b, w, -, -, rfl⟩ := h; exact .of_banks_eq rfl
  | rdGlobal => obtain ⟨w, -, rfl⟩ := h; exact .of_banks_eq rfl

/-- The global fields and the buffers, as one tuple. -/
def globals (s : State) : Word × (Nat × F32) × Memory × Memory := (s.active, (s.maxBlk, s.engineSr), s.inBuf, s.outBuf)

theorem GlobalWrites.of_kept (h : globals t = globals s) : GlobalWrites i s t where
  active hne := absurd (congrArg Prod.fst h) hne
  prepared hne := absurd (congrArg (fun g => g.2.1) h) hne
  inBuf hne := absurd (congrArg (fun g => g.2.2.1) h) hne
  outBuf hne := absurd (congrArg (fun g => g.2.2.2) h) hne

theorem globalWrites_of_effect (h : Effect i s t) : GlobalWrites i s t := by
  cases i with
  | mixSetact w a => obtain ⟨-, -, rfl⟩ := h; exact ⟨fun _ => .inl ⟨w, a, rfl⟩, absurd rfl, absurd rfl, absurd rfl⟩
  | mixPanic => obtain rfl := h; exact ⟨fun _ => .inr rfl, absurd rfl, absurd rfl, absurd rfl⟩
  | engPrep r n => obtain ⟨-, -, -, -, rfl⟩ := h; exact ⟨absurd rfl, fun _ => ⟨r, n, rfl⟩, absurd rfl, absurd rfl⟩
  | bufWrin w n x => obtain ⟨-, -, -, rfl⟩ := h; exact ⟨absurd rfl, absurd rfl, fun _ => ⟨w, n, x, rfl⟩, absurd rfl⟩
  | mixBlock ns nc => obtain ⟨-, -, -, rfl⟩ := h; exact ⟨absurd rfl, absurd rfl, absurd rfl, fun _ => ⟨ns, nc, rfl⟩⟩
  | mfCfg => obtain ⟨b, sl, -, -, -, -, -, rfl⟩ := h; exact .of_kept rfl
  | mfRst => obtain ⟨b, sl, -, rfl⟩ := h; exact .of_kept rfl
  | mfStep | rbSetfreq | rbSetamp =>
    obtain ⟨b, sl, -, -, rfl⟩ := h; exact .of_kept rfl
  | rbSetdecay => obtain ⟨b, sl, -, -, -, -, rfl⟩ := h; exact .of_kept rfl
  | rbSettag => obtain ⟨b, sl, tag, -, -, rfl⟩ := h; exact .of_kept rfl
  | rbSetcount | rbStep => obtain ⟨b, -, -, rfl⟩ := h; exact .of_kept rfl
  | rbTune | rbPrep => obtain ⟨b, -, -, -, rfl⟩ := h; exact .of_kept rfl
  | rbRst => obtain ⟨b, -, rfl⟩ := h; exact .of_kept rfl
  | nop | mixCount | stClear => obtain rfl := h; exact .of_kept rfl
  | bufRdin | bufRdout => obtain ⟨-, -, rfl⟩ := h; exact .of_kept rfl
  | rdMode => obtain ⟨b, sl, w, -, -, rfl⟩ := h; exact .of_kept rfl
  | rdBank => obtain ⟨b, w, -, -, rfl⟩ := h; exact .of_kept rfl
  | rdGlobal => obtain ⟨w, -, rfl⟩ := h; exact .of_kept rfl

/-- Settles O20: a rejection changes only STATUS, and the effect of a row only the fields that row writes. -/
theorem fieldsChangeOnlyThroughTheirCommands : Obligations.FieldsChangeOnlyThroughTheirCommands := by
  intro i s t v m sl b h hb hs
  obtain ⟨hbanks, hg⟩ : BanksWrites i s t ∧ GlobalWrites i s t := by
    obtain ⟨c, -, rfl⟩ | he := exec_cases h
    · exact ⟨.of_banks_eq rfl, .of_kept rfl⟩
    · exact ⟨banksWrites_of_effect he, globalWrites_of_effect he⟩
  obtain ⟨b₀, hb₀, hs₀⟩ := State.slot?_eq_some.1 hs
  obtain rfl : b = b₀ := Option.some.inj (hb.symm.trans hb₀)
  obtain ⟨b', hb', hw⟩ := hbanks v b hb
  obtain ⟨sl', hs', hsw⟩ := hw.slots m sl hs₀
  exact ⟨sl', b', hb', State.slot?_eq_some.2 ⟨b', hb', hs'⟩, hsw.freq, hsw.decay, hsw.sr, hsw.amp, hsw.coefs, hsw.state,
    hsw.tag, hw.countPend, hw.inForce, hw.fund, hg.active, hg.prepared, hg.inBuf, hg.outBuf⟩

end Sys2Proof.Claims

/-! ## Well-formed configurations: what every write of a slot or a bank keeps (10_state.md R46) -/

namespace Sys2Proof.Machine

variable {p : Params} {n m : Nat} {sl sl' : Slot} {b b' : Bank} {f d r : F32}

theorem units32_pos_of_ratePositive (hx : isFinite r = true) (h : ratePositive r = true) : 0 < units32 r :=
  (lt32_iff_of_finite (by decide) hx).1 h

theorem Slot.Stable.of_coefs_eq (h : sl.Stable) (h1 : sl'.a1 = sl.a1) (h2 : sl'.a2 = sl.a2) : sl'.Stable where
  a1_finite := h1 ▸ h.a1_finite
  a2_finite := h2 ▸ h.a2_finite
  a2_nonneg := h2 ▸ h.a2_nonneg
  a2_lt_one := h2 ▸ h.a2_lt_one
  a1_lt := h1 ▸ h2 ▸ h.a1_lt

theorem Slot.Wf.of_clear_eq (hw : sl.Wf p) (h : sl'.clear = sl.clear) : sl'.Wf p := by
  obtain ⟨freq, decay, sr, amp, b0, a1, a2, s1, s2, tag⟩ := sl
  obtain ⟨freq', decay', sr', amp', b0', a1', a2', s1', s2', tag'⟩ := sl'
  simp only [Slot.clear, Slot.mk.injEq] at h
  obtain ⟨rfl, rfl, rfl, rfl, rfl, rfl, rfl, -, -, rfl⟩ := h
  exact ⟨hw.freq, hw.decay, hw.sr, hw.amp, hw.b0, hw.stable.of_coefs_eq rfl rfl⟩

theorem Slot.Wf.setFreq (h : sl.Wf p) (hf : isFinite f = true) : Slot.Wf p { sl with freq := f } :=
  ⟨hf, h.decay, h.sr, h.amp, h.b0, h.stable.of_coefs_eq rfl rfl⟩

theorem Slot.Wf.setSr (h : sl.Wf p) (hr : isFinite r = true) (hpos : ratePositive r = true) :
    Slot.Wf p { sl with sr := r } :=
  ⟨h.freq, h.decay, .inr ⟨hr, hpos⟩, h.amp, h.b0, h.stable.of_coefs_eq rfl rfl⟩

theorem Slot.Wf.setAmp (h : sl.Wf p) (hf : isFinite f = true) : Slot.Wf p { sl with amp := f } :=
  ⟨h.freq, h.decay, h.sr, hf, h.b0, h.stable.of_coefs_eq rfl rfl⟩

theorem Slot.Wf.setTag (h : sl.Wf p) (t : Tag) : Slot.Wf p { sl with tag := t } :=
  ⟨h.freq, h.decay, h.sr, h.amp, h.b0, h.stable.of_coefs_eq rfl rfl⟩

/-- The clamp stores a decay of at least the minimum (40_numerics.md R110). -/
theorem Slot.Wf.setDecay (h : sl.Wf p) (ht : isFinite p.t60MinMs = true) (hd : isFinite d = true) :
    Slot.Wf p { sl with decay := dclamp p.t60MinMs d } := by
  have hclamp : isFinite (dclamp p.t60MinMs d) = true ∧ le32 p.t60MinMs (dclamp p.t60MinMs d) = true := by
    unfold dclamp
    split
    · next hle => exact ⟨hd, hle⟩
    · exact ⟨ht, (le32_iff_of_finite ht ht).2 le_rfl⟩
  exact ⟨h.freq, hclamp, h.sr, h.amp, h.b0, h.stable.of_coefs_eq rfl rfl⟩

/-- The coefficient update keeps a slot well formed: with a rate the coefficients are those of `coef_stable`, whose decay is
positive because the minimum is. -/
theorem Slot.Wf.update (h : sl.Wf p) (hp : ParamsLegal p n) : (sl.update p).Wf p := by
  cases hrate : ratePositive sl.sr with
  | false =>
    rw [Slot.update_of_no_rate hrate]
    exact h
  | true =>
    have hsr : isFinite sl.sr = true := by
      obtain hz | ⟨hfin, -⟩ := h.sr
      · rw [hz]
        decide
      · exact hfin
    obtain ⟨htfin, htpos⟩ := hp.t60
    obtain ⟨hdfin, hdle⟩ := h.decay
    have hdpos : 0 < units32 sl.decay :=
      (units32_pos_of_ratePositive htfin htpos).trans_le ((le32_iff_of_finite htfin hdfin).1 hdle)
    have hc :=
      coef_stable hp.decay h.freq hdfin hdpos hsr (units32_pos_of_ratePositive hsr hrate)
    rw [Slot.update_of_rate hrate]
    exact ⟨h.freq, h.decay, h.sr, h.amp, hc.b0_finite,
      ⟨hc.a1_finite, hc.a2_finite, hc.a2_nonneg, hc.a2_lt_one, hc.a1_lt⟩⟩

theorem Bank.Wf.of_clear_eq (hw : b.Wf p) (h : b'.clear = b.clear) : b'.Wf p := by
  have hnorm : b'.norm = b.norm := by simpa using congrArg Bank.norm h
  have heff : b'.countEff = b.countEff := by simpa using congrArg Bank.countEff h
  have hfund : b'.fund = b.fund := by simpa using congrArg Bank.fund h
  refine ⟨by rw [hnorm, heff, hw.norm], by rw [hfund, hw.fund], fun m sl' hs => ?_⟩
  obtain ⟨sl, hsl, hclear⟩ := Bank.exists_slot_of_clear_eq h.symm hs
  exact (hw.slots m sl hsl).of_clear_eq hclear.symm

theorem Bank.Wf.putSlot (hw : b.Wf p) (h : sl'.Wf p) : (b.putSlot m sl').Wf p := by
  refine ⟨hw.norm, hw.fund, fun k sl hs => ?_⟩
  rw [Bank.putSlot, Vector.getElem?_setIfInBounds] at hs
  split at hs
  · split at hs
    · exact Option.some.inj hs ▸ h
    · cases hs
  · exact hw.slots k sl hs

theorem Bank.Wf.setCountPend (hw : b.Wf p) (k : Fin 9) : Bank.Wf p { b with countPend := k } := ⟨hw.norm, hw.fund, hw.slots⟩

theorem Bank.Wf.prep (hw : b.Wf p) (hp : ParamsLegal p n) (hr : isFinite r = true) (hpos : ratePositive r = true) :
    (b.prep p r).Wf p := by
  refine ⟨rfl, hw.fund, fun m sl' hs => ?_⟩
  rw [Bank.slots_prep, Option.map_eq_some_iff] at hs
  obtain ⟨sl, hsl, rfl⟩ := hs
  split
  · exact ((hw.slots m sl hsl).setSr hr hpos).update hp
  · exact hw.slots m sl hsl

/-- `RB.TUNE` checks every partial before it writes one (42_resonator_bank.md R147). -/
theorem Bank.Wf.tune (hw : b.Wf p) (hp : ParamsLegal p n) (hf : isFinite f = true)
    (hall : (b.partials f).toList.all isFinite = true) : (b.tune p f).Wf p := by
  refine ⟨hw.norm, hf, fun m sl' hs => ?_⟩
  rw [Bank.slots_tune, Option.map_eq_some_iff] at hs
  obtain ⟨sl, hsl, rfl⟩ := hs
  have hpartial : (b.partials f)[m]? = some (partialFreq sl.tag (b.rank m sl.tag) f) := by
    rw [Bank.partials, Vector.getElem?_mapIdx, hsl, Option.map_some]
  have hfin := List.all_eq_true.1 hall _ (Vector.mem_toList_iff.2 (Vector.mem_of_getElem? hpartial))
  exact ((hw.slots m sl hsl).setFreq hfin).update hp

/-! ## The sample buffers: canonical and inside their extent (log 9) -/

/-- A buffer is in canonical form and lists no cell at or above the bound. -/
structure Memory.Within (bound : Nat) (mem : Memory) : Prop where
  wf : mem.wf
  extent : ∀ c ∈ mem.cells, c.1 < bound

theorem Memory.Within.write {bound a : Nat} {mem : Memory} (h : mem.Within bound) (ha : a < bound) (w : Word) :
    (mem.write a w).Within bound where
  wf := Memory.write_wf h.wf a w
  extent c hc := by
    obtain rfl | hold := Memory.mem_write hc
    · exact ha
    · exact h.extent c hold

/-- The element `i` of row `k` lies inside a buffer of `rows` rows (20_memory.md R60). -/
theorem row_element_lt {rows cap k i : Nat} (hk : k < rows) (hi : i < cap) : k * cap + i < rows * cap :=
  calc k * cap + i < k * cap + cap := Nat.add_lt_add_left hi _
    _ = (k + 1) * cap := (Nat.succ_mul ..).symm
    _ ≤ rows * cap := Nat.mul_le_mul_right _ hk

/-! ## The block: `OUT` stays inside its extent -/

section outExtent
variable {nc ns : Nat} {i : Nat} {out : Memory} {acc : MixAcc}

theorem within_clearOut (hnc : nc ≤ p.numChMax) (hns : ns ≤ p.maxBlockCap)
    (h : out.Within (p.numChMax * p.maxBlockCap)) : (clearOut p nc ns out).Within (p.numChMax * p.maxBlockCap) :=
  List.foldlRecOn (List.range nc) _ (motive := Memory.Within _) h fun _ h _ hch =>
    List.foldlRecOn (List.range ns) _ (motive := Memory.Within _) h fun _ h _ hi =>
      h.write (row_element_lt ((List.mem_range.1 hch).trans_le hnc) ((List.mem_range.1 hi).trans_le hns)) zero32

theorem within_addToChannels (hnc : nc ≤ p.numChMax) (hi : i < p.maxBlockCap) (y : F32)
    (h : acc.out.Within (p.numChMax * p.maxBlockCap)) :
    ((List.range nc).foldl (addToChannel p i y) acc).out.Within (p.numChMax * p.maxBlockCap) :=
  List.foldlRecOn (List.range nc) (addToChannel p i y)
    (motive := fun acc => acc.out.Within (p.numChMax * p.maxBlockCap)) h fun _ h _ hch =>
      h.write (row_element_lt ((List.mem_range.1 hch).trans_le hnc) hi) _

theorem within_mixSample (hnc : nc ≤ p.numChMax) (hi : i < p.maxBlockCap) (inBuf : Memory) (v : Nat) {st : Bank × MixAcc}
    (h : st.2.out.Within (p.numChMax * p.maxBlockCap)) :
    (mixSample p inBuf v nc st i).2.out.Within (p.numChMax * p.maxBlockCap) := by
  unfold mixSample
  exact within_addToChannels hnc hi _ h

theorem within_mixVoice (hnc : nc ≤ p.numChMax) (hns : ns ≤ p.maxBlockCap) (inBuf : Memory) (v : Nat) (b : Bank)
    (h : acc.out.Within (p.numChMax * p.maxBlockCap)) :
    (mixVoice p inBuf v nc ns b acc).2.out.Within (p.numChMax * p.maxBlockCap) :=
  List.foldlRecOn (List.range ns) (mixSample p inBuf v nc)
    (motive := fun st => st.2.out.Within (p.numChMax * p.maxBlockCap)) h fun _ h _ hi =>
      within_mixSample hnc ((List.mem_range.1 hi).trans_le hns) _ _ h

theorem within_mixOne {s : State} (hnc : nc ≤ s.params.numChMax) (hns : ns ≤ s.params.maxBlockCap)
    {st : List Bank × MixAcc} (v : Nat) (h : st.2.out.Within (s.params.numChMax * s.params.maxBlockCap)) :
    (mixOne s nc ns st v).2.out.Within (s.params.numChMax * s.params.maxBlockCap) := by
  obtain heq | ⟨b, -, heq⟩ := mixOne_cases s nc ns st v
  · rwa [heq]
  · rw [heq]
    exact within_mixVoice hnc hns _ v b h

theorem within_mixAll {s : State} (hnc : nc ≤ s.params.numChMax) (hns : ns ≤ s.params.maxBlockCap)
    (h : s.outBuf.Within (s.params.numChMax * s.params.maxBlockCap)) :
    (mixAll s nc ns).2.out.Within (s.params.numChMax * s.params.maxBlockCap) :=
  List.foldlRecOn s.params.voiceOrder (mixOne s nc ns)
    (motive := fun st => st.2.out.Within (s.params.numChMax * s.params.maxBlockCap)) (within_clearOut hnc hns h)
    fun _ h v _ => within_mixOne hnc hns v h

end outExtent

/-! ## No NF, finite state: NF is raised by every step that leaves a value that is not finite -/

section noNf
variable {nc ns : Nat} {x : F32}

theorem Slot.stateFinite_step (h : (sl.step p x).nf = false) : (sl.step p x).st.StateFinite := by
  simp only [Slot.step, Bool.not_eq_false', Bool.and_eq_true] at h
  obtain ⟨⟨-, h1⟩, h2⟩ := h
  exact ⟨h1, h2⟩

/-- NF of a bank is NF of every active slot. -/
theorem Bank.nf_of_step {b : Bank} (h : (b.step p x).nf = false) (hs : b.slots[m]? = some sl) (hm : m < b.countEff.val) :
    (sl.step p x).nf = false := by
  have hstep : (b.stepSlots p x)[m]? = some (sl.step p x) := by
    rw [Bank.stepSlots, Vector.getElem?_mapIdx, hs, Option.map_some, if_pos hm]
  obtain ⟨hany, -⟩ := Bool.or_eq_false_iff.1 h
  exact Bool.eq_false_iff.2 (List.any_eq_false.1 hany _ (Vector.mem_toList_iff.2 (Vector.mem_of_getElem? hstep)))

theorem Bank.SamplesFinite.step (hb : b.SamplesFinite) (h : (b.step p x).nf = false) : (b.step p x).st.SamplesFinite := by
  intro m sl' hs
  rw [Bank.slots_step, Option.map_eq_some_iff] at hs
  obtain ⟨sl, hsl, rfl⟩ := hs
  split
  · next hm => exact Slot.stateFinite_step (Bank.nf_of_step h hsl hm)
  · exact hb m sl hsl

theorem Bank.SamplesFinite.putSlot (hb : b.SamplesFinite) (h : sl'.StateFinite) : (b.putSlot m sl').SamplesFinite := by
  intro k sl hs
  rw [Bank.putSlot, Vector.getElem?_setIfInBounds] at hs
  split at hs
  · split at hs
    · exact Option.some.inj hs ▸ h
    · cases hs
  · exact hb k sl hs

theorem Bank.samplesFinite_clear (b : Bank) : b.clear.SamplesFinite := by
  intro m sl' hs
  rw [Bank.slots_clear, Option.map_eq_some_iff] at hs
  obtain ⟨sl, -, rfl⟩ := hs
  have hzero : isFinite zero32 = true := by decide
  exact ⟨hzero, hzero⟩

theorem nf_of_addToChannels {i : Nat} {y : F32} {acc : MixAcc} {chs : List Nat}
    (h : (chs.foldl (addToChannel p i y) acc).nf = false) : acc.nf = false :=
  List.foldlRecOn chs (addToChannel p i y) (motive := fun st => st.nf = false → acc.nf = false) id
    (fun _ ih _ _ h => ih (Bool.or_eq_false_iff.1 h).1) h

/-- NF of a block is sticky: a voice that ends without it began without it and stepped its bank without it. -/
theorem samplesFinite_mixVoice {inBuf : Memory} {v : Nat} {acc : MixAcc} (h : (mixVoice p inBuf v nc ns b acc).2.nf = false) :
    acc.nf = false ∧ (b.SamplesFinite → (mixVoice p inBuf v nc ns b acc).1.SamplesFinite) := by
  refine List.foldlRecOn (List.range ns) (mixSample p inBuf v nc)
    (motive := fun st => st.2.nf = false → acc.nf = false ∧ (b.SamplesFinite → st.1.SamplesFinite))
    (fun h => ⟨h, id⟩) (fun st ih i _ h => ?_) h
  obtain ⟨hold, hstep⟩ := Bool.or_eq_false_iff.1 (nf_of_addToChannels h)
  obtain ⟨hacc, hb⟩ := ih hold
  exact ⟨hacc, fun h => (hb h).step hstep⟩

theorem samplesFinite_mixOne {s : State} {st : List Bank × MixAcc} {v : Nat} (h : (mixOne s nc ns st v).2.nf = false) :
    st.2.nf = false ∧ ((∀ b ∈ st.1, b.SamplesFinite) → ∀ b ∈ (mixOne s nc ns st v).1, b.SamplesFinite) := by
  obtain heq | ⟨b, hb, heq⟩ := mixOne_cases s nc ns st v
  · rw [heq] at h ⊢
    exact ⟨h, id⟩
  · rw [heq] at h ⊢
    obtain ⟨hold, hvoice⟩ := samplesFinite_mixVoice h
    refine ⟨hold, fun hall b' hb' => ?_⟩
    obtain hmem | rfl := List.mem_or_eq_of_mem_set hb'
    · exact hall b' hmem
    · exact hvoice (hall b (List.mem_of_getElem? hb))

theorem samplesFinite_mixAll {s : State} (hs : ∀ b ∈ s.banks, b.SamplesFinite) (h : (mixAll s nc ns).2.nf = false) :
    ∀ b ∈ (mixAll s nc ns).1, b.SamplesFinite :=
  List.foldlRecOn s.params.voiceOrder (mixOne s nc ns)
    (motive := fun st => st.2.nf = false → ∀ b ∈ st.1, b.SamplesFinite) (fun _ => hs)
    (fun _ ih _ _ h => (samplesFinite_mixOne h).2 (ih (samplesFinite_mixOne h).1)) h

end noNf

/-! ## What the invariant does not read: the pending commands, the responses, and ERR and LAST_ERR -/

variable {s : State}

theorem State.ConfigWf.rejected (h : s.ConfigWf) (c : Code) : (s.rejected c).ConfigWf :=
  ⟨h.params, h.banks, h.active, h.maxBlk, h.inWf, h.inExtent, h.inFinite, h.outWf, h.outExtent⟩

theorem State.ConfigWf.setPending (h : s.ConfigWf) (cmds : List Issued) : State.ConfigWf { s with pending := cmds } :=
  ⟨h.params, h.banks, h.active, h.maxBlk, h.inWf, h.inExtent, h.inFinite, h.outWf, h.outExtent⟩

theorem State.Inv.setPending (h : s.Inv) (cmds : List Issued) : State.Inv { s with pending := cmds } :=
  ⟨h.config.setPending cmds, h.nfRecorded, h.samples⟩

end Sys2Proof.Machine

/-! ## What every command keeps of the invariant -/

namespace Sys2Proof.Claims

open Sys2Proof.Machine

variable {p : Params} {s t u : State} {i : Instr} {b b' : Bank} {sl : Slot} {v m n : Nat}

/-! ### The banks -/

theorem forall_mem_set {P : Bank → Prop} {l : List Bank} (h : ∀ b ∈ l, P b) (hb : P b') : ∀ b ∈ l.set v b', P b :=
  fun b hmem => by
    obtain hold | rfl := List.mem_or_eq_of_mem_set hmem
    · exact h b hold
    · exact hb

theorem mem_banks_of_bank? (h : s.bank? v = some b) : b ∈ s.banks := List.mem_of_getElem? h

theorem banksWf_of_filtersRun (h : ∀ b ∈ s.banks, b.Wf p) (hrun : FiltersRun s t) : ∀ b ∈ t.banks, b.Wf p := by
  intro b' hb'
  have hmem : b'.clear ∈ s.banks.map Bank.clear := hrun ▸ List.mem_map_of_mem hb'
  obtain ⟨b, hb, hclear⟩ := List.mem_map.1 hmem
  exact (h b hb).of_clear_eq hclear.symm

/-- A command on one slot keeps the banks well formed when the slot it writes is. -/
theorem banksWf_putSlot {w : BitVec 8} {k : BitVec 4} (h : ∀ b ∈ s.banks, b.Wf p) (hn : s.Names w k b sl) {sl' : Slot}
    (hsl : sl.Wf p → sl'.Wf p) : ∀ b' ∈ s.banks.set w.toNat (b.putSlot k.toNat sl'), b'.Wf p :=
  have hb := h b (mem_banks_of_bank? hn.1)
  forall_mem_set h (hb.putSlot (hsl (hb.slots _ sl hn.2)))

theorem banksWf_of_effect (hp : ParamsLegal s.params n) (h : ∀ b ∈ s.banks, b.Wf s.params) (he : Effect i s t) :
    ∀ b ∈ t.banks, b.Wf s.params := by
  cases i with
  | mfStep v m x => exact banksWf_of_filtersRun h (filtersRun_of_effect (.inl ⟨v, m, x, rfl⟩) he)
  | rbStep v x => exact banksWf_of_filtersRun h (filtersRun_of_effect (.inr (.inl ⟨v, x, rfl⟩)) he)
  | mixBlock ns nc => exact banksWf_of_filtersRun h (filtersRun_of_effect (.inr (.inr (.inl ⟨ns, nc, rfl⟩))) he)
  | mfRst v m => exact banksWf_of_filtersRun h (filtersRun_of_effect (.inr (.inr (.inr (.inl ⟨v, m, rfl⟩)))) he)
  | rbRst v => exact banksWf_of_filtersRun h (filtersRun_of_effect (.inr (.inr (.inr (.inr ⟨v, rfl⟩)))) he)
  | mfCfg =>
    obtain ⟨b, sl, hn, hf, hd, hr, hpos, rfl⟩ := he
    exact banksWf_putSlot h hn fun hsl => (((hsl.setFreq hf).setDecay hp.t60.1 hd).setSr hr hpos).update hp
  | rbSetfreq =>
    obtain ⟨b, sl, hn, hf, rfl⟩ := he
    exact banksWf_putSlot h hn fun hsl => (hsl.setFreq hf).update hp
  | rbSetdecay =>
    obtain ⟨b, sl, hn, hd, hr, hpos, rfl⟩ := he
    exact banksWf_putSlot h hn fun hsl => ((hsl.setDecay hp.t60.1 hd).setSr hr hpos).update hp
  | rbSetamp =>
    obtain ⟨b, sl, hn, ha, rfl⟩ := he
    exact banksWf_putSlot h hn fun hsl => hsl.setAmp ha
  | rbSettag =>
    obtain ⟨b, sl, tag, hn, -, rfl⟩ := he
    exact banksWf_putSlot h hn fun hsl => hsl.setTag tag
  | rbSetcount =>
    obtain ⟨b, hb, -, rfl⟩ := he
    exact forall_mem_set h ((h b (mem_banks_of_bank? hb)).setCountPend _)
  | rbTune =>
    obtain ⟨b, hb, hf, hall, rfl⟩ := he
    exact forall_mem_set h ((h b (mem_banks_of_bank? hb)).tune hp hf hall)
  | rbPrep =>
    obtain ⟨b, hb, hr, hpos, rfl⟩ := he
    exact forall_mem_set h ((h b (mem_banks_of_bank? hb)).prep hp hr hpos)
  | engPrep =>
    obtain ⟨hr, hpos, -, -, rfl⟩ := he
    intro b' hb'
    obtain ⟨b, hb, rfl⟩ := List.mem_map.1 hb'
    exact (h b hb).prep hp hr hpos
  | nop | mixPanic | mixCount | stClear => obtain rfl := he; exact h
  | mixSetact | bufRdin | bufRdout => obtain ⟨-, -, rfl⟩ := he; exact h
  | bufWrin => obtain ⟨-, -, -, rfl⟩ := he; exact h
  | rdMode => obtain ⟨b, sl, w, -, -, rfl⟩ := he; exact h
  | rdBank => obtain ⟨b, w, -, -, rfl⟩ := he; exact h
  | rdGlobal => obtain ⟨w, -, rfl⟩ := he; exact h

/-! ### The global fields and the buffers: only their writers (10_state.md R41) have something to show -/

/-- No bit of a voice that does not exist comes into `G.ACTIVE` (10_state.md R36). -/
theorem setBit_and_mask {w : Word} {n v : Nat} {on : Bool} (hv : v < n)
    (h : w &&& BitVec.ofNat 32 (2 ^ n - 1) = w) : setBit w v on &&& BitVec.ofNat 32 (2 ^ n - 1) = setBit w v on := by
  have hbits : ∀ j, w.getLsbD j = true → j < n := fun j hj => by
    rw [← h] at hj
    simp only [BitVec.getLsbD_and, BitVec.getLsbD_ofNat, Nat.testBit_two_pow_sub_one, Bool.and_eq_true,
      decide_eq_true_eq] at hj
    exact hj.2.2
  refine BitVec.eq_of_getLsbD_eq fun j hj => ?_
  have hmask : (BitVec.ofNat 32 (2 ^ n - 1)).getLsbD j = decide (j < n) := by
    rw [BitVec.getLsbD_ofNat, Nat.testBit_two_pow_sub_one, decide_eq_true hj, Bool.true_and]
  have hset : (setBit w v on).getLsbD j = true → j < n := by
    unfold setBit
    split
    · simp only [BitVec.getLsbD_or, BitVec.getLsbD_twoPow, Bool.or_eq_true, Bool.and_eq_true, decide_eq_true_eq]
      rintro (hw | ⟨-, rfl⟩)
      · exact hbits j hw
      · exact hv
    · simp only [BitVec.getLsbD_and, Bool.and_eq_true]
      exact fun hw => hbits j hw.1
  rw [BitVec.getLsbD_and, hmask]
  cases hb : (setBit w v on).getLsbD j with
  | false => rfl
  | true => simpa using hset hb

theorem activeWord_of_effect (hs : s.activeWord = s.active) (he : Effect i s t) : t.activeWord = t.active := by
  have hn := (portKept_of_effect he).nVoices
  by_cases hkept : t.active = s.active
  · rw [State.activeWord, hkept, hn]
    exact hs
  · obtain ⟨v, a, rfl⟩ | rfl := (globalWrites_of_effect he).active hkept
    · obtain ⟨⟨b, hb⟩, -, rfl⟩ := he
      exact setBit_and_mask (State.bank?_eq_some_lt hb) hs
    · obtain rfl := he
      exact BitVec.zero_and

theorem maxBlk_of_effect (hs : s.maxBlk ≤ s.params.maxBlockCap) (he : Effect i s t) : t.maxBlk ≤ s.params.maxBlockCap := by
  by_cases hkept : (t.maxBlk, t.engineSr) = (s.maxBlk, s.engineSr)
  · exact (congrArg Prod.fst hkept).trans_le hs
  · obtain ⟨r, n, rfl⟩ := (globalWrites_of_effect he).prepared hkept
    obtain ⟨-, -, -, hcap, rfl⟩ := he
    exact hcap

/-- `IN` as the invariant has it: canonical, inside its extent, and finite. -/
structure InWf (s : State) : Prop where
  within : s.inBuf.Within (s.nVoices * s.params.maxBlockCap)
  finite : ∀ a, isFinite (s.inBuf.read a) = true

theorem inWf_of_effect (hs : InWf s) (he : Effect i s t) : InWf t := by
  have hk := portKept_of_effect he
  by_cases hkept : t.inBuf = s.inBuf
  · exact ⟨by rw [hkept, hk.nVoices, hk.params]; exact hs.within, by rw [hkept]; exact hs.finite⟩
  · obtain ⟨v, n, x, rfl⟩ := (globalWrites_of_effect he).inBuf hkept
    obtain ⟨⟨b, hb⟩, hn, hx, rfl⟩ := he
    refine ⟨hs.within.write (row_element_lt (State.bank?_eq_some_lt hb) hn) x, fun a => ?_⟩
    have hread := Memory.read_write hs.within.wf (aIn s.params v.toNat n.toNat) a x
    refine (congrArg isFinite hread).trans ?_
    split
    · exact hx
    · exact hs.finite a

theorem outWithin_of_effect (hmax : s.maxBlk ≤ s.params.maxBlockCap)
    (hs : s.outBuf.Within (s.params.numChMax * s.params.maxBlockCap)) (he : Effect i s t) :
    t.outBuf.Within (s.params.numChMax * s.params.maxBlockCap) := by
  by_cases hkept : t.outBuf = s.outBuf
  · rwa [hkept]
  · obtain ⟨ns, nc, rfl⟩ := (globalWrites_of_effect he).outBuf hkept
    obtain ⟨hns, -, hnc, rfl⟩ := he
    exact within_mixAll hnc (hns.trans hmax) hs

theorem configWf_of_effect (hs : s.ConfigWf) (he : Effect i s t) : t.ConfigWf := by
  have hk := portKept_of_effect he
  have hin := inWf_of_effect ⟨⟨hs.inWf, hs.inExtent⟩, hs.inFinite⟩ he
  have hout := outWithin_of_effect hs.maxBlk ⟨hs.outWf, hs.outExtent⟩ he
  have hbanks := banksWf_of_effect hs.params (State.forall_bank?_iff.1 hs.banks) he
  exact
    { params := by rw [hk.params, hk.nVoices]; exact hs.params
      banks := by rw [hk.params]; exact State.forall_bank?_iff.2 hbanks
      active := activeWord_of_effect hs.active he
      maxBlk := by rw [hk.params]; exact maxBlk_of_effect hs.maxBlk he
      inWf := hin.within.wf
      inExtent := hin.within.extent
      inFinite := hin.finite
      outWf := hout.wf
      outExtent := by rw [hk.params]; exact hout.extent }

/-! ### S1 and S2 -/

/-- A slot after a command is a slot before it with no more than the fields it writes changed. -/
theorem BanksWrites.exists_slot (h : BanksWrites i s t) (hn : t.nVoices = s.nVoices) {sl' : Slot}
    (ht : t.slot? v m = some sl') : ∃ sl, s.slot? v m = some sl ∧ SlotWrites i sl sl' := by
  obtain ⟨b', hb', hs'⟩ := State.slot?_eq_some.1 ht
  have hv : v < s.banks.length := (State.bank?_eq_some_lt hb').trans_eq hn
  obtain ⟨hm, -⟩ := Vector.getElem?_eq_some_iff.1 hs'
  have hb : s.bank? v = some s.banks[v] := List.getElem?_eq_getElem hv
  have hsl : s.banks[v].slots[m]? = some s.banks[v].slots[m] := Vector.getElem?_eq_getElem hm
  obtain ⟨b'', hb'', hw⟩ := h v _ hb
  obtain rfl : b' = b'' := Option.some.inj (hb'.symm.trans hb'')
  obtain ⟨sl'', hsl'', hsw⟩ := hw.slots m _ hsl
  obtain rfl : sl' = sl'' := Option.some.inj (hs'.symm.trans hsl'')
  exact ⟨_, State.slot?_eq_some.2 ⟨_, hb, hsl⟩, hsw⟩

theorem answers_answered (h : u.responses = s.responses) (c : Code) (r : Word) : Answers s (u.answered c r) c r := by
  rw [Answers, State.answered_responses, h]

theorem answers_completed (h : u.responses = s.responses) (nf : Bool) (r : Word) :
    Answers s (u.completed nf r) (if nf then .wNf else .ok) r := by
  rw [Answers, State.completed_responses, h]

/-- A command that ends as `completed` without reporting `W_NF` raised no NF. -/
theorem nf_of_completed {nf : Bool} {r : Word} (hu : u.responses = s.responses)
    (h : ∀ c r', Answers s (u.completed nf r) c r' → c ≠ .wNf) : nf = false := by
  cases nf with
  | false => rfl
  | true => exact absurd rfl (h .wNf r (answers_completed hu true r))

theorem samplesFinite_of_runsFilters (hs : s.SamplesFinite) (hi : RunsFilters i) (he : Effect i s t)
    (hnf : ∀ c r, Answers s t c r → c ≠ .wNf) : t.SamplesFinite := by
  rw [State.samplesFinite_iff] at hs ⊢
  obtain ⟨v, m, x, rfl⟩ | ⟨v, x, rfl⟩ | ⟨ns, nc, rfl⟩ | ⟨v, m, rfl⟩ | ⟨v, rfl⟩ := hi
  · obtain ⟨b, sl, hn, -, rfl⟩ := he
    have hstep := Slot.stateFinite_step (nf_of_completed rfl hnf)
    exact forall_mem_set hs ((hs b (mem_banks_of_bank? hn.1)).putSlot hstep)
  · obtain ⟨b, hb, -, rfl⟩ := he
    exact forall_mem_set hs ((hs b (mem_banks_of_bank? hb)).step (nf_of_completed rfl hnf))
  · obtain ⟨-, -, -, rfl⟩ := he
    exact samplesFinite_mixAll hs (nf_of_completed rfl hnf)
  · obtain ⟨b, sl, hn, rfl⟩ := he
    have hclear : sl.clear.StateFinite := (by decide : isFinite zero32 = true ∧ isFinite zero32 = true)
    exact forall_mem_set hs ((hs b (mem_banks_of_bank? hn.1)).putSlot hclear)
  · obtain ⟨b, hb, rfl⟩ := he
    exact forall_mem_set hs b.samplesFinite_clear

theorem samplesFinite_of_effect (hs : s.SamplesFinite) (he : Effect i s t) (hnf : ∀ c r, Answers s t c r → c ≠ .wNf) :
    t.SamplesFinite := by
  by_cases hi : RunsFilters i
  · exact samplesFinite_of_runsFilters hs hi he hnf
  · intro v m sl' ht
    obtain ⟨sl, hsl, hw⟩ := (banksWrites_of_effect he).exists_slot (portKept_of_effect he).nVoices ht
    have hkept : (sl'.s1, sl'.s2) = (sl.s1, sl.s2) := not_not.1 fun hne => hi (hw.state hne)
    obtain ⟨h1, h2⟩ := Prod.mk.inj hkept
    exact ⟨h1 ▸ (hs v m sl hsl).1, h2 ▸ (hs v m sl hsl).2⟩

/-! ### The record of NF -/

/-- The command answered once, and NF is set after it only where it was set before or the response reports it. -/
def NfReported (s t : State) : Prop := ∃ c r, Answers s t c r ∧ (t.status.nf = true → s.status.nf = true ∨ c = .wNf)

theorem nfReported_answered (hr : u.responses = s.responses) (hst : u.status.nf = true → s.status.nf = true) (c : Code)
    (r : Word) : NfReported s (u.answered c r) :=
  ⟨c, r, answers_answered hr c r, fun h => .inl (hst h)⟩

theorem nfReported_completed (hr : u.responses = s.responses) (hst : u.status = s.status) (nf : Bool) (r : Word) :
    NfReported s (u.completed nf r) := by
  refine ⟨if nf then .wNf else .ok, r, answers_completed hr nf r, fun h => ?_⟩
  cases nf with
  | true => exact .inr rfl
  | false => exact .inl (hst ▸ h)

theorem nfReported_of_effect (he : Effect i s t) : NfReported s t := by
  cases i with
  | mfStep => obtain ⟨b, sl, -, -, rfl⟩ := he; exact nfReported_completed rfl rfl ..
  | rbStep => obtain ⟨b, -, -, rfl⟩ := he; exact nfReported_completed rfl rfl ..
  | mixBlock => obtain ⟨-, -, -, rfl⟩ := he; exact nfReported_completed rfl rfl ..
  | stClear =>
    obtain rfl := he
    have hcleared : Status.cleared.nf = true → s.status.nf = true := fun h => nomatch h
    exact nfReported_answered (s := s) (u := { s with status := Status.cleared }) rfl hcleared ..
  | nop | mixPanic | mixCount => obtain rfl := he; exact nfReported_answered rfl id ..
  | mfCfg => obtain ⟨b, sl, -, -, -, -, -, rfl⟩ := he; exact nfReported_answered rfl id ..
  | mfRst => obtain ⟨b, sl, -, rfl⟩ := he; exact nfReported_answered rfl id ..
  | rbSetfreq | rbSetamp => obtain ⟨b, sl, -, -, rfl⟩ := he; exact nfReported_answered rfl id ..
  | rbSetdecay => obtain ⟨b, sl, -, -, -, -, rfl⟩ := he; exact nfReported_answered rfl id ..
  | rbSettag => obtain ⟨b, sl, tag, -, -, rfl⟩ := he; exact nfReported_answered rfl id ..
  | rbSetcount => obtain ⟨b, -, -, rfl⟩ := he; exact nfReported_answered rfl id ..
  | rbTune | rbPrep => obtain ⟨b, -, -, -, rfl⟩ := he; exact nfReported_answered rfl id ..
  | rbRst => obtain ⟨b, -, rfl⟩ := he; exact nfReported_answered rfl id ..
  | engPrep => obtain ⟨-, -, -, -, rfl⟩ := he; exact nfReported_answered rfl id ..
  | mixSetact | bufRdin | bufRdout => obtain ⟨-, -, rfl⟩ := he; exact nfReported_answered rfl id ..
  | bufWrin => obtain ⟨-, -, -, rfl⟩ := he; exact nfReported_answered rfl id ..
  | rdMode => obtain ⟨b, sl, w, -, -, rfl⟩ := he; exact nfReported_answered rfl id ..
  | rdBank => obtain ⟨b, w, -, -, rfl⟩ := he; exact nfReported_answered rfl id ..
  | rdGlobal => obtain ⟨w, -, rfl⟩ := he; exact nfReported_answered rfl id ..

/-! ### Steps and runs -/

/-- What executing a command keeps. -/
structure CommandKeeps (s t : State) : Prop where
  config : s.ConfigWf → t.ConfigWf
  samples : s.SamplesFinite → (∀ c r, Answers s t c r → c ≠ .wNf) → t.SamplesFinite
  nf : NfReported s t

theorem commandKeeps_rejected (s : State) (c : Code) : CommandKeeps s (s.rejected c) :=
  ⟨fun h => h.rejected c, fun h _ => h, c, 0, rfl, .inl⟩

theorem commandKeeps_of_effect (he : Effect i s t) : CommandKeeps s t :=
  ⟨fun h => configWf_of_effect h he, fun h hnf => samplesFinite_of_effect h he hnf, nfReported_of_effect he⟩

theorem commandKeeps_of_runCommand {c : Command} (h : runCommand c s = .next t) : CommandKeeps s t := by
  unfold runCommand at h
  split at h
  · next code _ =>
    obtain rfl := Host.Outcome.next.inj h
    exact commandKeeps_rejected s code
  · obtain ⟨code, -, rfl⟩ | he := exec_cases h
    · exact commandKeeps_rejected s code
    · exact commandKeeps_of_effect he

/-- A step is idle, or it keeps what a command keeps, but for the pending commands. -/
theorem step_keeps (h : step s = .next t) : t = s ∨ ∃ rest, CommandKeeps { s with pending := rest } t := by
  rw [step_eq] at h
  split at h
  · exact .inl (Host.Outcome.next.inj h).symm
  · next c rest _ => exact .inr ⟨rest, commandKeeps_of_runCommand h⟩

theorem runFaulted_of_answers {c : Code} {r : Word} (h : Answers s t c r) :
    t.runFaulted = (s.runFaulted || decide (c = .wNf)) := by
  rw [State.runFaulted, h, List.any_append, List.any_cons, List.any_nil, Bool.or_false, State.runFaulted]

theorem CommandKeeps.inv (h : CommandKeeps s t) (hs : s.Inv) : t.Inv := by
  obtain ⟨c, r, hans, hnf⟩ := h.nf
  have hfault := runFaulted_of_answers hans
  refine ⟨h.config hs.config, fun ht => ?_, fun ht => ?_⟩
  · rw [hfault]
    obtain hold | rfl := hnf ht
    · rw [hs.nfRecorded hold, Bool.true_or]
    · simp
  · rw [hfault, Bool.or_eq_false_iff] at ht
    refine h.samples (hs.samples ht.1) fun c' r' hans' hc' => ?_
    obtain ⟨hc, -⟩ : c = c' ∧ r = r' := by simpa using hans.symm.trans hans'
    exact absurd (hc.trans hc') (of_decide_eq_false ht.2)

theorem inv_of_step (hs : s.Inv) (h : step s = .next t) : t.Inv := by
  obtain rfl | ⟨rest, hk⟩ := step_keeps h
  · exact hs
  · exact hk.inv (hs.setPending rest)

theorem wellFormed_of_step (hs : s.WellFormed) (h : step s = .next t) (hnf : ∀ c r, Answers s t c r → c ≠ .wNf) :
    t.WellFormed := by
  obtain rfl | ⟨rest, hk⟩ := step_keeps h
  · exact hs
  · exact ⟨hk.config (hs.config.setPending rest), hk.samples hs.samples hnf⟩

theorem inv_of_run {k : Nat} (hs : s.Inv) (h : Sys2Proof.core.run k s = .next t) : t.Inv := by
  induction k generalizing s with
  | zero => exact core_run_zero.1 h ▸ hs
  | succ k ih =>
    obtain ⟨u, hstep, hrun⟩ := core_run_succ.1 h
    exact ih (inv_of_step hs hstep) hrun

/-- Settles O10: a command keeps each clause of the invariant, reset has it, and a run keeps what every step keeps. -/
theorem everyStepKeepsInv : Obligations.EveryStepKeepsInv := by
  refine ⟨fun _ _ => inv_of_step, fun _ _ => wellFormed_of_step, fun p n cmds s hp ht hreach hok => ?_⟩
  obtain ⟨hreset, -⟩ := State.inv_and_cleanEntry_resetWith hp ht
  have hs : s.Inv := inv_of_run (hreset.setPending cmds) hreach
  exact ⟨hs.config, hs.samples hok⟩

end Sys2Proof.Claims

/-! ## Every command answers: none hangs, faults or goes without a meaning -/

namespace Sys2Proof.Machine

variable {a b : Outcome} {s t : State}

/-- The command ran to its end: the outcome is a next state. -/
def Outcome.Completes (o : Outcome) : Prop := ∃ t, o = .next t

theorem completes_respond (c : Code) (r : Word) (s : State) : Outcome.Completes (respond c r s) := ⟨_, rfl⟩

theorem completes_reject (c : Code) (s : State) : Outcome.Completes (reject c s) := ⟨_, rfl⟩

theorem completes_complete (nf : Bool) (r : Word) (s : State) : Outcome.Completes (complete nf r s) :=
  ⟨_, complete_eq nf r s⟩

theorem completes_ite {p : Prop} [Decidable p] (ha : Outcome.Completes a) (hb : Outcome.Completes b) :
    Outcome.Completes (if p then a else b) := by
  split
  · exact ha
  · exact hb

/-- Behind a check that rejects, only the accepted case is left to look at. -/
theorem completes_check {p : Prop} [Decidable p] {c : Code} (hb : Outcome.Completes b) :
    Outcome.Completes (if p then reject c s else b) :=
  completes_ite (completes_reject c s) hb

theorem completes_onBank {v : BitVec 8} {k : Bank → Outcome} (h : ∀ b, Outcome.Completes (k b)) :
    Outcome.Completes (onBank v s k) := by
  unfold onBank
  split
  · exact completes_reject ..
  · exact h _

theorem completes_onSlot {v : BitVec 8} {m : BitVec 4} {k : Bank → Slot → Outcome}
    (h : ∀ b sl, Outcome.Completes (k b sl)) : Outcome.Completes (onSlot v m s k) := by
  refine completes_onBank fun b => ?_
  split
  · exact completes_reject ..
  · exact h b _

theorem completes_respondField (field : Option Word) (s : State) : Outcome.Completes (respondField field s) := by
  cases field with
  | none => exact completes_reject ..
  | some w => exact completes_respond ..

theorem completes_exec (i : Instr) (s : State) : Outcome.Completes (exec i s) := by
  cases i with
  | nop | mixPanic | mixCount | stClear => exact completes_respond ..
  | mfRst => exact completes_onSlot fun _ _ => completes_respond ..
  | rbSetfreq | rbSetamp => exact completes_onSlot fun _ _ => completes_check (completes_respond ..)
  | mfCfg | rbSetdecay =>
    exact completes_onSlot fun _ _ => completes_check (completes_check (completes_respond ..))
  | mfStep => exact completes_onSlot fun _ _ => completes_check (completes_complete ..)
  | rbSettag _ _ tag =>
    refine completes_onSlot fun b sl => ?_
    cases tagOfWord tag with
    | none => exact completes_reject ..
    | some t => exact completes_respond ..
  | rbSetcount _ n =>
    refine completes_onBank fun b => ?_
    split
    · exact completes_respond ..
    · exact completes_reject ..
  | rbTune | rbPrep | bufWrin =>
    exact completes_onBank fun _ => completes_check (completes_check (completes_respond ..))
  | rbRst => exact completes_onBank fun _ => completes_respond ..
  | rbStep => exact completes_onBank fun _ => completes_check (completes_complete ..)
  | mixSetact | bufRdin => exact completes_onBank fun _ => completes_check (completes_respond ..)
  | engPrep => exact completes_check (completes_check (completes_check (completes_respond ..)))
  | mixBlock => exact completes_check (completes_check (completes_complete ..))
  | bufRdout => exact completes_check (completes_check (completes_respond ..))
  | rdMode => exact completes_onSlot fun _ _ => completes_respondField ..
  | rdBank => exact completes_onBank fun _ => completes_respondField ..
  | rdGlobal => exact completes_respondField ..

/-! ## What four words do -/

variable {c : Command} {i : Instr} {code : Code}

theorem runCommand_of_decode_ok (h : decode s.nVoices c = .ok i) : runCommand c s = exec i s := by
  rw [runCommand, h]

theorem runCommand_of_decode_error (h : decode s.nVoices c = .error code) : runCommand c s = reject code s := by
  rw [runCommand, h]

theorem completes_runCommand (c : Command) (s : State) : Outcome.Completes (runCommand c s) := by
  cases h : decode s.nVoices c with
  | error code => exact runCommand_of_decode_error h ▸ completes_reject code s
  | ok i => exact runCommand_of_decode_ok h ▸ completes_exec i s

/-- Four words are rejected, by the decoder or by the command's own checks, or have the effect of a row. -/
theorem runCommand_cases (h : runCommand c s = .next t) : (∃ code, t = s.rejected code) ∨ ∃ i, Effect i s t := by
  cases hd : decode s.nVoices c with
  | error code =>
    rw [runCommand_of_decode_error hd] at h
    exact .inl ⟨code, (Host.Outcome.next.inj h).symm⟩
  | ok i =>
    rw [runCommand_of_decode_ok hd] at h
    obtain ⟨code, -, ht⟩ | he := exec_cases h
    · exact .inl ⟨code, ht⟩
    · exact .inr ⟨i, he⟩

theorem step_of_pending {agent : Agent} {rest : List Issued} (h : s.pending = ⟨agent, c⟩ :: rest) :
    step s = runCommand c { s with pending := rest } := by
  rw [step, takeCommand_cons h]

/-- R0 is the status code zero-extended: the number of the code. -/
theorem Response.toNat_r0 (r : Response) : r.r0.toNat = (Code.byte r.status).toNat :=
  BitVec.toNat_setWidth_of_le (by decide)

end Sys2Proof.Machine

namespace Sys2Proof.Claims

open Sys2Proof.Machine

variable {s t : State} {c : Command}

theorem portKept_of_runCommand (h : runCommand c s = .next t) : PortKept s t := by
  obtain ⟨code, rfl⟩ | ⟨i, he⟩ := runCommand_cases h
  · exact portKept_rejected s code
  · exact portKept_of_effect he

theorem answers_of_runCommand (h : runCommand c s = .next t) : ∃ code r, Answers s t code r := by
  obtain ⟨code, rfl⟩ | ⟨i, he⟩ := runCommand_cases h
  · exact ⟨code, 0, rfl⟩
  · obtain ⟨code, r, hans, -⟩ := nfReported_of_effect he
    exact ⟨code, r, hans⟩

/-- Settles O14: every outcome is a next state, and a rejection and the effect of every row answer once and
keep the port. -/
theorem oneResponsePerCommand : Obligations.OneResponsePerCommand := by
  intro c s
  obtain ⟨t, ht⟩ := completes_runCommand c s
  obtain ⟨code, r, hans⟩ := answers_of_runCommand ht
  exact ⟨t, ⟨code, r⟩, ht, hans, (portKept_of_runCommand ht).pending, Response.toNat_r0 _, rfl⟩

/-- Settles O7: taking the command leaves the number of voices, by which the decoder checked it. -/
theorem stepRunsTheNextCommand : Obligations.StepRunsTheNextCommand := by
  intro s a c rest i hpending hdecode
  calc step s = runCommand c { s with pending := rest } := step_of_pending hpending
    _ = exec i { s with pending := rest } := runCommand_of_decode_ok hdecode

end Sys2Proof.Claims

/-! ## The byte-wide transport -/

namespace Sys2Proof.Machine

theorem getElem?_wordBytes (w : Word) {j : Nat} (h : j < 4) : (wordBytes w)[j]? = some (w.extractLsb' (8 * j) 8) := by
  interval_cases j <;> rfl

theorem length_flatMap_wordBytes (ws : List Word) : (ws.flatMap wordBytes).length = 4 * ws.length := by
  induction ws with
  | nil => rfl
  | cons w ws ih =>
    have hword : (wordBytes w).length = 4 := rfl
    rw [List.flatMap_cons, List.length_append, ih, hword, List.length_cons]
    omega

/-- Words in sequence take four bytes each: byte `4 * k + j` is byte `j` of word `k`. -/
theorem getElem?_flatMap_wordBytes {ws : List Word} {k j : Nat} {w : Word} (hj : j < 4) (hw : ws[k]? = some w) :
    (ws.flatMap wordBytes)[4 * k + j]? = some (w.extractLsb' (8 * j) 8) := by
  induction ws generalizing k with
  | nil => cases hw
  | cons v ws ih =>
    have hword : (wordBytes v).length = 4 := rfl
    rw [List.flatMap_cons]
    cases k with
    | zero =>
      cases hw
      rw [List.getElem?_append_left (by omega), Nat.mul_zero, Nat.zero_add, getElem?_wordBytes _ hj]
    | succ k =>
      have hindex : 4 * (k + 1) + j - (wordBytes v).length = 4 * k + j := by omega
      rw [List.getElem?_append_right (by omega), hindex]
      exact ih hw

theorem Command.toBytes_eq_flatMap (c : Command) : c.toBytes = [c.w0, c.w1, c.w2, c.w3].flatMap wordBytes := rfl

theorem Response.toBytes_eq_flatMap (r : Response) : r.toBytes = [r.r0, r.r1].flatMap wordBytes := rfl

/-- The four bytes of a word, put together, are the word. -/
theorem bytesWord_extract (w : Word) :
    bytesWord (w.extractLsb' 0 8) (w.extractLsb' 8 8) (w.extractLsb' 16 8) (w.extractLsb' 24 8) = w := by
  have join {n : Nat} (i : Nat) : w.extractLsb' (i + 8) n ++ w.extractLsb' i 8 = w.extractLsb' i (n + 8) :=
    BitVec.extractLsb'_append_extractLsb'_eq_extractLsb' rfl
  rw [bytesWord, join 16, join 8, join 0]
  exact BitVec.extractLsb'_eq_self

theorem commandsOfBytes_toBytes_append (c : Command) (bytes : List Byte) :
    commandsOfBytes (c.toBytes ++ bytes) = c :: commandsOfBytes bytes := by
  simp only [Command.toBytes, wordBytes, List.cons_append, List.nil_append, commandsOfBytes, bytesWord_extract]

theorem commandsOfBytes_of_length_lt {bytes : List Byte} (h : bytes.length < 16) : commandsOfBytes bytes = [] := by
  unfold commandsOfBytes
  split
  · simp only [List.length_cons] at h
    omega
  · rfl

/-- Whole commands come back as they were sent, and what follows them is cut on its own. -/
theorem commandsOfBytes_flatten_append (cs : List Command) (bytes : List Byte) :
    commandsOfBytes ((cs.map Command.toBytes).flatten ++ bytes) = cs ++ commandsOfBytes bytes := by
  induction cs with
  | nil => rfl
  | cons c cs ih =>
    rw [List.map_cons, List.flatten_cons, List.append_assoc, commandsOfBytes_toBytes_append, ih, List.cons_append]

end Sys2Proof.Machine

namespace Sys2Proof.Claims

open Sys2Proof.Machine

/-- Settles O6: words in sequence take four bytes each, so a command is cut off the stream after sixteen. -/
theorem byteStreamDeliversWholeCommands : Obligations.ByteStreamDeliversWholeCommands := by
  refine ⟨fun c => ⟨?_, fun k j w => ?_⟩, fun r => ⟨?_, fun k j w => ?_⟩, fun s a cs tail htail => ?_⟩
  · exact length_flatMap_wordBytes [c.w0, c.w1, c.w2, c.w3]
  · exact getElem?_flatMap_wordBytes
  · exact length_flatMap_wordBytes [r.r0, r.r1]
  · exact getElem?_flatMap_wordBytes
  · rw [State.deliver, commandsOfBytes_flatten_append, commandsOfBytes_of_length_lt htail, List.append_nil]

end Sys2Proof.Claims

/-! ## The header fields as numbers, and the header word of a command whose unused bits are zero -/

namespace Sys2Proof

theorem Command.toNat_opc (c : Command) : c.opc.toNat = c.w0.toNat / 2 ^ 24 := by
  rw [Command.opc, BitVec.extractLsb'_toNat, Nat.shiftRight_eq_div_pow]
  have hlt := c.w0.isLt
  omega

theorem Command.toNat_vid (c : Command) : c.vid.toNat = c.w0.toNat / 2 ^ 16 % 256 := by
  rw [Command.vid, BitVec.extractLsb'_toNat, Nat.shiftRight_eq_div_pow]

theorem Command.toNat_mid (c : Command) : c.mid.toNat = c.w0.toNat / 2 ^ 12 % 16 := by
  rw [Command.mid, BitVec.extractLsb'_toNat, Nat.shiftRight_eq_div_pow]

/-- VID in the header of a class: 0 where the class does not use it (30_encoding.md R81). -/
def OpClass.vid : OpClass → BitVec 8 → BitVec 8
  | .vm, vid | .v, vid => vid
  | .g, _ => 0

/-- MID in the header of a class: 0 where the class does not use it (30_encoding.md R81). -/
def OpClass.mid : OpClass → BitVec 4 → BitVec 4
  | .vm, mid => mid
  | .v, _ | .g, _ => 0

/-- VID is in range, or the class does not use it (30_encoding.md R88). -/
def OpClass.voiceOk (nVoices : Nat) (v : BitVec 8) : OpClass → Bool
  | .vm | .v => decide (v.toNat < nVoices)
  | .g => true

/-- MID is in range, or the class does not use it (30_encoding.md R88). -/
def OpClass.modeOk (m : BitVec 4) : OpClass → Bool
  | .vm => decide (m.toNat < 8)
  | .v | .g => true

/-- The header bits that a class does not use: those of its mask but OPC (30_encoding.md R84). -/
def OpClass.reservedMask : OpClass → Word
  | .vm => 0x00000FFF#32
  | .v => 0x0000FFFF#32
  | .g => 0x00FFFFFF#32

theorem OpClass.exists_iff {p : OpClass → Prop} : (∃ cls, p cls) ↔ p .vm ∨ p .v ∨ p .g := by
  constructor
  · rintro ⟨_ | _ | _, h⟩ <;> simp [h]
  · rintro (h | h | h) <;> exact ⟨_, h⟩

theorem append_eq_zero_iff {k l : Nat} {x : BitVec k} {y : BitVec l} : x ++ y = 0#(k + l) ↔ x = 0#k ∧ y = 0#l := by
  simp only [← BitVec.toNat_inj, BitVec.toNat_append, BitVec.toNat_ofNat, Nat.zero_mod, Nat.or_eq_zero_iff,
    Nat.shiftLeft_eq_zero_iff]

theorem OpClass.reservedMask_eq_append (cls : OpClass) : cls.reservedMask =
    0#8 ++ (if cls = .g then BitVec.allOnes 8 else 0#8) ++ (if cls = .vm then 0#4 else BitVec.allOnes 4) ++
      BitVec.allOnes 12 := by
  cases cls <;> decide

/-- The mask picks out the fields that must be zero, and nothing else. -/
theorem Command.reservedZero_iff (c : Command) (cls : OpClass) :
    c.reservedZero cls = true ↔ c.w0 &&& cls.reservedMask = 0 := by
  rw [header_eq_append, OpClass.reservedMask_eq_append, BitVec.and_append, BitVec.and_append, BitVec.and_append,
    BitVec.and_allOnes, BitVec.ofNat_eq_ofNat, append_eq_zero_iff, append_eq_zero_iff, append_eq_zero_iff]
  have hmid : c.mid &&& 15#4 = c.mid := BitVec.and_allOnes
  have hvid : c.vid &&& 255#8 = c.vid := BitVec.and_allOnes
  cases cls <;> simp [Command.reservedZero, and_comm, hmid, hvid]

theorem Command.w0_eq_headerWord {c : Command} {cls : OpClass} (h : c.reservedZero cls = true) :
    c.w0 = headerWord c.opc (cls.vid c.vid) (cls.mid c.mid) := by
  rw [header_eq_append]
  cases cls <;> simp_all [Command.reservedZero, headerWord, OpClass.vid, OpClass.mid]

end Sys2Proof

/-! ## The rows of the opcode map (30_encoding.md R84) -/

namespace Sys2Proof

/-- The opcodes of a class (30_encoding.md R84). -/
def OpClass.opcodes : OpClass → List Nat
  | .vm => [0x01, 0x02, 0x03, 0x10, 0x11, 0x12, 0x13, 0x40]
  | .v => [0x14, 0x15, 0x16, 0x17, 0x18, 0x21, 0x30, 0x31, 0x41]
  | .g => [0x00, 0x20, 0x22, 0x23, 0x24, 0x32, 0x42, 0x43]

/-- The opcodes whose row uses operand A. -/
def opcodesUsingA : List Nat :=
  [0x01, 0x03, 0x10, 0x11, 0x12, 0x13, 0x14, 0x15, 0x16, 0x18, 0x20, 0x21, 0x22, 0x30, 0x31, 0x32, 0x40, 0x41, 0x42]

/-- The opcodes whose row uses operand B. -/
def opcodesUsingB : List Nat := [0x01, 0x11, 0x20, 0x22, 0x30, 0x32]

/-- The row of a command's opcode, if it has one, filled with the command's fields and operand words. -/
abbrev Command.row? (c : Command) : Option (OpClass × Instr) := opcodeMap c.opc c.vid c.mid c.w1 c.w2 c.w3

/-- What a row says of the command `i` that it makes of the four words `c`. -/
structure Command.FitsRow (c : Command) (cls : OpClass) (i : Instr) : Prop where
  opcode_mem : c.opc.toNat ∈ cls.opcodes
  voiceOk : ∀ n, i.voiceOk n = cls.voiceOk n c.vid
  modeOk : i.modeOk = cls.modeOk c.mid
  encode_eq : encode i = ⟨headerWord c.opc (cls.vid c.vid) (cls.mid c.mid),
    if c.opc.toNat ∈ opcodesUsingA then c.w1 else 0, if c.opc.toNat ∈ opcodesUsingB then c.w2 else 0,
    if c.opc.toNat = 0x01 then c.w3 else 0⟩

variable {c : Command} {cls : OpClass} {i : Instr}

theorem eq_ofNat_of_toNat_eq {o : BitVec 8} {k : Nat} (h : o.toNat = k) : o = BitVec.ofNat 8 k := by
  rw [← h, BitVec.ofNat_toNat, BitVec.setWidth_eq]

theorem fitsRow_of_row? (h : c.row? = some (cls, i)) : c.FitsRow cls i := by
  unfold Command.row? opcodeMap at h
  split at h
  case h_26 => cases h
  all_goals
    next htoNat =>
    have hopc := eq_ofNat_of_toNat_eq htoNat
    cases h
    exact ⟨by rw [hopc]; decide, fun _ => rfl, rfl, by rw [hopc]; rfl⟩

theorem exists_row_of_mem (h : c.opc.toNat ∈ cls.opcodes) : ∃ i, c.row? = some (cls, i) := by
  unfold Command.row? opcodeMap
  generalize c.opc.toNat = k at h ⊢
  cases cls <;> fin_cases h <;> exact ⟨_, rfl⟩

end Sys2Proof

/-! ## Decoding an encoded command, and encoding a decoded one -/

namespace Sys2Proof

open Sys2Proof.Laws.TableRow (row)

theorem row?_encode (i : Instr) : (encode i).row? = some ((row i).1, i) := by
  cases i <;> simp only [Command.row?, encode, opc_header, vid_header, mid_header] <;> rfl

theorem reservedZero_encode (i : Instr) : (encode i).reservedZero (row i).1 = true := by
  cases i <;> simp [encode, row, Command.reservedZero]

theorem decode_encode {n : Nat} {i : Instr} (h : i.WellFormed n = true) : decode n (encode i) = .ok i := by
  obtain ⟨hvoice, hmode⟩ := Bool.and_eq_true_iff.1 h
  exact decode_eq_ok.2 ⟨_, row?_encode i, reservedZero_encode i, hvoice, hmode⟩

theorem wellFormed_of_decode {n : Nat} {c : Command} {i : Instr} (h : decode n c = .ok i) : i.WellFormed n = true := by
  obtain ⟨-, -, -, hvoice, hmode⟩ := decode_eq_ok.1 h
  exact Bool.and_eq_true_iff.2 ⟨hvoice, hmode⟩

theorem encode_of_decode {n : Nat} {c : Command} {i : Instr} (h : decode n c = .ok i) :
    encode i = ⟨c.w0, if c.opc.toNat ∈ opcodesUsingA then c.w1 else 0,
      if c.opc.toNat ∈ opcodesUsingB then c.w2 else 0, if c.opc.toNat = 0x01 then c.w3 else 0⟩ := by
  obtain ⟨cls, hrow, hreserved, -, -⟩ := decode_eq_ok.1 h
  rw [Command.w0_eq_headerWord hreserved]
  exact (fitsRow_of_row? hrow).encode_eq

end Sys2Proof

namespace Sys2Proof.Claims

/-- Settles O1: an encoded command has the header fields of its row, so the row is found and each check passes. -/
theorem decodeOfEncodeIsTheCommand : Obligations.DecodeOfEncodeIsTheCommand :=
  fun _ _ => decode_encode

/-- Settles O2: the bits a class does not use were zero, and the row says which operand words the command holds. -/
theorem decodedCommandEncodesBack : Obligations.DecodedCommandEncodesBack := by
  intro n c i h
  have hwf := wellFormed_of_decode h
  have henc := encode_of_decode h
  rw [Command.toNat_opc] at henc
  refine ⟨hwf, ?_, ?_, ?_, ?_, decode_encode hwf⟩ <;> rw [henc] <;> rfl

/-- Settles O5: each word is the encoding of the well-formed command it stands for. -/
theorem specWordsDecode : Obligations.SpecWordsDecode :=
  ⟨decode_encode (i := .mfCfg 0 0 0x43DC0000 0x447A0000 0x473B8000) (by decide),
    decode_encode (i := .bufWrin 1 5 0x3F000000) (by decide), decode_encode (i := .nop) (by decide),
    decode_encode (i := .rbSetamp 2 1 0x3A03126F) (by decide), decode_encode (i := .mixBlock 2 2) (by decide)⟩

end Sys2Proof.Claims

/-! ## The checks of the decoder, in their order (30_encoding.md R88) -/

namespace Sys2Proof

variable {n : Nat} {c : Command} {e : Code}

/-- What makes the decoder reject: no row for the opcode, or the first check of the row that fails. -/
theorem decode_eq_error :
    decode n c = .error e ↔
      c.row? = none ∧ e = .eOpcode ∨
      ∃ cls i, c.row? = some (cls, i) ∧
        (c.reservedZero cls = false ∧ e = .eRsv ∨
          c.reservedZero cls = true ∧ i.voiceOk n = false ∧ e = .eVoice ∨
          c.reservedZero cls = true ∧ i.voiceOk n = true ∧ i.modeOk = false ∧ e = .eMode) := by
  unfold decode Command.row?
  cases opcodeMap c.opc c.vid c.mid c.w1 c.w2 c.w3 with
  | none => simp [eq_comm (b := e)]
  | some row =>
    obtain ⟨cls, i⟩ := row
    cases hreserved : c.reservedZero cls with
    | false => simp [hreserved, eq_comm (b := e)]
    | true =>
      cases hvoice : i.voiceOk n with
      | false => simp [hreserved, hvoice, eq_comm (b := e)]
      | true => cases hmode : i.modeOk <;> simp [hreserved, hvoice, hmode, eq_comm (b := e)]

/-- A row with a property of its checks exists exactly if the opcode's class has the property. -/
theorem exists_row_and_iff (cls : OpClass) (p : Bool → Bool → Prop) :
    (∃ i, c.row? = some (cls, i) ∧ p (i.voiceOk n) i.modeOk) ↔
      c.opc.toNat ∈ cls.opcodes ∧ p (cls.voiceOk n c.vid) (cls.modeOk c.mid) := by
  constructor
  · rintro ⟨i, hi, hp⟩
    have hfits := fitsRow_of_row? hi
    exact ⟨hfits.opcode_mem, by rwa [← hfits.voiceOk, ← hfits.modeOk]⟩
  · rintro ⟨hmem, hp⟩
    obtain ⟨i, hi⟩ := exists_row_of_mem hmem
    have hfits := fitsRow_of_row? hi
    exact ⟨i, hi, by rwa [hfits.voiceOk, hfits.modeOk]⟩

theorem row?_eq_none_iff : c.row? = none ↔ ∀ cls, c.opc.toNat ∉ OpClass.opcodes cls := by
  constructor
  · intro hnone cls hmem
    obtain ⟨i, hi⟩ := exists_row_of_mem hmem
    exact Option.some_ne_none _ (hi.symm.trans hnone)
  · intro hillegal
    refine Option.eq_none_iff_forall_not_mem.2 fun ⟨cls, i⟩ hi => ?_
    exact hillegal cls (fitsRow_of_row? hi).opcode_mem

theorem decode_eq_eOpcode : decode n c = .error .eOpcode ↔ ∀ cls, c.opc.toNat ∉ OpClass.opcodes cls := by
  rw [← row?_eq_none_iff, decode_eq_error]
  simp

theorem decode_eq_eRsv :
    decode n c = .error .eRsv ↔ ∃ cls, c.opc.toNat ∈ OpClass.opcodes cls ∧ c.w0 &&& cls.reservedMask ≠ 0 := by
  simp only [decode_eq_error, reduceCtorEq, and_false, or_false, false_or, and_true]
  refine exists_congr fun cls => ?_
  rw [exists_row_and_iff (n := n) cls fun _ _ => c.reservedZero cls = false, ← Bool.not_eq_true, c.reservedZero_iff]

theorem decode_eq_eVoice :
    decode n c = .error .eVoice ↔
      ∃ cls, c.opc.toNat ∈ OpClass.opcodes cls ∧ c.w0 &&& cls.reservedMask = 0 ∧ cls.voiceOk n c.vid = false := by
  simp only [decode_eq_error, reduceCtorEq, and_false, or_false, false_or, and_true]
  refine exists_congr fun cls => ?_
  rw [exists_row_and_iff cls fun voice _ => c.reservedZero cls = true ∧ voice = false, c.reservedZero_iff]

theorem decode_eq_eMode :
    decode n c = .error .eMode ↔
      ∃ cls, c.opc.toNat ∈ OpClass.opcodes cls ∧ c.w0 &&& cls.reservedMask = 0 ∧ cls.voiceOk n c.vid = true ∧
        cls.modeOk c.mid = false := by
  simp only [decode_eq_error, reduceCtorEq, and_false, false_or, and_true]
  refine exists_congr fun cls => ?_
  rw [exists_row_and_iff cls fun voice mode => c.reservedZero cls = true ∧ voice = true ∧ mode = false,
    c.reservedZero_iff]

theorem exists_decode_eq_ok :
    (∃ i, decode n c = .ok i) ↔
      ∃ cls, c.opc.toNat ∈ OpClass.opcodes cls ∧ c.w0 &&& cls.reservedMask = 0 ∧ cls.voiceOk n c.vid = true ∧
        cls.modeOk c.mid = true := by
  simp only [decode_eq_ok]
  rw [exists_comm]
  refine exists_congr fun cls => ?_
  rw [exists_row_and_iff cls fun voice mode => c.reservedZero cls = true ∧ voice = true ∧ mode = true,
    c.reservedZero_iff]

/-- The opcodes of no class are the five ranges of 30_encoding.md R85. -/
theorem forall_not_mem_opcodes_iff {k : Nat} : (∀ cls, k ∉ OpClass.opcodes cls) ↔
    (0x04 ≤ k ∧ k ≤ 0x0F) ∨ (0x19 ≤ k ∧ k ≤ 0x1F) ∨ (0x25 ≤ k ∧ k ≤ 0x2F) ∨ (0x33 ≤ k ∧ k ≤ 0x3F) ∨ 0x44 ≤ k := by
  simp only [← not_exists, OpClass.exists_iff, OpClass.opcodes, List.mem_cons, List.not_mem_nil, or_false]
  omega

end Sys2Proof

namespace Sys2Proof.Claims

/-- Settles O3: the opcodes without a row are those of no class. -/
theorem illegalOpcodesRejected : Obligations.IllegalOpcodesRejected := by
  intro n c
  rw [decode_eq_eOpcode, forall_not_mem_opcodes_iff, Command.toNat_opc]

/-- Settles O4: each outcome is that of the checks of a class the opcode is in, and there are three classes. -/
theorem headerChecksInOrder : Obligations.HeaderChecksInOrder := by
  intro n c
  simp only [decode_eq_eRsv, decode_eq_eVoice, decode_eq_eMode, exists_decode_eq_ok, OpClass.exists_iff,
    ← Command.toNat_opc, ← Command.toNat_vid, ← Command.toNat_mid, OpClass.reservedMask, OpClass.voiceOk,
    OpClass.modeOk, decide_eq_true_eq, decide_eq_false_iff_not, not_lt, reduceCtorEq, and_false, and_true, or_false]
  refine ⟨.rfl, ?_, .rfl, .rfl⟩
  rw [or_and_right, and_assoc, and_assoc]
  rfl

end Sys2Proof.Claims

/-! ## The step that rejects, and the idle step -/

namespace Sys2Proof.Claims

open Sys2Proof.Machine

/-- Settles O8: taking the command leaves the number of voices, by which the decoder rejects it. -/
theorem stepRejectsOrIdles : Obligations.StepRejectsOrIdles := by
  refine ⟨fun s a c rest e hpending hdecode => ?_, fun s hnone => by rw [step_eq, hnone]⟩
  calc step s = runCommand c { s with pending := rest } := step_of_pending hpending
    _ = reject e { s with pending := rest } := runCommand_of_decode_error hdecode

end Sys2Proof.Claims

/-! ## Rounding is to the nearest value, ties to even (40_numerics.md R101) -/

namespace Sys2Proof.Machine

/-- A point `b` on the near side of the midpoint of `a` and `b` is at least as near to `x` as `a` is. -/
theorem abs_sub_le_of_midpoint {R : Type*} [CommRing R] [LinearOrder R] [IsStrictOrderedRing R] {a b x : R}
    (hbelow : a < b → a + b ≤ 2 * x) (habove : b < a → 2 * x ≤ a + b) : |b - x| ≤ |a - x| := by
  rw [← sq_le_sq, ← sub_nonpos, (by ring : (b - x) ^ 2 - (a - x) ^ 2 = (b - a) * (a + b - 2 * x))]
  rcases lt_trichotomy a b with h | rfl | h
  · exact mul_nonpos_of_nonneg_of_nonpos (sub_nonneg.2 h.le) (sub_nonpos.2 (hbelow h))
  · rw [sub_self, zero_mul]
  · exact mul_nonpos_of_nonpos_of_nonneg (sub_nonpos.2 h.le) (sub_nonneg.2 (habove h))

variable {f : Fmt} {num den c p : Nat}

/-- The largest pattern at or below a value is the only one between whose value and the next one it lies. -/
theorem Fmt.eq_mk_of_between {e q : Nat} (he : e = 0 ∨ 2 ^ f.fw ≤ q) (hq : q < 2 ^ (f.fw + 1)) (hp : p < f.infMag)
    (hbase : q * 2 ^ e * den ≤ num) (hnext : num < (q + 1) * 2 ^ e * den) (hlow : f.units p * den < num)
    (hhigh : num < f.units (p + 1) * den) : p = e * 2 ^ f.fw + q := by
  have hstart : q * 2 ^ e < f.units (p + 1) := Nat.lt_of_mul_lt_mul_right (hbase.trans_lt hhigh)
  have hlt : e * 2 ^ f.fw + q < f.infMag := by
    by_contra hge
    exact not_le.2 hstart (((Fmt.units_le_iff hp le_rfl).2 hp).trans (Fmt.units_infMag_le he hq (not_lt.1 hge)))
  have hend : f.units p < (q + 1) * 2 ^ e := Nat.lt_of_mul_lt_mul_right (hlow.trans hnext)
  rw [← Fmt.units_mk he hq.le hlt.le, Fmt.units_lt_iff hlt.le hp] at hstart
  rw [← Fmt.units_succ_mk he hq hlt, Fmt.units_lt_iff hp.le hlt] at hend
  omega

/-- Between the values of `p` and `p + 1` rounding chooses by their midpoint, and on it the even pattern: a significand and
its pattern have one parity. -/
theorem Fmt.round_of_between (hfw : 1 ≤ f.fw) (hden : 0 < den) (hp : p < f.infMag) (hlow : f.units p * den < num)
    (hhigh : num < f.units (p + 1) * den) :
    f.round num den = p + if (f.units p + f.units (p + 1)) * den < 2 * num ∨
      (2 * num = (f.units p + f.units (p + 1)) * den ∧ p % 2 = 1) then 1 else 0 := by
  obtain ⟨e, q, r, he, hq, hnum, hr, hround⟩ := f.round_cases (num := num) hden
  have hstep : (q + 1) * 2 ^ e * den = q * (den * 2 ^ e) + den * 2 ^ e := by ring
  have hpq : p = e * 2 ^ f.fw + q := by
    refine Fmt.eq_mk_of_between he hq hp ?_ (by omega) hlow hhigh
    rw [hnum, Nat.mul_assoc, Nat.mul_comm (2 ^ e)]
    exact Nat.le_add_right _ _
  have hmid : (f.units p + f.units (p + 1)) * den = 2 * (q * (den * 2 ^ e)) + den * 2 ^ e := by
    rw [hpq, Fmt.units_mk he hq.le (hpq ▸ hp.le), Fmt.units_succ_mk he hq (hpq ▸ hp)]
    ring
  have hparity : p % 2 = q % 2 := by
    obtain ⟨w, hw⟩ : 2 ∣ 2 ^ f.fw := dvd_pow_self 2 (by omega)
    rw [hpq, hw, Nat.mul_left_comm, Nat.mul_add_mod]
  have hcond : (den * 2 ^ e < 2 * r ∨ (2 * r = den * 2 ^ e ∧ q % 2 = 1)) ↔
      (2 * (q * (den * 2 ^ e)) + den * 2 ^ e < 2 * num ∨
        (2 * num = 2 * (q * (den * 2 ^ e)) + den * 2 ^ e ∧ p % 2 = 1)) := by omega
  rw [hround, hmid, ← hpq, if_congr hcond rfl rfl, Nat.min_eq_left]
  split <;> omega

/-- The rounded pattern is at most `p` exactly where the value is below the midpoint of `p` and `p + 1`, or at it and `p` is
even. -/
theorem Fmt.round_le_iff (hfw : 1 ≤ f.fw) (hden : 0 < den) (hp : p < f.infMag) :
    f.round num den ≤ p ↔
      2 * num < (f.units p + f.units (p + 1)) * den ∨ (2 * num = (f.units p + f.units (p + 1)) * den ∧ p % 2 = 0) := by
  have hstep : f.units p * den < f.units (p + 1) * den := Nat.mul_lt_mul_of_pos_right (Fmt.units_lt_succ hp) hden
  rw [Nat.add_mul]
  rcases Nat.lt_or_ge num (f.units (p + 1) * den) with hhigh | hhigh
  · rcases Nat.lt_or_ge (f.units p * den) num with hlow | hlow
    · rw [Fmt.round_of_between hfw hden hp hlow hhigh, Nat.add_mul]
      split <;> omega
    · exact iff_of_true (Fmt.round_le hden hp.le hlow) (by omega)
  · have hround := Fmt.le_round hden hp hhigh
    exact iff_of_false (by omega) (by omega)

/-- Below the rounded pattern: the value is on its side of the midpoint, and at the midpoint the rounded pattern is even. -/
theorem Fmt.units_add_le_of_lt_round (hfw : 1 ≤ f.fw) (hden : 0 < den) (h : c < f.round num den) :
    (f.units c + f.units (f.round num den)) * den ≤ 2 * num ∧
      (2 * num = (f.units c + f.units (f.round num den)) * den → f.round num den % 2 = 0) := by
  have hinf := f.round_le_infMag num den
  obtain ⟨p, hp⟩ : ∃ p, f.round num den = p + 1 := ⟨_, (Nat.succ_pred_eq_of_pos (by omega)).symm⟩
  have hmid := (Fmt.round_le_iff (num := num) hfw hden (by omega : p < f.infMag)).not.1 (by omega)
  rw [hp] at h hinf ⊢
  have hle : (f.units c + f.units (p + 1)) * den ≤ (f.units p + f.units (p + 1)) * den :=
    Nat.mul_le_mul_right _ (Nat.add_le_add_right ((Fmt.units_le_iff (by omega) (by omega)).2 (by omega)) _)
  omega

/-- Above the rounded pattern, in the same way. -/
theorem Fmt.le_units_add_of_round_lt (hfw : 1 ≤ f.fw) (hden : 0 < den) (h : f.round num den < c) (hc : c ≤ f.infMag) :
    2 * num ≤ (f.units c + f.units (f.round num den)) * den ∧
      (2 * num = (f.units c + f.units (f.round num den)) * den → f.round num den % 2 = 0) := by
  have hmid := (Fmt.round_le_iff (num := num) hfw hden (h.trans_le hc)).1 le_rfl
  rw [Nat.add_comm (f.units (f.round num den))] at hmid
  have hle : (f.units (f.round num den + 1) + f.units (f.round num den)) * den ≤
      (f.units c + f.units (f.round num den)) * den :=
    Nat.mul_le_mul_right _ (Nat.add_le_add_right ((Fmt.units_le_iff (by omega) hc).2 h) _)
  omega

/-- No finite pattern is nearer to the value than the rounded one. -/
theorem Fmt.round_nearest (hfw : 1 ≤ f.fw) (hden : 0 < den) (hfin : f.round num den < f.infMag) (hc : c < f.infMag) :
    |(f.units (f.round num den) * den : Int) - num| ≤ |(f.units c * den : Int) - num| := by
  have hlt : ∀ {p q : Nat}, p ≤ f.infMag → q ≤ f.infMag → (f.units p * den : Int) < f.units q * den → p < q :=
    fun hp hq h => (Fmt.units_lt_iff hp hq).1 (Nat.lt_of_mul_lt_mul_right (by exact_mod_cast h))
  refine abs_sub_le_of_midpoint (fun h => ?_) (fun h => ?_)
  · have hside := (Fmt.units_add_le_of_lt_round (num := num) hfw hden (hlt hc.le hfin.le h)).1
    rw [← Int.add_mul]
    exact_mod_cast hside
  · have hside := (Fmt.le_units_add_of_round_lt (num := num) hfw hden (hlt hfin.le hc.le h) hc.le).1
    rw [← Int.add_mul]
    exact_mod_cast hside

/-- Where a finite pattern of another value is as near as the rounded one, the value is their midpoint and the rounded
pattern is even. -/
theorem Fmt.round_even_of_tie (hfw : 1 ≤ f.fw) (hden : 0 < den) (hc : c < f.infMag)
    (h : |(f.units (f.round num den) * den : Int) - num| = |(f.units c * den : Int) - num|) :
    f.units c = f.units (f.round num den) ∨ f.round num den % 2 = 0 := by
  rcases abs_eq_abs.1 h with h | h
  · exact .inl (Nat.mul_right_cancel hden (by omega))
  · have hmid : 2 * num = (f.units c + f.units (f.round num den)) * den := by
      rw [Nat.add_mul]
      omega
    rcases lt_trichotomy c (f.round num den) with hcr | hcr | hcr
    · exact .inr ((Fmt.units_add_le_of_lt_round hfw hden hcr).2 hmid)
    · exact .inl (congrArg f.units hcr)
    · exact .inr ((Fmt.le_units_add_of_round_lt hfw hden hcr hc.le).2 hmid)

/-- Rounding gives infinity from the midpoint of the largest finite pattern and infinity on. -/
theorem Fmt.round_eq_infMag_iff (hfw : 1 ≤ f.fw) (hden : 0 < den) (hinf : 0 < f.infMag) :
    f.round num den = f.infMag ↔ (f.units (f.infMag - 1) + f.units f.infMag) * den ≤ 2 * num := by
  have hodd : (f.infMag - 1) % 2 = 1 := by
    obtain ⟨w, hw⟩ : 2 ∣ f.infMag := (dvd_pow_self 2 (by omega)).mul_left _
    omega
  have hle := f.round_le_infMag num den
  have h := Fmt.round_le_iff (num := num) hfw hden (Nat.sub_lt hinf one_pos)
  rw [Nat.sub_add_cancel (show 1 ≤ f.infMag from hinf)] at h
  omega

end Sys2Proof.Machine

namespace Sys2Proof.Claims

open Sys2Proof.Machine

/-- Settles O24: `limit` is the midpoint of the values of the largest finite pattern and of the pattern of infinity. -/
theorem roundIsNearestTiesToEven : Obligations.RoundIsNearestTiesToEven := by
  intro f num den hf hden limit
  have hfw : 1 ≤ f.fw := by
    rcases hf with rfl | rfl <;> decide
  have hlimit : f.units (f.infMag - 1) + f.units f.infMag = 2 * limit := by
    rcases hf with rfl | rfl <;> decide +kernel
  have hinf : 0 < f.infMag := by
    rcases hf with rfl | rfl <;> decide
  refine ⟨?_, fun hfin c hc => ⟨Fmt.round_nearest hfw hden hfin hc, Fmt.round_even_of_tie hfw hden hc⟩⟩
  rw [Fmt.round_eq_infMag_iff hfw hden hinf, hlimit, Nat.mul_assoc, Nat.mul_le_mul_left_iff two_pos]

end Sys2Proof.Claims

/-! ## The operations on finite operands: the exact result, rounded once (40_numerics.md R101, R102, R105) -/

namespace Sys2Proof.Machine

/-! ### Signs -/

theorem signedUnits_mul (s t : Bool) (u w : Nat) : signedUnits (s ^^ t) (u * w) = signedUnits s u * signedUnits t w := by
  cases s <;> cases t <;> simp [signedUnits]

theorem signedUnits_mul_natCast (s : Bool) (u w : Nat) : signedUnits s (u * w) = signedUnits s u * w := by
  cases s <;> simp [signedUnits]

/-- The sign of a number other than zero is the sign bit. -/
theorem decide_signedUnits_neg {s : Bool} {u : Nat} (h : signedUnits s u ≠ 0) : decide (signedUnits s u < 0) = s := by
  cases s <;> simp [signedUnits] at h ⊢
  omega

theorem natAbs_mul_units32 (a b : F32) : (units32 a * units32 b).natAbs = b32.units a.toNat * b32.units b.toNat := by
  rw [Int.natAbs_mul, natAbs_units32, natAbs_units32]

theorem natAbs_mul_units64 (a b : F64) : (units64 a * units64 b).natAbs = b64.units a.toNat * b64.units b.toNat := by
  rw [Int.natAbs_mul, natAbs_units64, natAbs_units64]

/-- The pattern of -0.0 is the only one with a sign and no units. -/
theorem Fmt.eq_signBit_iff {f : Fmt} {x : Nat} (hx : x < 2 * f.signBit) (hm : f.mag x ≤ f.infMag) :
    x = f.signBit ↔ f.neg x = true ∧ f.units x = 0 := by
  have hpos : 0 < f.signBit := Nat.two_pow_pos _
  have hzero : f.signBit = f.pack true 0 := rfl
  constructor
  · rintro rfl
    refine ⟨Fmt.neg_pack (neg := true) hpos, ?_⟩
    calc f.units f.signBit = f.units (f.mag (f.pack true 0)) := (Fmt.units_eq_units_mag ..).symm
      _ = 0 := by rw [Fmt.mag_pack hpos, Fmt.units_zero]
  · rintro ⟨hneg, hunits⟩
    have hmag : f.mag x = 0 := by
      have := Fmt.mag_pos_iff hm
      omega
    rw [← Fmt.pack_neg_mag hx, hneg, hmag, hzero]

/-- A zero sum has a sign where both operands are -0.0, and only there. -/
theorem Fmt.pack_zero_sum {f : Fmt} {a b : Nat} (ha : a < 2 * f.signBit) (hb : b < 2 * f.signBit)
    (hma : f.mag a ≤ f.infMag) (hmb : f.mag b ≤ f.infMag)
    (h : signedUnits (f.neg a) (f.units a) + signedUnits (f.neg b) (f.units b) = 0) :
    f.pack (f.neg a && f.neg b) 0 = if a = f.signBit ∧ b = f.signBit then f.signBit else 0 := by
  have hiff : (f.neg a && f.neg b) = true ↔ a = f.signBit ∧ b = f.signBit := by
    rw [Fmt.eq_signBit_iff ha hma, Fmt.eq_signBit_iff hb hmb, Bool.and_eq_true]
    refine ⟨fun ⟨h1, h2⟩ => ?_, fun ⟨⟨h1, _⟩, h2, _⟩ => ⟨h1, h2⟩⟩
    rw [h1, h2] at h
    simp only [signedUnits, if_true] at h
    exact ⟨⟨h1, by omega⟩, h2, by omega⟩
  exact if_congr hiff rfl rfl

/-! ### Sums, differences and products -/

theorem eq_negZero32_iff (x : F32) : x = 0x80000000 ↔ x.toNat = b32.signBit := BitVec.toNat_inj.symm

theorem eq_negZero64_iff (x : F64) : x = 0x8000000000000000 ↔ x.toNat = b64.signBit := BitVec.toNat_inj.symm

theorem neg32_eq_negZero_iff (x : F32) : neg32 x = 0x80000000 ↔ x = 0x00000000 :=
  BitVec.xor_left_inj (x := x) (y := 0) 0x80000000

theorem neg64_eq_negZero_iff (x : F64) : neg64 x = 0x8000000000000000 ↔ x = 0x0000000000000000 :=
  BitVec.xor_left_inj (x := x) (y := 0) 0x8000000000000000

section ops32
variable {a b c : F32}

theorem add32_eq_round (ha : isFinite a = true) (hb : isFinite b = true) :
    add32 a b =
      if units32 a + units32 b ≠ 0 then
        BitVec.ofNat 32 (b32.pack (decide (units32 a + units32 b < 0)) (b32.round (units32 a + units32 b).natAbs 1))
      else if a = 0x80000000 ∧ b = 0x80000000 then 0x80000000 else 0x00000000 := by
  rw [add32_of_finite ha hb]
  by_cases h : units32 a + units32 b = 0
  · rw [if_pos h, if_neg (not_not.2 h),
      Fmt.pack_zero_sum a.isLt b.isLt (mag_lt_of_isFinite ha).le (mag_lt_of_isFinite hb).le h, apply_ite (BitVec.ofNat 32)]
    exact if_congr (and_congr (eq_negZero32_iff a).symm (eq_negZero32_iff b).symm) rfl rfl
  · rw [if_neg h, if_pos h]

theorem sub32_eq_round (ha : isFinite a = true) (hb : isFinite b = true) :
    sub32 a b =
      if units32 a - units32 b ≠ 0 then
        BitVec.ofNat 32 (b32.pack (decide (units32 a - units32 b < 0)) (b32.round (units32 a - units32 b).natAbs 1))
      else if a = 0x80000000 ∧ b = 0x00000000 then 0x80000000 else 0x00000000 := by
  rw [sub32_of_finite ha hb, add32_eq_round ha ((isFinite_neg32 b).trans hb), units32_neg32, ← sub_eq_add_neg]
  simp only [neg32_eq_negZero_iff]

theorem mul32_eq_round (ha : isFinite a = true) (hb : isFinite b = true) :
    mul32 a b = BitVec.ofNat 32 (b32.pack (b32.neg a.toNat ^^ b32.neg b.toNat)
      (b32.round (units32 a * units32 b).natAbs (2 ^ 149))) := by
  rw [mul32_of_finite ha hb, natAbs_mul_units32]
  rfl

/-- A binary32 other than zero is its sign and the rounding of its own value. -/
theorem pack_round_self {den : Nat} (hc : isFinite c = true) (h0 : units32 c ≠ 0) (hden : 0 < den) :
    BitVec.ofNat 32 (b32.pack (decide (units32 c < 0)) (b32.round ((units32 c).natAbs * den) den)) = c := by
  have hround : b32.round ((units32 c).natAbs * den) den = b32.mag c.toNat :=
    Fmt.round_exact hden (mag_lt_of_isFinite hc).le (by rw [natAbs_units32, Fmt.units_eq_units_mag])
  rw [hround, units32, decide_signedUnits_neg h0, pack_self32]

theorem add32_of_exact (ha : isFinite a = true) (hb : isFinite b = true) (hc : isFinite c = true) (h0 : units32 c ≠ 0)
    (h : units32 a + units32 b = units32 c) : add32 a b = c := by
  have hself := pack_round_self hc h0 one_pos
  rw [Nat.mul_one] at hself
  rw [add32_eq_round ha hb, h, if_pos h0, hself]

theorem mul32_of_exact (ha : isFinite a = true) (hb : isFinite b = true) (hc : isFinite c = true) (h0 : units32 c ≠ 0)
    (h : units32 a * units32 b = units32 c * 2 ^ 149) : mul32 a b = c := by
  have hprod : signedUnits (b32.neg a.toNat ^^ b32.neg b.toNat) (b32.units a.toNat * b32.units b.toNat) =
      units32 c * 2 ^ 149 := (signedUnits_mul ..).trans h
  have hsign : (b32.neg a.toNat ^^ b32.neg b.toNat) = decide (units32 c < 0) := by
    rw [← decide_signedUnits_neg (hprod.trans_ne (mul_ne_zero h0 (by norm_num))), hprod, decide_eq_decide]
    omega
  rw [mul32_eq_round ha hb, hsign, h, Int.natAbs_mul]
  exact pack_round_self hc h0 (Nat.two_pow_pos _)

end ops32

section ops64
variable {a b : F64}

theorem add64_eq_round (ha : isFinite64 a = true) (hb : isFinite64 b = true) :
    add64 a b =
      if units64 a + units64 b ≠ 0 then
        BitVec.ofNat 64 (b64.pack (decide (units64 a + units64 b < 0)) (b64.round (units64 a + units64 b).natAbs 1))
      else if a = 0x8000000000000000 ∧ b = 0x8000000000000000 then 0x8000000000000000 else 0x0000000000000000 := by
  rw [add64_of_finite ha hb]
  by_cases h : units64 a + units64 b = 0
  · rw [if_pos h, if_neg (not_not.2 h),
      Fmt.pack_zero_sum a.isLt b.isLt (mag_lt_of_isFinite64 ha).le (mag_lt_of_isFinite64 hb).le h,
      apply_ite (BitVec.ofNat 64)]
    exact if_congr (and_congr (eq_negZero64_iff a).symm (eq_negZero64_iff b).symm) rfl rfl
  · rw [if_neg h, if_pos h]

theorem sub64_eq_round (ha : isFinite64 a = true) (hb : isFinite64 b = true) :
    sub64 a b =
      if units64 a - units64 b ≠ 0 then
        BitVec.ofNat 64 (b64.pack (decide (units64 a - units64 b < 0)) (b64.round (units64 a - units64 b).natAbs 1))
      else if a = 0x8000000000000000 ∧ b = 0x0000000000000000 then 0x8000000000000000 else 0x0000000000000000 := by
  rw [sub64_of_finite ha hb, add64_eq_round ha ((isFinite64_neg64 b).trans hb), units64_neg64, ← sub_eq_add_neg]
  simp only [neg64_eq_negZero_iff]

theorem mul64_eq_round (ha : isFinite64 a = true) (hb : isFinite64 b = true) :
    mul64 a b = BitVec.ofNat 64 (b64.pack (b64.neg a.toNat ^^ b64.neg b.toNat)
      (b64.round (units64 a * units64 b).natAbs (2 ^ 1074))) := by
  rw [mul64_of_finite ha hb, natAbs_mul_units64, unit_b64]

theorem div64_eq_round (ha : isFinite64 a = true) (hb : isFinite64 b = true) (h0 : units64 b ≠ 0) :
    div64 a b = BitVec.ofNat 64 (b64.pack (b64.neg a.toNat ^^ b64.neg b.toNat)
      (b64.round ((units64 a).natAbs * 2 ^ 1074) (units64 b).natAbs)) := by
  rw [natAbs_units64, natAbs_units64, ← unit_b64]
  refine div64_of_finite ha hb ?_
  rw [← natAbs_units64]
  exact Int.natAbs_ne_zero.2 h0

end ops64

/-! ### Conversions -/

/-- A significand below the range of the normal ones is shifted up while its exponent allows it. -/
theorem exists_normalised (fw q k : Nat) (hq : q < 2 ^ (fw + 1)) :
    ∃ e q', e ≤ k ∧ (e = 0 ∨ 2 ^ fw ≤ q') ∧ q' < 2 ^ (fw + 1) ∧ q' * 2 ^ e = q * 2 ^ k := by
  induction k with
  | zero => exact ⟨0, q, le_rfl, .inl rfl, hq, rfl⟩
  | succ k ih =>
    obtain ⟨e, q', hek, he, hq', heq⟩ := ih
    rw [pow_succ 2 k, ← Nat.mul_assoc, ← heq]
    rcases Nat.lt_or_ge q' (2 ^ fw) with hlt | hge
    · obtain rfl : e = 0 := by omega
      exact ⟨0, q' * 2, by omega, .inl rfl, by rw [pow_succ]; omega, Nat.mul_right_comm ..⟩
    · exact ⟨e + 1, q', by omega, .inr hge, hq', by rw [pow_succ, Nat.mul_assoc]⟩

/-- The format holds every significand of its width with an exponent in its range. -/
theorem Fmt.exists_units_eq {f : Fmt} {q k : Nat} (hq : q < 2 ^ (f.fw + 1)) (hk : (k + 2) * 2 ^ f.fw ≤ f.infMag) :
    ∃ c < f.infMag, f.units c = q * 2 ^ k := by
  obtain ⟨e, q', hek, he, hq', heq⟩ := exists_normalised f.fw q k hq
  have hlt : e * 2 ^ f.fw + q' < f.infMag := by
    have hmul : e * 2 ^ f.fw ≤ k * 2 ^ f.fw := Nat.mul_le_mul_right _ hek
    rw [pow_succ] at hq'
    rw [Nat.add_mul] at hk
    omega
  exact ⟨_, hlt, (Fmt.units_mk he hq'.le hlt.le).trans heq⟩

/-- The value of a finite binary32 is a binary64 value: its significand is shorter and its exponent in range. -/
theorem exists_units_to64 {x : F32} (hx : isFinite x = true) :
    ∃ c < b64.infMag, b64.units c = b32.units x.toNat * 2 ^ 925 := by
  obtain ⟨e, q, hmag, he, hq⟩ := b32.exists_mk (b32.mag x.toNat)
  have hlt := mag_lt_of_isFinite hx
  have hunits : b32.units x.toNat = q * 2 ^ e := by
    rw [← Fmt.units_eq_units_mag, hmag, Fmt.units_mk he hq.le (hmag ▸ hlt.le)]
  have he' : e < 255 := by
    rw [hmag] at hlt
    exact Nat.lt_of_mul_lt_mul_right ((Nat.le_add_right _ _).trans_lt hlt)
  rw [hunits, Nat.mul_assoc, ← pow_add]
  exact Fmt.exists_units_eq (hq.trans_le (Nat.pow_le_pow_right two_pos (by decide)))
    (Nat.mul_le_mul_right _ (show e + 925 + 2 ≤ 2047 by omega))

/-- `to64` is exact. -/
theorem to64_exact {x : F32} (hx : isFinite x = true) :
    isFinite64 (to64 x) = true ∧ units64 (to64 x) = units32 x * 2 ^ 925 ∧ b64.neg (to64 x).toNat = b32.neg x.toNat := by
  obtain ⟨c, hc, hunits⟩ := exists_units_to64 hx
  have hround : b64.round (b32.units x.toNat * 2 ^ 925) 1 = c := Fmt.round_exact one_pos hc.le (by rw [hunits, Nat.mul_one])
  rw [to64_of_finite hx, hround]
  refine ⟨(isFinite64_pack hc.le).trans (decide_eq_true hc), ?_, neg_ofNat_pack64 hc.le⟩
  rw [units64_pack hc.le, hunits, signedUnits_mul_natCast, Nat.cast_pow, units32]
  rfl

theorem rne32_eq_round {y : F64} (hy : isFinite64 y = true) :
    rne32 y = BitVec.ofNat 32 (b32.pack (b64.neg y.toNat) (b32.round (units64 y).natAbs (2 ^ 925))) := by
  rw [rne32_of_finite hy, natAbs_units64]

/-! ### Square roots -/

/-- What the root of a positive value answers: with the largest pattern at or below the root of `n` and one step `2 ^ e` to
the next, it is one of the two, by the side of their midpoint that the root is on. -/
theorem Fmt.sqrt_cases {f : Fmt} {a u : Nat} (hview : f.view a = .fin false u) (hu : u ≠ 0) :
    ∃ e q up : Nat, (e = 0 ∨ 2 ^ f.fw ≤ q) ∧ q < 2 ^ (f.fw + 1) ∧ (q * 2 ^ e) ^ 2 ≤ u * 2 ^ f.unit ∧
      u * 2 ^ f.unit < ((q + 1) * 2 ^ e) ^ 2 ∧
      (up = 0 ∧ 4 * (u * 2 ^ f.unit) ≤ ((2 * q + 1) * 2 ^ e) ^ 2 ∨
        up = 1 ∧ ((2 * q + 1) * 2 ^ e) ^ 2 ≤ 4 * (u * 2 ^ f.unit)) ∧
      f.sqrt a = some (f.pack false (min (e * 2 ^ f.fw + q + up) f.infMag)) := by
  rw [Fmt.sqrt, hview]
  generalize hn : u * 2 ^ f.unit = n
  have hbits : n < 4 ^ (n.log2 / 2 + 1) := by
    rw [(by norm_num : 4 = 2 ^ 2), ← pow_mul]
    exact Nat.lt_log2_self.trans_le (Nat.pow_le_pow_right two_pos (by omega))
  obtain ⟨hlow, hhigh⟩ := isqrt_spec hbits
  obtain ⟨he, hq⟩ := f.round_start (isqrt n (n.log2 / 2 + 1)) 1
  simp only [Nat.div_one, Nat.one_mul] at he hq
  refine ⟨_, _, _, he, hq, ?_, ?_, ?_, (if_neg hu).trans ((if_neg Bool.false_ne_true).trans (by rw [hn]))⟩
  · exact (Nat.pow_le_pow_left (Nat.div_mul_le_self _ _) 2).trans ((sq _).trans_le hlow)
  · refine hhigh.trans_le ((sq _).symm.trans_le (Nat.pow_le_pow_left ?_ 2))
    exact Nat.lt_mul_of_div_lt (Nat.lt_succ_self _) (Nat.two_pow_pos _)
  · rw [mul_pow, ← pow_mul, Nat.mul_comm _ 2, pow_mul, sq, (by norm_num : 2 ^ 2 = 4)]
    split <;> omega

/-- Between two neighbours the pattern on the nearer side of their midpoint is the nearest one of all. -/
theorem Fmt.nearest_of_between {f : Fmt} {p up c : Nat} {x : ℝ} (hp : p < f.infMag) (hc : c ≤ f.infMag)
    (hlow : (f.units p : ℝ) ≤ x) (hhigh : x ≤ f.units (p + 1))
    (hup : up = 0 ∧ 2 * x ≤ f.units p + f.units (p + 1) ∨ up = 1 ∧ (f.units p : ℝ) + f.units (p + 1) ≤ 2 * x) :
    |(f.units (p + up) : ℝ) - x| ≤ |(f.units c : ℝ) - x| := by
  have hmono : ∀ {k l : Nat}, l ≤ f.infMag → k ≤ l → (f.units k : ℝ) ≤ f.units l := fun hl h => by
    exact_mod_cast (Fmt.units_le_iff (h.trans hl) hl).2 h
  have hside : (f.units c : ℝ) ≤ f.units p ∨ (f.units (p + 1) : ℝ) ≤ f.units c :=
    (Nat.lt_or_ge p c).symm.imp (hmono hp.le) (hmono hc)
  obtain ⟨rfl, hmid⟩ | ⟨rfl, hmid⟩ := hup
  · rw [Nat.add_zero]
    rcases hside with _ | _ <;> exact abs_sub_le_of_midpoint (fun _ => by linarith) (fun _ => by linarith)
  · rcases hside with _ | _ <;> exact abs_sub_le_of_midpoint (fun _ => by linarith) (fun _ => by linarith)

theorem natCast_le_two_mul_sqrt {m n : Nat} (h : m ^ 2 ≤ 4 * n) : (m : ℝ) ≤ 2 * √(n : ℝ) := by
  have hdiv : (m : ℝ) / 2 ≤ √(n : ℝ) := Real.le_sqrt_of_sq_le (by
    have : (m : ℝ) ^ 2 ≤ 4 * n := by exact_mod_cast h
    linarith)
  linarith

theorem two_mul_sqrt_le_natCast {m n : Nat} (h : 4 * n ≤ m ^ 2) : 2 * √(n : ℝ) ≤ m := by
  have hdiv : √(n : ℝ) ≤ (m : ℝ) / 2 := Real.sqrt_le_iff.2 ⟨by positivity, by
    have : 4 * (n : ℝ) ≤ (m : ℝ) ^ 2 := by exact_mod_cast h
    linarith⟩
  linarith

/-- Every finite binary64 is below `2 ^ 2098` units, the value of the pattern of infinity. -/
theorem units_lt_of_isFinite64 {a : F64} (ha : isFinite64 a = true) : b64.units a.toNat < 2 ^ (b64.fw + 2046) := by
  rw [← Fmt.units_eq_units_mag, ← Fmt.units_two_pow (f := b64) (e := 2046) le_rfl]
  exact Fmt.units_lt (mag_lt_of_isFinite64 ha) le_rfl

/-- The root of a finite binary64 is far inside the range: its exponent is about half the one of the operand. -/
theorem sqrt_start_lt_infMag {n e q : Nat} (hn : n < 2 ^ 3172) (he : e = 0 ∨ 2 ^ b64.fw ≤ q) (hq : q < 2 ^ (b64.fw + 1))
    (hlow : (q * 2 ^ e) ^ 2 ≤ n) : e * 2 ^ b64.fw + q + 1 < b64.infMag := by
  have he' : e ≤ 1533 := by
    rcases he with rfl | he
    · omega
    · have hpow : 2 ^ ((b64.fw + e) * 2) < 2 ^ 3172 := by
        rw [pow_mul, pow_add]
        exact ((Nat.pow_le_pow_left (Nat.mul_le_mul_right _ he) 2).trans hlow).trans_lt hn
      have hexp := (Nat.pow_lt_pow_iff_right (by norm_num)).1 hpow
      have hfw : b64.fw = 52 := rfl
      omega
  have hmul : e * 2 ^ b64.fw ≤ 1533 * 2 ^ b64.fw := Nat.mul_le_mul_right _ he'
  have hinf : 1533 * 2 ^ b64.fw + 2 ^ (b64.fw + 1) < b64.infMag := by decide
  omega

/-- The root of a positive finite binary64: a finite pattern, and none is nearer to the exact root. -/
theorem sqrt64_nearest {a : F64} (ha : isFinite64 a = true) (hneg : b64.neg a.toNat = false) (hu : b64.units a.toNat ≠ 0) :
    ∃ p < b64.infMag, sqrt64 a = BitVec.ofNat 64 (b64.pack false p) ∧ ∀ c ≤ b64.infMag,
      |(b64.units p : ℝ) - √((b64.units a.toNat * 2 ^ 1074 : Nat) : ℝ)| ≤
        |(b64.units c : ℝ) - √((b64.units a.toNat * 2 ^ 1074 : Nat) : ℝ)| := by
  have hview : b64.view a.toNat = .fin false (b64.units a.toNat) := by
    rw [Fmt.view_of_lt (mag_lt_of_isFinite64 ha), hneg]
  obtain ⟨e, q, up, he, hq, hlow, hhigh, hup, hsqrt⟩ := Fmt.sqrt_cases hview hu
  have hn : b64.units a.toNat * 2 ^ b64.unit < 2 ^ 3172 := by
    rw [show 3172 = b64.fw + 2046 + b64.unit from rfl, pow_add]
    exact Nat.mul_lt_mul_of_pos_right (units_lt_of_isFinite64 ha) (Nat.two_pow_pos _)
  rw [unit_b64] at hlow hhigh hup hn
  generalize b64.units a.toNat * 2 ^ 1074 = n at hlow hhigh hup hn ⊢
  have hlt := sqrt_start_lt_infMag hn he hq hlow
  have hstep := Fmt.units_succ_mk he hq (Nat.lt_of_succ_lt hlt)
  have hbase := Fmt.units_mk he hq.le (Nat.lt_of_succ_lt hlt).le
  have hmid : (2 * q + 1) * 2 ^ e = b64.units (e * 2 ^ b64.fw + q) + b64.units (e * 2 ^ b64.fw + q + 1) := by
    rw [hbase, hstep]
    ring
  rw [← hbase] at hlow
  rw [← hstep] at hhigh
  rw [hmid] at hup
  have hfin : e * 2 ^ b64.fw + q + up < b64.infMag := by omega
  rw [Nat.min_eq_left hfin.le] at hsqrt
  refine ⟨_, hfin, by rw [sqrt64, hsqrt], fun c hc => ?_⟩
  refine Fmt.nearest_of_between (Nat.lt_of_succ_lt hlt) hc (Real.le_sqrt_of_sq_le (by exact_mod_cast hlow))
    (Real.sqrt_le_iff.2 ⟨Nat.cast_nonneg _, by exact_mod_cast hhigh.le⟩) ?_
  rw [← Nat.cast_add]
  exact hup.imp (And.imp_right two_mul_sqrt_le_natCast) (And.imp_right natCast_le_two_mul_sqrt)

theorem neg_eq_false_of_units64_pos {a : F64} (h : 0 < units64 a) :
    b64.neg a.toNat = false ∧ units64 a = b64.units a.toNat := by
  rw [units64, signedUnits] at h ⊢
  split at h
  · omega
  · next hn => exact ⟨Bool.eq_false_iff.2 hn, if_neg hn⟩

/-- To a number that is not negative, a magnitude is at least as near as the signed value. -/
theorem abs_units_sub_le (c : F64) {x : ℝ} (hx : 0 ≤ x) : |(b64.units c.toNat : ℝ) - x| ≤ |(units64 c : ℝ) - x| := by
  have habs : |(units64 c : ℝ)| = b64.units c.toNat := by
    rw [← natAbs_units64, Nat.cast_natAbs, Int.cast_abs]
  have h := abs_abs_sub_abs_le (units64 c : ℝ) x
  rwa [habs, abs_of_nonneg hx] at h

end Sys2Proof.Machine

namespace Sys2Proof.Claims

open Sys2Proof.Machine

/-- Settles O25: each operation is one rounding of the exact result, and a value of the format rounds to itself. -/
theorem exactResultsAreKept : Obligations.ExactResultsAreKept := by
  refine ⟨fun a b c ha hb hc h0 => ⟨add32_of_exact ha hb hc h0, mul32_of_exact ha hb hc h0⟩,
    fun a b ha hb => ⟨add32_eq_round ha hb, sub32_eq_round ha hb, mul32_eq_round ha hb⟩, fun y hy => rne32_eq_round hy,
    fun x hx => to64_exact hx,
    fun a b ha hb => ⟨add64_eq_round ha hb, sub64_eq_round ha hb, mul64_eq_round ha hb, div64_eq_round ha hb⟩, ?_⟩
  intro a c ha hpos hc root
  obtain ⟨hneg, hunits⟩ := neg_eq_false_of_units64_pos hpos
  have hroot : root = √((b64.units a.toNat * 2 ^ 1074 : Nat) : ℝ) := by
    rw [Nat.cast_mul, Nat.cast_pow, Nat.cast_ofNat, ← Int.cast_natCast, ← hunits]
  obtain ⟨p, hp, hsqrt, hnearest⟩ := sqrt64_nearest ha hneg (by omega)
  have hle := hnearest (b64.mag c.toNat) (mag_lt_of_isFinite64 hc).le
  rw [← hroot, Fmt.units_eq_units_mag] at hle
  rw [hsqrt, units64_pack hp.le]
  exact ⟨(isFinite64_pack hp.le).trans (decide_eq_true hp), hle.trans (abs_units_sub_le c (Real.sqrt_nonneg _))⟩

end Sys2Proof.Claims

/-! ## The guard, the decay clamp and the flush (40_numerics.md R110, R116, R118) -/

namespace Sys2Proof.Machine

theorem jury_of_lt {a1 a2 : F32} (h : |units32 a1| < 2 ^ 149 + units32 a2) : jury a1 a2 = a1 := by
  rw [Int.abs_eq_natAbs, natAbs_units32] at h
  have hin : decide (2 ^ b32.unit + units32 a2 ≤ (b32.units a1.toNat : Int)) = false := decide_eq_false (not_le.2 h)
  rw [jury, hin, Bool.and_false, if_neg Bool.false_ne_true]

theorem jury_of_le {a1 a2 : F32} (h1 : isFinite a1 = true) (h : 2 ^ 149 + units32 a2 ≤ |units32 a1|) :
    jury a1 a2 = BitVec.ofNat 32 (b32.pack (b32.neg a1.toNat) (belowOnePlus a2)) := by
  rw [Int.abs_eq_natAbs, natAbs_units32] at h
  have hview : b32.view a1.toNat ≠ .nan := by
    rw [Fmt.view_of_lt (mag_lt_of_isFinite h1)]
    exact FpView.noConfusion
  have hout : 2 ^ b32.unit + units32 a2 ≤ (b32.units a1.toNat : Int) := h
  rw [jury, decide_eq_true hview, decide_eq_true hout, Bool.and_self, if_pos rfl]

theorem belowOnePlus_lt (a2 : F32) : belowOnePlus a2 < b32.infMag := b32.trunc_lt (by decide) _

/-- No finite value strictly below `1 + a2` is above `belowOnePlus a2`. -/
theorem units32_le_belowOnePlus {a2 x : F32} (hx : isFinite x = true) (h : units32 x < 2 ^ 149 + units32 a2) :
    units32 x ≤ b32.units (belowOnePlus a2) := by
  rcases Int.le_total (units32 x) 0 with h0 | h0
  · exact h0.trans (Int.natCast_nonneg _)
  · have hm := mag_lt_of_isFinite hx
    have habs := natAbs_units32 x
    have hle : b32.units (b32.mag x.toNat) ≤ (2 ^ b32.unit + units32 a2 - 1).toNat := by
      rw [Fmt.units_eq_units_mag, show b32.unit = 149 from rfl]
      omega
    have hunits := (Fmt.units_le_iff hm.le (belowOnePlus_lt a2).le).2 (Fmt.le_trunc hm hle)
    rw [Fmt.units_eq_units_mag] at hunits
    omega

theorem dclamp_of_le {least d : F32} (hl : isFinite least = true) (hd : isFinite d = true)
    (h : units32 least ≤ units32 d) : dclamp least d = d := if_pos ((le32_iff_of_finite hl hd).2 h)

theorem dclamp_of_lt {least d : F32} (hl : isFinite least = true) (hd : isFinite d = true)
    (h : units32 d < units32 least) : dclamp least d = least :=
  if_neg fun hle => not_le.2 h ((le32_iff_of_finite hl hd).1 hle)

theorem flush_of_finite {eps s : F32} (he : isFinite eps = true) (hs : isFinite s = true) :
    flush eps s = if |units32 s| < units32 eps then zero32 else s := by
  have hlt : lt32 (abs32 s) eps = true ↔ |units32 s| < units32 eps := by
    rw [lt32_iff_of_finite ((isFinite_abs32 s).trans hs) he, units32_abs32]
  rw [flush]
  exact if_congr hlt rfl rfl

/-- An infinity and a NaN are not below a finite value, whatever their sign bit: the comparison is of `abs32`. -/
theorem flush_of_not_finite {eps s : F32} (he : isFinite eps = true) (hs : isFinite s = false) : flush eps s = s := by
  have hmag : b32.infMag ≤ b32.mag s.toNat := not_lt.1 (of_decide_eq_false hs)
  have he' := mag_lt_of_isFinite he
  refine if_neg fun h => ?_
  obtain ⟨-, -, hkey⟩ := Fmt.lt_iff.1 h
  rw [Fmt.key, Fmt.key, mag_abs32, neg_abs32] at hkey
  unfold signedUnits at hkey
  split_ifs at hkey <;> omega

end Sys2Proof.Machine

namespace Sys2Proof.Claims

open Sys2Proof.Machine

/-- Settles O26: inside the bound the guard is the identity, and outside it `belowOnePlus` is the largest magnitude left. -/
theorem juryGuardIsStrict : Obligations.JuryGuardIsStrict := by
  intro a1 a2 h1 _ h0 _ l
  obtain ⟨hfin, hlt⟩ := jury_inside h1 h0
  refine ⟨hfin, hlt, jury_of_lt, fun hout => ?_⟩
  have hb := belowOnePlus_lt a2
  rw [jury_of_le h1 hout, Int.abs_eq_natAbs, natAbs_units32, units_ofNat_pack32 hb.le]
  exact ⟨by rw [toNat_pack32 hb.le, Fmt.neg_pack (hb.trans b32.infMag_lt_signBit)], fun x hx => units32_le_belowOnePlus hx⟩

/-- Settles O27: the clamp compares exact values, and the default minimum is 1.0. -/
theorem decayBelowTheMinimumStoresAsIt : Obligations.DecayBelowTheMinimumStoresAsIt :=
  ⟨fun _ _ hl hd => ⟨dclamp_of_le hl hd, dclamp_of_lt hl hd⟩,
    fun _ hd h => dclamp_of_lt (least := 0x3F800000) (by decide) hd h⟩

/-- Settles O28: the flush compares the exact magnitude of a finite value and keeps everything else. -/
theorem flushZeroesSmallValuesOnly : Obligations.FlushZeroesSmallValuesOnly := by
  refine ⟨fun eps s he _ => ⟨fun hs h => ?_, fun hs h => ?_, flush_of_not_finite he⟩, fun _ _ _ => ⟨rfl, rfl⟩⟩
  · exact (flush_of_finite he hs).trans (if_pos h)
  · rw [flush_of_finite he hs, if_neg (not_lt.2 h)]

/-- Settles O31: the bounds of the clamped functions, proved with the coefficients. -/
theorem configurationFunctionsKeepTheirBounds : Obligations.ConfigurationFunctionsKeepTheirBounds :=
  ⟨expBounded_fnExp, cosBounded_fnCos⟩

/-- Settles O32: a decay of at least 1 ms is positive, and the coefficients of every positive decay are stable. -/
theorem coefficientsAreStable : Obligations.CoefficientsAreStable := by
  intro k f d sr hk hf hd hd1 hsr hpos
  have h := coef_stable hk hf hd (lt_of_lt_of_le (by norm_num) hd1) hsr hpos
  exact ⟨h.b0_finite, h.a1_finite, h.a2_finite, h.a2_nonneg, h.a2_lt_one, h.a1_lt⟩

/-- Settles O29: the tables are finite, and each entry and its formula are evaluated. -/
theorem tablesAreTheirFormulas : Obligations.TablesAreTheirFormulas := by
  refine ⟨by decide, ?_, by decide, fun k h1 h8 => ?_⟩
  · decide +kernel
  · interval_cases k <;> decide +kernel

/-- Settles O30: it is the definition of `coef`, its helper functions and constants written out. -/
theorem coefIsTheFormula : Obligations.CoefIsTheFormula := fun _ _ _ _ => ⟨rfl, rfl, rfl⟩

end Sys2Proof.Claims

/-! ## Configuring a slot, and configuring it again -/

namespace Sys2Proof.Machine

variable {s : State} {v : BitVec 8} {m : BitVec 4} {b : Bank} {sl : Slot} {p : Params} {freq decay sr : F32}

/-- What `MF.CFG` makes of a slot (41_modal_filter.md R131). -/
def Slot.configured (p : Params) (freq decay sr : F32) (sl : Slot) : Slot :=
  ({ sl with freq := freq, decay := dclamp p.t60MinMs decay, sr := sr } : Slot).update p

/-- The update overwrites the coefficients from the other fields, so none of those it overwrites reaches the slot again. -/
theorem Slot.configured_configured :
    (sl.configured p freq decay sr).configured p freq decay sr = sl.configured p freq decay sr := by
  unfold Slot.configured Slot.update
  split <;> rfl

/-- `RB.SETFREQ` of the frequency a slot was configured with recomputes the same coefficients (42_resonator_bank.md R142). -/
theorem Slot.update_freq_configured :
    ({ sl.configured p freq decay sr with freq := freq } : Slot).update p = sl.configured p freq decay sr := by
  unfold Slot.configured Slot.update
  split <;> rfl

theorem exec_mfCfg_of_names (hn : s.Names v m b sl) (hf : isFinite freq = true) (hd : isFinite decay = true)
    (hsr : isFinite sr = true) (hpos : ratePositive sr = true) :
    exec (.mfCfg v m freq decay sr) s = .next ((s.putSlot v b m (sl.configured s.params freq decay sr)).answered .ok 0) := by
  calc exec (.mfCfg v m freq decay sr) s = execMfCfg v m freq decay sr s := rfl
    _ = _ := by
      rw [execMfCfg, onSlot_of_some hn.1 hn.2, hf, hd, hsr, hpos]
      rfl

theorem exec_rbSetfreq_of_names (hn : s.Names v m b sl) (hf : isFinite freq = true) :
    exec (.rbSetfreq v m freq) s =
      .next ((s.putSlot v b m (({ sl with freq := freq } : Slot).update s.params)).answered .ok 0) := by
  calc exec (.rbSetfreq v m freq) s = execRbSetfreq v m freq s := rfl
    _ = _ := by
      rw [execRbSetfreq, onSlot_of_some hn.1 hn.2, hf]
      rfl

/-- `MF.CFG` leaves the configured slot in the place it names. -/
theorem exists_names_of_mfCfg (hn : s.Names v m b sl) (hf : isFinite freq = true) (hd : isFinite decay = true)
    (hsr : isFinite sr = true) (hpos : ratePositive sr = true) :
    ∃ t b', exec (.mfCfg v m freq decay sr) s = .next t ∧ t.params = s.params ∧
      t.Names v m b' (sl.configured s.params freq decay sr) := by
  obtain ⟨b', hn'⟩ := State.slot?_eq_some.1 ((State.slot?_putSlot hn.1 hn.2 (sl.configured s.params freq decay sr) _ _).trans
    (if_pos ⟨rfl, rfl⟩))
  exact ⟨_, b', exec_mfCfg_of_names hn hf hd hsr hpos, rfl, hn'⟩

/-- Writing the slot that already stands there changes no slot. -/
theorem State.slot?_putSlot_self (hn : s.Names v m b sl) (w k : Nat) : (s.putSlot v b m sl).slot? w k = s.slot? w k := by
  rw [State.slot?_putSlot hn.1 hn.2]
  split
  · next h =>
    obtain ⟨rfl, rfl⟩ := h
    exact (State.slot?_eq_some.2 ⟨b, hn⟩).symm
  · rfl

end Sys2Proof.Machine

namespace Sys2Proof.Claims

open Sys2Proof.Machine

/-- Settles O37: the configured slot is a fixed point of both commands. -/
theorem configuringTwiceIsConfiguringOnce : Obligations.ConfiguringTwiceIsConfiguringOnce := by
  intro s v m freq decay sr sl hslot hf hd hsr hpos
  have hrate : ratePositive sr = true := (lt32_iff_of_finite (by decide) hsr).2 hpos
  obtain ⟨b, hn⟩ := State.slot?_eq_some.1 hslot
  obtain ⟨t, b', ht, hparams, hn'⟩ := exists_names_of_mfCfg (decay := decay) hn hf hd hsr hrate
  refine ⟨t, _, ht, exec_mfCfg_of_names hn' hf hd hsr hrate, ?_, _, exec_rbSetfreq_of_names hn' hf, ?_⟩
  · rw [hparams, Slot.configured_configured]
    exact State.slot?_putSlot_self hn'
  · rw [hparams, Slot.update_freq_configured]
    exact State.slot?_putSlot_self hn'

end Sys2Proof.Claims

/-! ## Writing one slot: its place in the state, and what a command that does so leaves as it was -/

namespace Sys2Proof.Claims

open Sys2Proof.Machine

variable {s u : State} {v : BitVec 8} {m : BitVec 4} {b : Bank} {sl : Slot} {i : Instr}

theorem RestKept.answered (h : RestKept s u) (c : Code) (r : Word) : RestKept s (u.answered c r) :=
  ⟨h.port.answered c r, ⟨h.globals.active, h.globals.maxBlk, h.globals.engineSr⟩, ⟨h.buffers.inBuf, h.buffers.outBuf⟩⟩

theorem RestKept.completed (h : RestKept s u) (nf : Bool) (r : Word) : RestKept s (u.completed nf r) :=
  ⟨h.port.completed nf r, ⟨h.globals.active, h.globals.maxBlk, h.globals.engineSr⟩, ⟨h.buffers.inBuf, h.buffers.outBuf⟩⟩

theorem restKept_putBank (s : State) (v : Nat) (b : Bank) : RestKept s (s.putBank v b) :=
  ⟨portKept_putBank s v b, ⟨rfl, rfl, rfl⟩, ⟨fun _ => rfl, fun _ => rfl⟩⟩

theorem restKept_putSlot (s : State) (v : BitVec 8) (b : Bank) (m : BitVec 4) (sl : Slot) :
    RestKept s (s.putSlot v b m sl) :=
  restKept_putBank s v.toNat _

theorem OnlySlot.answered {v m : Nat} (h : OnlySlot s u v m sl) (c : Code) (r : Word) : OnlySlot s (u.answered c r) v m sl :=
  ⟨h.slot, h.others, h.fields⟩

theorem OnlySlot.completed {v m : Nat} (h : OnlySlot s u v m sl) (nf : Bool) (r : Word) :
    OnlySlot s (u.completed nf r) v m sl :=
  ⟨h.slot, h.others, h.fields⟩

/-- Only the slot is replaced in its bank, and only that bank in the state. -/
theorem onlySlot_putSlot (hn : s.Names v m b sl) (sl' : Slot) : OnlySlot s (s.putSlot v b m sl') v.toNat m.toNat sl' where
  slot := (State.slot?_putSlot hn.1 hn.2 sl' _ _).trans (if_pos ⟨rfl, rfl⟩)
  others w k hwk := (State.slot?_putSlot hn.1 hn.2 sl' w k).trans (if_neg (not_and_or.2 hwk))
  fields w := by
    rw [State.putSlot, State.bank?_putBank (State.bank?_eq_some_lt hn.1)]
    split
    · next hw =>
      rw [hw, hn.1]
      rfl
    · rfl

/-- The two ends of a command that may raise NF (60_exceptions.md R226). -/
theorem endsWithNf_completed {nf : Bool} {P : Prop} (hstatus : u.status = s.status) (hresp : u.responses = s.responses)
    (hnf : nf = true ↔ P) (r : Word) : EndsWithNf s (u.completed nf r) P r := by
  cases nf with
  | true => exact ⟨fun _ => ⟨congrArg (· ++ _) hresp, congrArg Status.onNF hstatus⟩, fun h => absurd (hnf.1 rfl) h⟩
  | false => exact ⟨fun h => absurd (hnf.2 h) Bool.false_ne_true, fun _ => ⟨congrArg (· ++ _) hresp, hstatus⟩⟩

/-- A command that writes one slot and answers `OK`: the response, the status and the frame. -/
theorem exists_onlySlot_of_exec {sl' : Slot} (hn : s.Names v m b sl)
    (h : exec i s = .next ((s.putSlot v b m sl').answered .ok 0)) :
    ∃ t, exec i s = .next t ∧ Answers s t .ok 0 ∧ t.status = s.status ∧ RestKept s t ∧
      OnlySlot s t v.toNat m.toNat sl' :=
  ⟨_, h, rfl, rfl, (restKept_putSlot ..).answered _ _, (onlySlot_putSlot hn sl').answered _ _⟩

end Sys2Proof.Claims

/-! ## The modal filter commands on the slot they name (41_modal_filter.md R130 to R133) -/

namespace Sys2Proof.Machine

variable {s : State} {v : BitVec 8} {m : BitVec 4} {b : Bank} {sl : Slot} {p : Params} {freq decay sr x : F32}

theorem ratePositive_of_units32_pos (hsr : isFinite sr = true) (h : 0 < units32 sr) : ratePositive sr = true :=
  (lt32_iff_of_finite (by decide) hsr).2 h

/-- A configured slot has a rate, so its coefficients are those of the new fields (40_numerics.md R117). -/
theorem Slot.configured_of_rate (h : ratePositive sr = true) :
    sl.configured p freq decay sr =
      { sl with
        freq := freq, decay := dclamp p.t60MinMs decay, sr := sr
        b0 := (coef p.decayK freq (dclamp p.t60MinMs decay) sr).b0
        a1 := (coef p.decayK freq (dclamp p.t60MinMs decay) sr).a1
        a2 := (coef p.decayK freq (dclamp p.t60MinMs decay) sr).a2 } :=
  Slot.update_of_rate h

theorem exec_mfRst_of_names (hn : s.Names v m b sl) :
    exec (.mfRst v m) s = .next ((s.putSlot v b m sl.clear).answered .ok 0) :=
  calc exec (.mfRst v m) s = execMfRst v m s := rfl
    _ = _ := onSlot_of_some hn.1 hn.2

theorem exec_mfStep_of_names (hn : s.Names v m b sl) (hx : isFinite x = true) :
    exec (.mfStep v m x) s =
      .next ((s.putSlot v b m (sl.step s.params x).st).completed (sl.step s.params x).nf (sl.step s.params x).y) := by
  calc exec (.mfStep v m x) s = execMfStep v m x s := rfl
    _ = complete (sl.step s.params x).nf (sl.step s.params x).y (s.putSlot v b m (sl.step s.params x).st) := by
      rw [execMfStep, onSlot_of_some hn.1 hn.2, hx]
      rfl
    _ = _ := complete_eq ..

end Sys2Proof.Machine

/-! ## The identity slot (41_modal_filter.md R130) -/

namespace Sys2Proof.Machine

variable {x y z eps : F32}

/-- A value of no units is one of the two zeros. -/
theorem eq_zero_of_units32_eq_zero (hx : isFinite x = true) (h : units32 x = 0) : x = 0x00000000 ∨ x = 0x80000000 := by
  have hu : b32.units x.toNat = 0 := by rw [← natAbs_units32, h, Int.natAbs_zero]
  cases hneg : b32.neg x.toNat with
  | false => exact .inl (eq_of_units32 hx (by decide) hneg hu)
  | true => exact .inr (eq_of_units32 hx (by decide) hneg hu)

/-- 1.0 is the unit of the product, for both zeros too: the sign of the other operand is kept. -/
theorem mul32_one_left (hx : isFinite x = true) : mul32 0x3F800000 x = x := by
  have hone : b32.units (0x3F800000 : F32).toNat = 2 ^ b32.unit := by decide +kernel
  have hsign : b32.neg (0x3F800000 : F32).toNat = false := by decide
  have hround : b32.round (2 ^ b32.unit * b32.units x.toNat) (2 ^ b32.unit) = b32.mag x.toNat :=
    Fmt.round_exact (Nat.two_pow_pos _) (mag_lt_of_isFinite hx).le (by rw [Fmt.units_eq_units_mag, Nat.mul_comm])
  rw [mul32_of_finite (by decide) hx, hone, hround, hsign, Bool.false_xor, pack_self32]

/-- Adding +0.0 changes -0.0 alone. -/
theorem add32_zero_right (hx : isFinite x = true) : add32 x 0x00000000 = if x = 0x80000000 then 0x00000000 else x := by
  by_cases h0 : units32 x = 0
  · obtain rfl | rfl := eq_zero_of_units32_eq_zero hx h0 <;> decide +kernel
  · have hne : x ≠ 0x80000000 := by
      rintro rfl
      exact h0 (by decide +kernel)
    rw [if_neg hne]
    exact add32_of_exact hx (by decide) hx h0 (Int.add_zero _)

/-- A product with either zero is a zero. -/
theorem mul32_zero_left (hz : isFinite z = true) (h0 : units32 z = 0) (hy : isFinite y = true) :
    isFinite (mul32 z y) = true ∧ units32 (mul32 z y) = 0 := by
  have hround : b32.round (units32 z * units32 y).natAbs (2 ^ 149) = 0 := by
    rw [h0, zero_mul]
    decide +kernel
  rw [mul32_eq_round hz hy, hround, isFinite_pack (Nat.zero_le _), units32_pack (Nat.zero_le _)]
  cases b32.neg z.toNat ^^ b32.neg y.toNat <;> decide

/-- Subtracting either zero from +0.0 gives +0.0. -/
theorem sub32_zero_left (hz : isFinite z = true) (h0 : units32 z = 0) : sub32 0x00000000 z = 0x00000000 := by
  obtain rfl | rfl := eq_zero_of_units32_eq_zero hz h0 <;> decide +kernel

/-- The flush makes +0.0 of either zero. -/
theorem flush_zero (he : isFinite eps = true) (hpos : 0 < units32 eps) (hz : isFinite z = true) (h0 : units32 z = 0) :
    flush eps z = 0x00000000 :=
  (flush_of_finite he hz).trans (if_pos (by rwa [h0, abs_zero]))

end Sys2Proof.Machine

namespace Sys2Proof.Claims

open Sys2Proof.Machine

variable {p : Params} {sl : Slot} {x : F32}

/-- A mode step raises NF where a value that R130 checks is not finite. -/
theorem step_nf_iff : (sl.step p x).nf = true ↔ StepRaises p sl x := by
  rw [StepRaises, ← and_assoc, ← Bool.and_eq_true, ← Bool.and_eq_true, Bool.not_eq_true, ← Bool.not_eq_true']
  rfl

end Sys2Proof.Claims

namespace Sys2Proof.Claims

open Sys2Proof.Machine

/-- Settles O33: 1.0 is the unit of the product, -0.0 is lost in the sum with +0.0, and both products of the state are
zeros, which the flush stores as +0.0. -/
theorem identitySlotReturnsItsInput : Obligations.IdentitySlotReturnsItsInput := by
  intro p sl x he hpos hb0 ha1 ha2 hs1 hs2 hx
  have hy : stepY sl x = if x = 0x80000000 then 0x00000000 else x := by
    rw [stepY, hb0, hs1, mul32_one_left hx, add32_zero_right hx]
  have hyfin : isFinite (stepY sl x) = true := by
    rw [hy]
    split
    · decide
    · exact hx
  obtain ⟨hfin1, hzero1⟩ := mul32_zero_left (z := 0x80000000) (by decide) (by decide) hyfin
  obtain ⟨hfin2, hzero2⟩ := mul32_zero_left (z := 0x00000000) (by decide) (by decide) hyfin
  have hstep1 : stepS1 p sl x = 0x00000000 := by
    rw [stepS1, hs2, ha1, sub32_zero_left hfin1 hzero1, flush_zero he hpos (by decide) (by decide)]
  have hstep2 : stepS2 p sl x = 0x00000000 := by
    rw [stepS2, ha2]
    exact flush_zero he hpos ((isFinite_neg32 _).trans hfin2) (by rw [units32_neg32, hzero2, neg_zero])
  have hfin : isFinite (0x00000000 : F32) = true := by decide
  have hquiet : ¬ StepRaises p sl x :=
    not_not.2 ⟨hyfin, (congrArg isFinite hstep1).trans hfin, (congrArg isFinite hstep2).trans hfin⟩
  have hkept : (sl.step p x).st = sl :=
    calc (sl.step p x).st = steppedSlot p sl x := rfl
      _ = sl := by rw [steppedSlot, hstep1.trans hs1.symm, hstep2.trans hs2.symm]
  exact ⟨hy, hkept, Bool.eq_false_iff.2 (mt step_nf_iff.1 hquiet)⟩

/-- Settles O36: the step of the model is the recurrence, and `complete` ends it. -/
theorem mfStepRunsTheRecurrence : Obligations.MfStepRunsTheRecurrence := by
  intro s v m x sl hslot hx
  obtain ⟨b, hn⟩ := State.slot?_eq_some.1 hslot
  exact ⟨_, exec_mfStep_of_names hn hx,
    endsWithNf_completed (State.putSlot_status ..) (State.putSlot_responses ..) step_nf_iff _,
    (restKept_putSlot ..).completed _ _, (onlySlot_putSlot hn _).completed _ _⟩

/-- Settles O34: the rate is positive, so the configured slot has the coefficients of its new fields. -/
theorem mfCfgConfiguresOneSlot : Obligations.MfCfgConfiguresOneSlot := by
  intro s v m freq decay sr sl hslot hf hd hsr hpos d c
  have hrate := ratePositive_of_units32_pos hsr hpos
  obtain ⟨b, hn⟩ := State.slot?_eq_some.1 hslot
  exact exists_onlySlot_of_exec hn ((exec_mfCfg_of_names hn hf hd hsr hrate).trans (by rw [Slot.configured_of_rate hrate]))

/-- Settles O35: the slot written is the cleared one. -/
theorem mfRstZeroesTheStateOfOneSlot : Obligations.MfRstZeroesTheStateOfOneSlot := by
  intro s v m sl hslot
  obtain ⟨b, hn⟩ := State.slot?_eq_some.1 hslot
  exact exists_onlySlot_of_exec hn (exec_mfRst_of_names hn)

end Sys2Proof.Claims

/-! ## The resonator bank commands on the slot or the bank they name (42_resonator_bank.md R142 to R150) -/

namespace Sys2Proof.Machine

variable {s : State} {v : BitVec 8} {m : BitVec 4} {b : Bank} {sl : Slot} {p : Params} {ms sr amp fund x : F32} {n : Word}

/-- What `RB.SETDECAY` makes of a slot (42_resonator_bank.md R143). -/
def Slot.decayed (p : Params) (ms sr : F32) (sl : Slot) : Slot :=
  ({ sl with decay := dclamp p.t60MinMs ms, sr := sr } : Slot).update p

/-- A slot given a decay and a rate has the coefficients of both and of its own frequency (40_numerics.md R117). -/
theorem Slot.decayed_of_rate (h : ratePositive sr = true) :
    sl.decayed p ms sr =
      { sl with
        decay := dclamp p.t60MinMs ms, sr := sr
        b0 := (coef p.decayK sl.freq (dclamp p.t60MinMs ms) sr).b0
        a1 := (coef p.decayK sl.freq (dclamp p.t60MinMs ms) sr).a1
        a2 := (coef p.decayK sl.freq (dclamp p.t60MinMs ms) sr).a2 } :=
  Slot.update_of_rate h

/-- The words 0 and 1 name a class (42_resonator_bank.md R145). -/
theorem tagOfWord_of_le_one {tag : Word} (h : tag.toNat ≤ 1) :
    tagOfWord tag = some (if tag = 0 then .harmonic else .inharmonic) := by
  by_cases h0 : tag = 0
  · rw [tagOfWord, if_pos h0, if_pos h0]
  · have h1 : tag = 1 := by bv_omega
    rw [tagOfWord, if_neg h0, if_neg h0, if_pos h1]

theorem exec_rbSetdecay_of_names (hn : s.Names v m b sl) (hms : isFinite ms = true) (hsr : isFinite sr = true)
    (hpos : ratePositive sr = true) :
    exec (.rbSetdecay v m ms sr) s = .next ((s.putSlot v b m (sl.decayed s.params ms sr)).answered .ok 0) := by
  calc exec (.rbSetdecay v m ms sr) s = execRbSetdecay v m ms sr s := rfl
    _ = _ := by
      rw [execRbSetdecay, onSlot_of_some hn.1 hn.2, hms, hsr, hpos]
      rfl

theorem exec_rbSetamp_of_names (hn : s.Names v m b sl) (ha : isFinite amp = true) :
    exec (.rbSetamp v m amp) s = .next ((s.putSlot v b m { sl with amp := amp }).answered .ok 0) := by
  calc exec (.rbSetamp v m amp) s = execRbSetamp v m amp s := rfl
    _ = _ := by
      rw [execRbSetamp, onSlot_of_some hn.1 hn.2, ha]
      rfl

theorem exec_rbSettag_of_names {tag : Word} {t : Tag} (hn : s.Names v m b sl) (ht : tagOfWord tag = some t) :
    exec (.rbSettag v m tag) s = .next ((s.putSlot v b m { sl with tag := t }).answered .ok 0) := by
  calc exec (.rbSettag v m tag) s = execRbSettag v m tag s := rfl
    _ = _ := by
      rw [execRbSettag, onSlot_of_some hn.1 hn.2, ht]
      rfl

theorem exec_rbSetcount_of_bank {k : Fin 9} (hb : s.bank? v.toNat = some b) (hk : n.toNat = k.val) :
    exec (.rbSetcount v n) s = .next ((s.putBank v.toNat { b with countPend := k }).answered .ok 0) := by
  have hlt : n.toNat < 9 := hk ▸ k.isLt
  obtain rfl : k = ⟨n.toNat, hlt⟩ := Fin.ext hk.symm
  calc exec (.rbSetcount v n) s = execRbSetcount v n s := rfl
    _ = _ := by
      rw [execRbSetcount, onBank_of_some hb, dif_pos hlt]
      rfl

theorem exec_rbTune_of_bank (hb : s.bank? v.toNat = some b) (hf : isFinite fund = true)
    (hall : (b.partials fund).toList.all isFinite = true) :
    exec (.rbTune v fund) s = .next ((s.putBank v.toNat (b.tune s.params fund)).answered .ok 0) := by
  calc exec (.rbTune v fund) s = execRbTune v fund s := rfl
    _ = _ := by
      rw [execRbTune, onBank_of_some hb, hf, hall]
      rfl

theorem exec_rbPrep_of_bank (hb : s.bank? v.toNat = some b) (hsr : isFinite sr = true) (hpos : ratePositive sr = true) :
    exec (.rbPrep v sr) s = .next ((s.putBank v.toNat (b.prep s.params sr)).answered .ok 0) := by
  calc exec (.rbPrep v sr) s = execRbPrep v sr s := rfl
    _ = _ := by
      rw [execRbPrep, onBank_of_some hb, hsr, hpos]
      rfl

theorem exec_rbRst_of_bank (hb : s.bank? v.toNat = some b) :
    exec (.rbRst v) s = .next ((s.putBank v.toNat b.clear).answered .ok 0) :=
  calc exec (.rbRst v) s = execRbRst v s := rfl
    _ = _ := onBank_of_some hb

theorem exec_rbStep_of_bank (hb : s.bank? v.toNat = some b) (hx : isFinite x = true) :
    exec (.rbStep v x) s =
      .next ((s.putBank v.toNat (b.step s.params x).st).completed (b.step s.params x).nf (b.step s.params x).y) := by
  calc exec (.rbStep v x) s = execRbStep v x s := rfl
    _ = complete (b.step s.params x).nf (b.step s.params x).y (s.putBank v.toNat (b.step s.params x).st) := by
      rw [execRbStep, onBank_of_some hb, hx]
      rfl
    _ = _ := complete_eq ..

end Sys2Proof.Machine

/-! ## Ranks (42_resonator_bank.md R152) -/

namespace Sys2Proof.Machine

/-- The first `n` elements of a list are those at the places below `n`. -/
theorem take_eq_filterMap_range {α : Type} (l : List α) (n : Nat) :
    l.take n = (List.range n).filterMap fun m => l[m]? := by
  induction n with
  | zero => rfl
  | succ n ih =>
    rw [List.take_add_one, ih, List.range_succ, List.filterMap_append]
    cases h : l[n]? <;> simp [h]

variable {b : Bank} {m k : Nat} {sl : Slot}

/-- A slot is counted in the ranks above it of its own tag. -/
theorem Bank.rank_succ (hs : b.slots[m]? = some sl) : b.rank (m + 1) sl.tag = b.rank m sl.tag + 1 := by
  rw [Bank.rank, Bank.rank, List.take_add_one, Vector.getElem?_toList, hs, List.countP_append]
  simp [Nat.add_assoc]

theorem Bank.rank_mono (b : Bank) (t : Tag) (h : m ≤ k) : b.rank m t ≤ b.rank k t :=
  Nat.add_le_add_left (List.take_sublist_take_left h).countP_le 1

theorem Bank.one_le_rank (b : Bank) (m : Nat) (t : Tag) : 1 ≤ b.rank m t := Nat.le_add_right 1 _

theorem Bank.rank_le_succ (b : Bank) (m : Nat) (t : Tag) : b.rank m t ≤ m + 1 := by
  have hcount : (b.slots.toList.take m).countP (fun sl => sl.tag = t) ≤ m :=
    List.countP_le_length.trans (List.length_take_le ..)
  rw [Bank.rank]
  omega

end Sys2Proof.Machine

namespace Sys2Proof.Claims

open Sys2Proof.Machine

/-- The model counts along the list of slots, the claim over their numbers. -/
theorem rank_eq_rankOf (b : Bank) (m : Nat) (t : Tag) : b.rank m t = rankOf b m t := by
  rw [Bank.rank, rankOf, take_eq_filterMap_range, List.countP_filterMap, ← List.countP_eq_length_filter]
  congr 2
  funext j
  rw [Vector.getElem?_toList]
  cases b.slots[j]? <;> simp

theorem partialFreq_eq_partialOf (b : Bank) (m : Nat) (sl : Slot) (fund : F32) :
    partialFreq sl.tag (b.rank m sl.tag) fund = partialOf b m sl fund := by
  rw [rank_eq_rankOf]
  unfold partialFreq partialOf
  cases sl.tag <;> rfl

/-- Settles O48: the slot itself is counted from the next place on, and the count never falls. -/
theorem ranksRiseWithinATag : Obligations.RanksRiseWithinATag := by
  intro b m k sl sk hs _
  obtain ⟨hm, -⟩ := Vector.getElem?_eq_some_iff.1 hs
  refine ⟨b.one_le_rank m sl.tag, (b.rank_le_succ m sl.tag).trans hm, fun hlt htag => ?_, rank_eq_rankOf ..⟩
  calc b.rank m sl.tag < b.rank (m + 1) sl.tag := by rw [Bank.rank_succ hs]; exact Nat.lt_succ_self _
    _ ≤ b.rank k sl.tag := b.rank_mono sl.tag hlt
    _ = b.rank k sk.tag := by rw [htag]

end Sys2Proof.Claims

/-! ## Writing one bank: its place in the state, and what a command that does so leaves as it was -/

namespace Sys2Proof.Claims

open Sys2Proof.Machine

variable {s u : State} {v : Nat} {b b' : Bank} {i : Instr}

theorem OnlyBank.answered (h : OnlyBank s u v b) (c : Code) (r : Word) : OnlyBank s (u.answered c r) v b :=
  ⟨h.bank, h.others⟩

theorem OnlyBank.completed (h : OnlyBank s u v b) (nf : Bool) (r : Word) : OnlyBank s (u.completed nf r) v b :=
  ⟨h.bank, h.others⟩

theorem onlyBank_putBank (hb : s.bank? v = some b) (b' : Bank) : OnlyBank s (s.putBank v b') v b' where
  bank := (State.bank?_putBank (State.bank?_eq_some_lt hb) b' v).trans (if_pos rfl)
  others w hw := (State.bank?_putBank (State.bank?_eq_some_lt hb) b' w).trans (if_neg hw)

/-- A command that writes one bank and answers `OK`: the response, the status and the frame. -/
theorem exists_onlyBank_of_exec (hb : s.bank? v = some b) (h : exec i s = .next ((s.putBank v b').answered .ok 0)) :
    ∃ t, exec i s = .next t ∧ Answers s t .ok 0 ∧ t.status = s.status ∧ RestKept s t ∧ OnlyBank s t v b' :=
  ⟨_, h, rfl, rfl, (restKept_putBank ..).answered _ _, (onlyBank_putBank hb b').answered _ _⟩

end Sys2Proof.Claims

/-! ## The commands that configure a slot or a bank, and the reset of a bank -/

namespace Sys2Proof.Claims

open Sys2Proof.Machine

variable {p : Params} {b : Bank} {m : Nat} {sl : Slot}

/-- The claims decide field by field whether the slot has a rate, the model once. -/
theorem update_eq_recomputed (p : Params) (sl : Slot) : sl.update p = recomputed p sl := by
  unfold Slot.update recomputed
  split <;> rfl

theorem slots_tune_of_some (p : Params) (fund : F32) (hs : b.slots[m]? = some sl) :
    (b.tune p fund).slots[m]? = some (recomputed p { sl with freq := partialOf b m sl fund }) := by
  rw [Bank.slots_tune, hs, Option.map_some, update_eq_recomputed, partialFreq_eq_partialOf]

theorem partials_all_finite {fund : F32}
    (h : ∀ m sl, b.slots[m]? = some sl → isFinite (partialOf b m sl fund) = true) :
    (b.partials fund).toList.all isFinite = true := by
  refine List.all_eq_true.2 fun f hf => ?_
  obtain ⟨m, hm⟩ := Vector.mem_iff_getElem?.1 (Vector.mem_toList_iff.1 hf)
  rw [Bank.partials, Vector.getElem?_mapIdx, Option.map_eq_some_iff] at hm
  obtain ⟨sl, hs, rfl⟩ := hm
  rw [partialFreq_eq_partialOf]
  exact h m sl hs

theorem prepared_prep (p : Params) (b : Bank) (sr : F32) : Prepared p b (b.prep p sr) sr where
  countPend := rfl
  countEff := rfl
  norm := rfl
  fund := rfl
  slots m sl hs := by rw [Bank.slots_prep, hs, Option.map_some, update_eq_recomputed]

/-- Settles O38: the slot written is the updated one. -/
theorem rbSetfreqSetsOneFrequency : Obligations.RbSetfreqSetsOneFrequency := by
  intro s v m hz sl hslot hf
  obtain ⟨b, hn⟩ := State.slot?_eq_some.1 hslot
  rw [← update_eq_recomputed]
  exact exists_onlySlot_of_exec hn (exec_rbSetfreq_of_names hn hf)

/-- Settles O39: the rate is positive, so the slot written has the coefficients of its new fields. -/
theorem rbSetdecaySetsDecayAndRate : Obligations.RbSetdecaySetsDecayAndRate := by
  intro s v m ms sr sl hslot hms hsr hpos d c
  have hrate := ratePositive_of_units32_pos hsr hpos
  obtain ⟨b, hn⟩ := State.slot?_eq_some.1 hslot
  exact exists_onlySlot_of_exec hn ((exec_rbSetdecay_of_names hn hms hsr hrate).trans (by rw [Slot.decayed_of_rate hrate]))

/-- Settles O40: each command writes its field and does not call the update. -/
theorem rbSetampAndSettagSetOneField : Obligations.RbSetampAndSettagSetOneField := by
  intro s v m sl hslot
  obtain ⟨b, hn⟩ := State.slot?_eq_some.1 hslot
  exact ⟨fun amp ha => exists_onlySlot_of_exec hn (exec_rbSetamp_of_names hn ha),
    fun tag ht => exists_onlySlot_of_exec hn (exec_rbSettag_of_names hn (tagOfWord_of_le_one ht))⟩

/-- Settles O41: the bank written differs in COUNT_PEND alone. -/
theorem rbSetcountSetsThePendingCountOnly : Obligations.RbSetcountSetsThePendingCountOnly :=
  fun _ _ _ _ _ hb hk => exists_onlyBank_of_exec hb (exec_rbSetcount_of_bank hb hk)

/-- Settles O43: the partial frequencies pass the check before the first write, and each is that of the slot's rank. -/
theorem rbTuneTunesAllSlots : Obligations.RbTuneTunesAllSlots := by
  intro s v fund b hb hf hfin
  obtain ⟨t, hexec, hans, hstatus, hrest, honly⟩ :=
    exists_onlyBank_of_exec hb (exec_rbTune_of_bank hb hf (partials_all_finite hfin))
  exact ⟨t, _, hexec, hans, hstatus, hrest, honly, rfl, fun _ _ => slots_tune_of_some s.params fund⟩

/-- Settles O44: the bank written is the prepared one. -/
theorem rbPrepPreparesOneBank : Obligations.RbPrepPreparesOneBank := by
  intro s v sr b hb hsr hpos
  obtain ⟨t, hexec, hans, hstatus, hrest, honly⟩ :=
    exists_onlyBank_of_exec hb (exec_rbPrep_of_bank hb hsr (ratePositive_of_units32_pos hsr hpos))
  exact ⟨t, _, hexec, hans, hstatus, hrest, honly, prepared_prep ..⟩

/-- Settles O45: the bank written is the cleared one. -/
theorem rbRstZeroesTheStateOfOneBank : Obligations.RbRstZeroesTheStateOfOneBank := by
  intro s v b hb
  obtain ⟨t, hexec, hans, hstatus, hrest, honly⟩ := exists_onlyBank_of_exec hb (exec_rbRst_of_bank hb)
  refine ⟨t, _, hexec, hans, hstatus, hrest, honly, rfl, fun m sl hs => ?_⟩
  rw [Bank.slots_clear, hs]
  rfl

end Sys2Proof.Claims

/-! ## The bank step (42_resonator_bank.md R140, R141, R154) -/

namespace Sys2Proof.Machine

/-- An active slot is stepped, and any other is kept with no output and no NF. -/
theorem Bank.getElem?_stepSlots (p : Params) (b : Bank) (x : F32) (m : Nat) :
    (b.stepSlots p x)[m]? =
      b.slots[m]?.map fun sl => if m < b.countEff.val then sl.step p x else ⟨sl, zero32, false⟩ :=
  Vector.getElem?_mapIdx ..

/-- The step of a slot reads no amplitude, and keeps it. -/
theorem Slot.step_withAmp (p : Params) (sl : Slot) (amp x : F32) :
    (({ sl with amp := amp } : Slot).step p x).st = { (sl.step p x).st with amp := amp } := rfl

end Sys2Proof.Machine

namespace Sys2Proof.Claims

open Sys2Proof.Machine

variable {p : Params} {b : Bank} {x : F32}

/-- The sum over the outputs of the active slots is the sum over their numbers. -/
theorem weightedSum_stepSlots (p : Params) (b : Bank) (x : F32) :
    weightedSum p ((b.stepSlots p x).toList.take b.countEff.val) = bankAcc p b x := by
  rw [weightedSum, bankAcc, take_eq_filterMap_range, List.foldl_filterMap]
  refine List.foldl_ext _ _ _ fun acc m hm => ?_
  rw [Vector.getElem?_toList, Bank.getElem?_stepSlots]
  cases b.slots[m]? with
  | none => rfl
  | some sl =>
    rw [Option.map_some, if_pos (List.mem_range.1 hm)]
    rfl

theorem step_y_eq_bankOut (p : Params) (b : Bank) (x : F32) : (b.step p x).y = bankOut p b x :=
  congrArg (mul32 · b.norm) (weightedSum_stepSlots p b x)

/-- A slot of the bank raises NF exactly if an active one does: the others are not stepped. -/
theorem stepSlots_any_nf_iff :
    ((b.stepSlots p x).toList.any fun o => o.nf) = true ↔
      ∃ m sl, m < b.countEff.val ∧ b.slots[m]? = some sl ∧ StepRaises p sl x := by
  rw [List.any_eq_true]
  constructor
  · rintro ⟨o, ho, hnf⟩
    obtain ⟨m, hm⟩ := Vector.mem_iff_getElem?.1 (Vector.mem_toList_iff.1 ho)
    rw [Bank.getElem?_stepSlots, Option.map_eq_some_iff] at hm
    obtain ⟨sl, hs, rfl⟩ := hm
    split at hnf
    · next hlt => exact ⟨m, sl, hlt, hs, step_nf_iff.1 hnf⟩
    · cases hnf
  · rintro ⟨m, sl, hlt, hs, hraises⟩
    have hstep : (b.stepSlots p x)[m]? = some (sl.step p x) := by
      rw [Bank.getElem?_stepSlots, hs, Option.map_some, if_pos hlt]
    exact ⟨sl.step p x, Vector.mem_toList_iff.2 (Vector.mem_of_getElem? hstep), step_nf_iff.2 hraises⟩

/-- The NF of a bank step is that of its active slots and of its sum. -/
theorem bankStep_nf_iff : (b.step p x).nf = true ↔ BankRaises p b x := by
  have hnf : (b.step p x).nf =
      (((b.stepSlots p x).toList.any fun o => o.nf) || !(isFinite (bankAcc p b x) && isFinite (bankOut p b x))) := by
    rw [← step_y_eq_bankOut, ← weightedSum_stepSlots]
    rfl
  rw [hnf, BankRaises, Bool.or_eq_true, stepSlots_any_nf_iff, Bool.not_eq_true', ← Bool.not_eq_true, Bool.and_eq_true]

theorem bankStepped_step (p : Params) (b : Bank) (x : F32) : BankStepped p b (b.step p x).st x where
  fields := rfl
  slots m sl hs := by
    rw [Bank.slots_step, hs]
    rfl

/-- Settles O46: the slots, the output and the NF of the model's bank step are those of the rules, and `complete` ends it. -/
theorem rbStepStepsAndSumsTheActiveSlots : Obligations.RbStepStepsAndSumsTheActiveSlots := by
  intro s v x b hb hx
  rw [← step_y_eq_bankOut]
  exact ⟨_, _, exec_rbStep_of_bank hb hx,
    endsWithNf_completed (State.putBank_status ..) (State.putBank_responses ..) bankStep_nf_iff _,
    (restKept_putBank ..).completed _ _, (onlyBank_putBank hb _).completed _ _, bankStepped_step ..⟩

/-- Settles O47: a slot is stepped or kept by its number alone, and its step reads no amplitude. -/
theorem skippedSlotStillAdvances : Obligations.SkippedSlotStillAdvances := by
  intro p b b' x hcount hamps m sl' hs'
  rw [Bank.slots_step, Option.map_eq_some_iff] at hs'
  obtain ⟨sl, hs, rfl⟩ := hs'
  obtain ⟨amp, hamp⟩ := hamps m sl hs
  refine ⟨amp, ?_⟩
  rw [Bank.slots_step, hamp, Option.map_some, hcount]
  split
  · rw [Slot.step_withAmp]
  · rfl

end Sys2Proof.Claims

/-! ## One bit of `G.ACTIVE` per voice (10_state.md R36), and how many there are (43_mixer.md R181) -/

namespace Sys2Proof.Machine

variable {s : State} {v : Nat}

/-- A voice is active if its bit of the word is set and no hardwired zero. -/
theorem State.isActive_eq (s : State) (v : Nat) :
    s.isActive v = (s.active.getLsbD v && (decide (v < 32) && decide (v < s.nVoices))) := by
  rw [State.isActive, State.activeWord, BitVec.getLsbD_and, BitVec.getLsbD_ofNat, Nat.testBit_two_pow_sub_one]

theorem State.lt_nVoices_of_isActive (h : s.isActive v = true) : v < s.nVoices := by
  rw [State.isActive_eq] at h
  exact of_decide_eq_true (Bool.and_eq_true_iff.1 (Bool.and_eq_true_iff.1 h).2).2

theorem State.exists_bank_of_isActive (h : s.isActive v = true) : ∃ b, s.bank? v = some b :=
  ⟨_, List.getElem?_eq_getElem (State.lt_nVoices_of_isActive h)⟩

theorem State.isActive_of_active_eq_zero (h : s.active = 0) (v : Nat) : s.isActive v = false := by
  rw [State.isActive_eq, h]
  exact Bool.and_eq_false_iff.2 (.inl BitVec.getLsbD_zero)

theorem getLsbD_setBit {w : Word} {on : Bool} (hv : v < 32) (k : Nat) :
    (setBit w v on).getLsbD k = if k = v then on else w.getLsbD k := by
  have hbit : (BitVec.twoPow 32 v).getLsbD k = decide (k = v) := by
    rw [BitVec.getLsbD_twoPow, decide_eq_true hv, Bool.true_and]
    exact decide_eq_decide.2 eq_comm
  cases on with
  | true =>
    rw [setBit, if_pos rfl, BitVec.getLsbD_or, hbit]
    split <;> simp [*]
  | false =>
    rw [setBit, if_neg Bool.false_ne_true, BitVec.getLsbD_and, BitVec.getLsbD_not, hbit]
    split
    · simp [*]
    · simpa [*] using BitVec.lt_of_getLsbD

/-- Setting the bit of a voice is seen at that voice alone. -/
theorem State.isActive_setBit (hv : v < s.nVoices) (hv32 : v < 32) (on : Bool) (w : Nat) :
    State.isActive { s with active := setBit s.active v on } w = if w = v then on else s.isActive w := by
  have hbit := getLsbD_setBit (w := s.active) (on := on) hv32 w
  rw [State.isActive_eq, hbit]
  split
  · next hw =>
    subst hw
    change (on && (decide (w < 32) && decide (w < s.nVoices))) = on
    rw [decide_eq_true hv32, decide_eq_true hv, Bool.and_true, Bool.and_true]
  · exact (State.isActive_eq s w).symm

theorem popcount_activeWord (s : State) : popcount s.activeWord = ((List.range 32).filter fun v => s.isActive v).length :=
  List.countP_eq_length_filter

theorem filter_isActive_of_idle (h : ∀ v, s.isActive v = false) (l : List Nat) : (l.filter fun v => s.isActive v) = [] :=
  List.filter_eq_nil_iff.2 fun v _ => Bool.eq_false_iff.1 (h v)

theorem State.activeCount_of_idle (h : ∀ v, s.isActive v = false) : s.activeCount = 0 := by
  rw [State.activeCount, popcount_activeWord, filter_isActive_of_idle h]
  rfl

/-- The active voices are distinct, and each has a bank. -/
theorem popcount_activeWord_le (s : State) : popcount s.activeWord ≤ s.nVoices := by
  have hsub : ((List.range 32).filter fun v => s.isActive v) ⊆ List.range s.nVoices := fun _ hv =>
    List.mem_range.2 (State.lt_nVoices_of_isActive (List.mem_filter.1 hv).2)
  calc popcount s.activeWord = _ := popcount_activeWord s
    _ ≤ (List.range s.nVoices).length := ((List.nodup_range.filter _).subperm hsub).length_le
    _ = s.nVoices := List.length_range

end Sys2Proof.Machine

/-! ## The sum of a block in `OUT` (43_mixer.md R173, R174, R176): all channels of the range hold one value per sample -/

namespace Sys2Proof.Machine

variable {p : Params} {nc ns n : Nat} {out : Memory}

/-- The address of an output sample tells its channel and its place (20_memory.md R60). -/
theorem aOut_inj {ch ch' n' : Nat} (hn : n < p.maxBlockCap) (hn' : n' < p.maxBlockCap) :
    aOut p ch n = aOut p ch' n' ↔ ch = ch' ∧ n = n' := by
  refine ⟨fun h => ?_, fun ⟨hch, hn⟩ => by rw [hch, hn]⟩
  have hdiv : ∀ {c k : Nat}, k < p.maxBlockCap → aOut p c k / p.maxBlockCap = c := fun {c k} hk => by
    rw [aOut, Nat.add_comm, Nat.add_mul_div_right _ _ (Nat.zero_lt_of_lt hk), Nat.div_eq_of_lt hk, Nat.zero_add]
  have hch : ch = ch' := by rw [← hdiv (c := ch) hn, h, hdiv hn']
  exact ⟨hch, Nat.add_left_cancel (hch ▸ h)⟩

/-- Adding one sample to a list of channels: each is another element of `OUT`, so no sum is read back by a later one. -/
theorem addToChannels_spec {chs : List Nat} (hchs : chs.Nodup) (hn : n < p.maxBlockCap) (y : F32) (acc : MixAcc)
    (hwf : acc.out.wf) :
    (chs.foldl (addToChannel p n y) acc).out.wf ∧
    (∀ a, (chs.foldl (addToChannel p n y) acc).out.read a =
      if ∃ ch ∈ chs, a = aOut p ch n then add32 (acc.out.read a) y else acc.out.read a) ∧
    ((chs.foldl (addToChannel p n y) acc).nf = true ↔
      acc.nf = true ∨ ∃ ch ∈ chs, isFinite (add32 (acc.out.read (aOut p ch n)) y) = false) := by
  induction chs generalizing acc with
  | nil => exact ⟨hwf, fun a => by simp, by simp⟩
  | cons c chs ih =>
    obtain ⟨hc, hchs⟩ := List.nodup_cons.1 hchs
    have hread : ∀ a, (addToChannel p n y acc c).out.read a =
        if a = aOut p c n then add32 (acc.out.read (aOut p c n)) y else acc.out.read a :=
      fun a => Memory.read_write hwf ..
    have hother : ∀ ch ∈ chs, (addToChannel p n y acc c).out.read (aOut p ch n) = acc.out.read (aOut p ch n) :=
      fun ch hch => (hread _).trans (if_neg fun h => hc (((aOut_inj hn hn).1 h).1.subst hch))
    obtain ⟨hwf', hread', hnf'⟩ := ih hchs (addToChannel p n y acc c) (Memory.write_wf hwf ..)
    refine ⟨hwf', fun a => ?_, ?_⟩
    · rw [List.foldl_cons, hread']
      by_cases ha : ∃ ch ∈ chs, a = aOut p ch n
      · obtain ⟨ch, hch, rfl⟩ := ha
        rw [if_pos ⟨ch, hch, rfl⟩, if_pos ⟨ch, List.mem_cons_of_mem _ hch, rfl⟩, hother ch hch]
      · rw [if_neg ha, hread]
        by_cases hac : a = aOut p c n
        · rw [if_pos hac, if_pos ⟨c, List.mem_cons_self, hac⟩, hac]
        · rw [if_neg hac, if_neg (by simpa [hac] using ha)]
    · rw [List.foldl_cons, hnf', List.exists_mem_cons_iff, ← or_assoc]
      refine or_congr ?_ (exists_congr fun ch => and_congr_right fun hch => by rw [hother ch hch])
      rw [addToChannel, Bool.or_eq_true, Bool.not_eq_true']

/-- `OUT` of a block over `base`: sample `n` of the range is `f n` on every channel, every other element is as before. -/
structure HoldsBlock (p : Params) (nc ns : Nat) (base : Memory) (f : Nat → F32) (out : Memory) : Prop where
  wf : out.wf
  range : ∀ ch n, ch < nc → n < ns → out.read (aOut p ch n) = f n
  rest : ∀ a, (∀ ch n, ch < nc → n < ns → a ≠ aOut p ch n) → out.read a = base.read a

variable {base : Memory} {f g : Nat → F32}

theorem HoldsBlock.congr (h : HoldsBlock p nc ns base f out) (hfg : ∀ n < ns, f n = g n) : HoldsBlock p nc ns base g out :=
  ⟨h.wf, fun ch n hch hn => (h.range ch n hch hn).trans (hfg n hn), h.rest⟩

/-- Writing one word at many addresses: the word at each of them, the old word everywhere else. -/
theorem read_foldl_write (l : List Nat) (w : Word) {m : Memory} (h : m.wf) (b : Nat) :
    (l.foldl (fun o a => o.write a w) m).read b = if b ∈ l then w else m.read b := by
  induction l generalizing m with
  | nil => rw [if_neg List.not_mem_nil, List.foldl_nil]
  | cons a l ih =>
    rw [List.foldl_cons, ih (Memory.write_wf h a w), Memory.read_write h]
    by_cases hl : b ∈ l
    · rw [if_pos hl, if_pos (List.mem_cons_of_mem a hl)]
    · rw [if_neg hl]
      exact if_congr (by rw [List.mem_cons, or_iff_left hl]) rfl rfl

/-- The destination of a block, element by element. -/
def blockRange (p : Params) (nc ns : Nat) : List Nat := (List.range nc).flatMap fun ch => (List.range ns).map (aOut p ch)

theorem mem_blockRange {a : Nat} : a ∈ blockRange p nc ns ↔ ∃ ch n, ch < nc ∧ n < ns ∧ a = aOut p ch n := by
  simp only [blockRange, List.mem_flatMap, List.mem_map, List.mem_range]
  exact ⟨fun ⟨ch, hch, n, hn, h⟩ => ⟨ch, n, hch, hn, h.symm⟩, fun ⟨ch, n, hch, hn, h⟩ => ⟨ch, hch, n, hn, h.symm⟩⟩

theorem clearOut_eq (p : Params) (nc ns : Nat) (out : Memory) :
    clearOut p nc ns out = (blockRange p nc ns).foldl (fun o a => o.write a zero32) out := by
  rw [clearOut, blockRange, List.foldl_flatMap]
  simp only [List.foldl_map]

/-- A block starts from +0.0 on its whole range (43_mixer.md R176). -/
theorem holdsBlock_clearOut (p : Params) (nc ns : Nat) (h : out.wf) :
    HoldsBlock p nc ns out (fun _ => zero32) (clearOut p nc ns out) := by
  rw [clearOut_eq]
  refine ⟨List.foldlRecOn _ _ (motive := Memory.wf) h fun _ h a _ => Memory.write_wf h a zero32, ?_, ?_⟩
  · intro ch n hch hn
    rw [read_foldl_write _ _ h, if_pos (mem_blockRange.2 ⟨ch, n, hch, hn, rfl⟩)]
  · intro a ha
    rw [read_foldl_write _ _ h, if_neg fun hmem => ?_]
    obtain ⟨ch, n, hch, hn, heq⟩ := mem_blockRange.1 hmem
    exact ha ch n hch hn heq

/-- Adding a sample of a voice changes that sample of every channel, and raises NF if the sum is not finite. -/
theorem HoldsBlock.addToChannels {acc : MixAcc} (h : HoldsBlock p nc ns base f acc.out) (hnc : 1 ≤ nc) (hn : n < ns)
    (hns : ns ≤ p.maxBlockCap) (y : F32) :
    HoldsBlock p nc ns base (Function.update f n (add32 (f n) y)) ((List.range nc).foldl (addToChannel p n y) acc).out ∧
    (((List.range nc).foldl (addToChannel p n y) acc).nf = true ↔ acc.nf = true ∨ isFinite (add32 (f n) y) = false) := by
  obtain ⟨hwf, hread, hnf⟩ := addToChannels_spec (List.nodup_range (n := nc)) (hn.trans_le hns) y acc h.wf
  simp only [List.mem_range] at hread hnf
  refine ⟨⟨hwf, fun ch k hch hk => ?_, fun a ha => ?_⟩, hnf.trans (or_congr_right ⟨?_, fun hsum => ?_⟩)⟩
  · rw [hread, h.range ch k hch hk]
    by_cases hkn : k = n
    · rw [if_pos ⟨ch, hch, by rw [hkn]⟩, hkn, Function.update_self]
    · rw [if_neg fun ⟨c, _, hc⟩ => hkn ((aOut_inj (hk.trans_le hns) (hn.trans_le hns)).1 hc).2,
        Function.update_of_ne hkn]
  · rw [hread, if_neg fun ⟨c, hc, heq⟩ => ha c n hc hn heq]
    exact h.rest a ha
  · rintro ⟨ch, hch, hsum⟩
    rwa [h.range ch n hch hn] at hsum
  · refine ⟨0, hnc, ?_⟩
    rwa [h.range 0 n hnc hn]

end Sys2Proof.Machine

/-! ## The run of a voice's bank over a block (43_mixer.md R176) -/

namespace Sys2Proof.Claims

open Sys2Proof.Machine

variable {p : Params} {nc ns k : Nat} {base : Memory} {f : Nat → F32} {s : State}

@[simp] theorem length_bankRun_outputs (p : Params) (b : Bank) (xs : List F32) : (bankRun p b xs).2.1.length = xs.length := by
  induction xs generalizing b with
  | nil => rfl
  | cons x xs ih => exact congrArg Nat.succ (ih _)

/-- The run over one more sample ends with one more step. -/
theorem bankRun_concat (p : Params) (b : Bank) (xs : List F32) (x : F32) :
    bankRun p b (xs ++ [x]) =
      (((bankRun p b xs).1.step p x).st, (bankRun p b xs).2.1 ++ [((bankRun p b xs).1.step p x).y],
        (bankRun p b xs).2.2 || ((bankRun p b xs).1.step p x).nf) := by
  induction xs generalizing b with
  | nil => simp [bankRun]
  | cons x' xs ih => simp only [List.cons_append, bankRun, ih, Bool.or_assoc]

@[simp] theorem length_blockInput (s : State) (v ns : Nat) : (blockInput s v ns).length = ns := by simp [blockInput]

theorem blockRun_succ (s : State) (v k : Nat) (b : Bank) :
    blockRun s v (k + 1) b =
      (let r := (blockRun s v k b).1.step s.params (s.inBuf.read (aIn s.params v k))
       (r.st, (blockRun s v k b).2.1 ++ [r.y], (blockRun s v k b).2.2 || r.nf)) := by
  rw [blockRun, blockInput, List.range_succ, List.map_append]
  exact bankRun_concat ..

@[simp] theorem length_blockRun_outputs (s : State) (v ns : Nat) (b : Bank) : (blockRun s v ns b).2.1.length = ns := by
  simp [blockRun]

/-- The samples `f` with the outputs that one more voice has given so far added to them. -/
def plusOutputs (f : Nat → F32) (ys : List F32) (n : Nat) : F32 :=
  match ys[n]? with
  | some y => add32 (f n) y
  | none => f n

theorem plusOutputs_of_lt {ys : List F32} {n : Nat} (h : n < ys.length) : plusOutputs f ys n = add32 (f n) (ys.getD n zero32) := by
  rw [plusOutputs, List.getElem?_eq_getElem h, List.getD_eq_getElem _ _ h]

theorem plusOutputs_of_le {ys : List F32} {n : Nat} (h : ys.length ≤ n) : plusOutputs f ys n = f n := by
  rw [plusOutputs, List.getElem?_eq_none h]

theorem plusOutputs_concat (f : Nat → F32) (ys : List F32) (y : F32) :
    plusOutputs f (ys ++ [y]) =
      Function.update (plusOutputs f ys) ys.length (add32 (plusOutputs f ys ys.length) y) := by
  funext n
  by_cases hn : n = ys.length
  · rw [hn, Function.update_self, plusOutputs_of_le le_rfl, plusOutputs, List.getElem?_concat_length]
  · rw [Function.update_of_ne hn]
    obtain hlt | hgt := Nat.lt_or_gt_of_ne hn
    · rw [plusOutputs, plusOutputs, List.getElem?_append_left hlt]
    · rw [plusOutputs_of_le hgt.le, plusOutputs_of_le (by simpa using hgt)]

/-- The samples that one more output leaves not finite are those of before and its own. -/
theorem exists_not_finite_concat (ys : List F32) (y : F32) :
    (∃ n < (ys ++ [y]).length, isFinite (plusOutputs f (ys ++ [y]) n) = false) ↔
      (∃ n < ys.length, isFinite (plusOutputs f ys n) = false) ∨
        isFinite (add32 (plusOutputs f ys ys.length) y) = false := by
  rw [List.length_append, List.length_singleton, Nat.exists_lt_succ_right, plusOutputs_concat, Function.update_self]
  refine or_congr_left (exists_congr fun n => and_congr_right fun hn => ?_)
  rw [Function.update_of_ne hn.ne]

/-- A voice was mixed: its bank has run, its outputs are added to the samples of `OUT`, and NF tells of both. -/
structure VoiceMixed (s : State) (nc ns : Nat) (base : Memory) (f : Nat → F32) (nf : Bool) (run : Bank × List F32 × Bool)
    (r : Bank × MixAcc) : Prop where
  bank : r.1 = run.1
  out : HoldsBlock s.params nc ns base (plusOutputs f run.2.1) r.2.out
  nf : r.2.nf = true ↔ nf = true ∨ run.2.2 = true ∨ ∃ n < run.2.1.length, isFinite (plusOutputs f run.2.1 n) = false

/-- The next sample steps the bank and adds its output. -/
theorem VoiceMixed.succ {acc : MixAcc} {v : Nat} {b : Bank} {r : Bank × MixAcc}
    (h : VoiceMixed s nc ns base f acc.nf (blockRun s v k b) r) (hnc : 1 ≤ nc) (hk : k < ns)
    (hns : ns ≤ s.params.maxBlockCap) :
    VoiceMixed s nc ns base f acc.nf (blockRun s v (k + 1) b) (mixSample s.params s.inBuf v nc r k) := by
  rw [blockRun_succ, ← h.bank]
  set o := r.1.step s.params (s.inBuf.read (aIn s.params v k))
  have hlen : (blockRun s v k b).2.1.length = k := length_blockRun_outputs s v k b
  have hconcat := plusOutputs_concat f (blockRun s v k b).2.1 o.y
  rw [hlen] at hconcat
  obtain ⟨hout, hnf⟩ := HoldsBlock.addToChannels (acc := ⟨r.2.out, r.2.nf || o.nf⟩) h.out hnc hk hns o.y
  refine ⟨rfl, ?_, ?_⟩
  · rw [hconcat]
    exact hout
  · have hfin := exists_not_finite_concat (f := f) (blockRun s v k b).2.1 o.y
    rw [hlen] at hfin
    refine hnf.trans ?_
    rw [Bool.or_eq_true, h.nf, hfin, hlen, Bool.or_eq_true, or_assoc, or_assoc, or_or_or_comm]

/-- The block of a voice, sample by sample. -/
theorem voiceMixed_mixVoice {acc : MixAcc} (h : HoldsBlock s.params nc ns base f acc.out) (hnc : 1 ≤ nc)
    (hns : ns ≤ s.params.maxBlockCap) (v : Nat) (b : Bank) (hk : k ≤ ns) :
    VoiceMixed s nc ns base f acc.nf (blockRun s v k b) (mixVoice s.params s.inBuf v nc k b acc) := by
  induction k with
  | zero => exact ⟨rfl, h, by simp [blockRun, blockInput, bankRun, mixVoice]⟩
  | succ k ih =>
    rw [mixVoice, List.range_succ, List.foldl_concat]
    exact (ih (Nat.le_of_succ_le hk)).succ hnc hk hns

end Sys2Proof.Claims

/-! ## The mix of the active voices, one voice at a time (43_mixer.md R173, R176) -/

namespace Sys2Proof.Claims

open Sys2Proof.Machine

variable {s : State} {nc ns v : Nat} {b : Bank} {voices : List Nat} {st : List Bank × MixAcc}

/-- An Idle voice of the order is skipped entirely. -/
theorem mixAll_eq_foldl_activeVoices (s : State) (nc ns : Nat) :
    mixAll s nc ns =
      (activeVoices s).foldl (mixOne s nc ns) (s.banks, ⟨clearOut s.params nc ns s.outBuf, false⟩) := by
  rw [mixAll, activeVoices, List.foldl_filter]
  refine List.foldl_ext _ _ _ fun st v _ => ?_
  split
  · rfl
  · next hidle => rw [mixOne, if_neg hidle]

theorem mixOne_of_active (hact : s.isActive v = true) (hb : st.1[v]? = some b) :
    mixOne s nc ns st v =
      (st.1.set v (mixVoice s.params s.inBuf v nc ns b st.2).1, (mixVoice s.params s.inBuf v nc ns b st.2).2) := by
  rw [mixOne, if_pos hact, hb]

/-- One add per voice, in their order. -/
theorem mixedSample_concat (s : State) (ns : Nat) (voices : List Nat) (hb : s.bank? v = some b) {n : Nat} (hn : n < ns) :
    mixedSample s ns (voices ++ [v]) n = plusOutputs (mixedSample s ns voices) (blockRun s v ns b).2.1 n := by
  rw [plusOutputs_of_lt (by rwa [length_blockRun_outputs]), mixedSample, List.foldl_concat, hb]
  rfl

/-- NF of a block that mixes the given voices: `BlockRaises` for a part of the active voices. -/
def MixRaises (s : State) (ns : Nat) (voices : List Nat) : Prop :=
  (∃ v ∈ voices, ∃ b, s.bank? v = some b ∧ (blockRun s v ns b).2.2 = true) ∨
  ∃ k n, k < voices.length ∧ n < ns ∧ isFinite (mixedSample s ns (voices.take (k + 1)) n) = false

/-- The whole block is the part of all the active voices. -/
theorem mixRaises_activeVoices (s : State) (ns : Nat) : MixRaises s ns (activeVoices s) ↔ BlockRaises s ns := Iff.rfl

theorem not_mixRaises_nil (s : State) (ns : Nat) : ¬ MixRaises s ns [] := by
  rintro (⟨v, hv, -⟩ | ⟨k, n, hk, -⟩)
  · exact List.not_mem_nil hv
  · exact Nat.not_lt_zero k hk

/-- One more voice raises NF in its bank or in its partial sums. -/
theorem mixRaises_concat (hb : s.bank? v = some b) :
    MixRaises s ns (voices ++ [v]) ↔
      MixRaises s ns voices ∨ (blockRun s v ns b).2.2 = true ∨
        ∃ n < ns, isFinite (mixedSample s ns (voices ++ [v]) n) = false := by
  have hbanks : (∃ w ∈ voices ++ [v], ∃ c, s.bank? w = some c ∧ (blockRun s w ns c).2.2 = true) ↔
      (∃ w ∈ voices, ∃ c, s.bank? w = some c ∧ (blockRun s w ns c).2.2 = true) ∨ (blockRun s v ns b).2.2 = true := by
    simp [or_and_right, exists_or, hb]
  have hsums : (∃ k n, k < (voices ++ [v]).length ∧ n < ns ∧
        isFinite (mixedSample s ns ((voices ++ [v]).take (k + 1)) n) = false) ↔
      (∃ k n, k < voices.length ∧ n < ns ∧ isFinite (mixedSample s ns (voices.take (k + 1)) n) = false) ∨
        ∃ n < ns, isFinite (mixedSample s ns (voices ++ [v]) n) = false := by
    simp only [exists_and_left]
    rw [List.length_append, List.length_singleton, Nat.exists_lt_succ_right, List.take_of_length_le (by simp)]
    refine or_congr_left (exists_congr fun k => and_congr_right fun hk => ?_)
    rw [List.take_append_of_le_length hk]
  rw [MixRaises, hbanks, hsums, MixRaises, or_or_or_comm]

/-- The block has mixed the given voices, in their order: their banks have run, `OUT` holds their sums, and NF tells of
both. -/
structure Mixed (s : State) (nc ns : Nat) (voices : List Nat) (st : List Bank × MixAcc) : Prop where
  bank : ∀ v b, s.bank? v = some b → st.1[v]? = some (if v ∈ voices then (blockRun s v ns b).1 else b)
  out : HoldsBlock s.params nc ns s.outBuf (mixedSample s ns voices) st.2.out
  nf : st.2.nf = true ↔ MixRaises s ns voices

theorem mixed_nil (s : State) (nc ns : Nat) (h : s.outBuf.wf) :
    Mixed s nc ns [] (s.banks, ⟨clearOut s.params nc ns s.outBuf, false⟩) where
  bank v b hb := hb.trans (by rw [if_neg List.not_mem_nil])
  out := holdsBlock_clearOut s.params nc ns h
  nf := iff_of_false Bool.false_ne_true (not_mixRaises_nil s ns)

/-- The next active voice runs its bank and adds its outputs. -/
theorem Mixed.concat (h : Mixed s nc ns voices st) (hnc : 1 ≤ nc) (hns : ns ≤ s.params.maxBlockCap)
    (hact : s.isActive v = true) (hnew : v ∉ voices) : Mixed s nc ns (voices ++ [v]) (mixOne s nc ns st v) := by
  obtain ⟨b, hb⟩ := State.exists_bank_of_isActive hact
  have hst : st.1[v]? = some b := (h.bank v b hb).trans (by rw [if_neg hnew])
  have hvoice := voiceMixed_mixVoice h.out hnc hns v b le_rfl
  rw [mixOne_of_active hact hst]
  refine ⟨fun w c hc => ?_, ?_, ?_⟩
  · obtain ⟨hv, -⟩ := List.getElem?_eq_some_iff.1 hst
    by_cases hw : w = v
    · subst hw
      obtain rfl : b = c := Option.some.inj (hb.symm.trans hc)
      rw [List.getElem?_set_self hv, if_pos (List.mem_concat_self), hvoice.bank]
    · rw [List.getElem?_set_ne (Ne.symm hw), h.bank w c hc]
      simp [hw]
  · exact hvoice.out.congr fun n hn => (mixedSample_concat s ns voices hb hn).symm
  · rw [hvoice.nf, h.nf, mixRaises_concat hb, length_blockRun_outputs]
    refine or_congr_right (or_congr_right (exists_congr fun n => and_congr_right fun hn => ?_))
    rw [mixedSample_concat s ns voices hb hn]

/-- A voice occurs once in `VOICE_ORDER`, so each active bank runs once. -/
theorem mixed_mixAll (hwf : s.outBuf.wf) (horder : s.params.voiceOrder.Nodup) (hnc : 1 ≤ nc)
    (hns : ns ≤ s.params.maxBlockCap) : Mixed s nc ns (activeVoices s) (mixAll s nc ns) := by
  have hall : ∀ voices : List Nat, voices.Nodup → (∀ v ∈ voices, s.isActive v = true) →
      Mixed s nc ns voices
        (voices.foldl (mixOne s nc ns) (s.banks, ⟨clearOut s.params nc ns s.outBuf, false⟩)) := by
    intro voices
    induction voices using List.reverseRecOn with
    | nil => exact fun _ _ => mixed_nil s nc ns hwf
    | append_singleton voices v ih =>
      intro hnodup hact
      rw [List.foldl_concat]
      obtain ⟨hvoices, -, hdisj⟩ := List.nodup_append.1 hnodup
      exact (ih hvoices fun w hw => hact w (List.mem_append_left _ hw)).concat hnc hns (hact v (List.mem_concat_self))
        fun hv => hdisj v hv v (List.mem_singleton_self v) rfl
  rw [mixAll_eq_foldl_activeVoices]
  exact hall _ (horder.filter _) fun v hv => (List.mem_filter.1 hv).2

/-- With no voice active a block is the clear of its destination (43_mixer.md R179). -/
theorem mixAll_of_idle (hidle : ∀ v, s.isActive v = false) (nc ns : Nat) :
    mixAll s nc ns = (s.banks, ⟨clearOut s.params nc ns s.outBuf, false⟩) := by
  rw [mixAll_eq_foldl_activeVoices, activeVoices, filter_isActive_of_idle hidle, List.foldl_nil]

end Sys2Proof.Claims

/-! ## The mixer commands (43_mixer.md R170 to R181) -/

namespace Sys2Proof.Machine

variable {s : State} {v : BitVec 8} {b : Bank} {sr : F32} {n act ns nc : Word}

/-- `ENG.PREP` before its response: the rate, the block size and every bank prepared (43_mixer.md R170). -/
def State.engPrepared (s : State) (sr : F32) (n : Nat) : State :=
  { s with engineSr := sr, maxBlk := n, banks := s.banks.map fun b => b.prep s.params sr }

/-- `MIX.BLOCK` before its response: the banks run and `OUT` mixed (43_mixer.md R176). -/
def State.mixed (s : State) (nc ns : Nat) : State :=
  { s with banks := (mixAll s nc ns).1, outBuf := (mixAll s nc ns).2.out }

@[simp] theorem State.mixed_status (s : State) (nc ns : Nat) : (s.mixed nc ns).status = s.status := rfl

@[simp] theorem State.mixed_responses (s : State) (nc ns : Nat) : (s.mixed nc ns).responses = s.responses := rfl

theorem State.bank?_engPrepared (s : State) (sr : F32) (n v : Nat) :
    (s.engPrepared sr n).bank? v = (s.bank? v).map fun b => b.prep s.params sr := List.getElem?_map

theorem exec_engPrep_of_valid (hsr : isFinite sr = true) (hpos : ratePositive sr = true) (h1 : 1 ≤ n.toNat)
    (hcap : n.toNat ≤ s.params.maxBlockCap) :
    exec (.engPrep sr n) s = .next ((s.engPrepared sr n.toNat).answered .ok 1) := by
  calc exec (.engPrep sr n) s = execEngPrep sr n s := rfl
    _ = _ := by
      rw [execEngPrep, hsr, hpos, if_neg (c := _ ∨ _) (by omega)]
      rfl

theorem exec_mixSetact_of_bank (hb : s.bank? v.toNat = some b) (hact : act.toNat ≤ 1) :
    exec (.mixSetact v act) s =
      .next (({ s with active := setBit s.active v.toNat (decide (act = 1)) } : State).answered .ok 0) := by
  calc exec (.mixSetact v act) s = execMixSetact v act s := rfl
    _ = _ := by
      rw [execMixSetact, onBank_of_some hb, if_neg (Nat.not_lt.2 hact)]
      rfl

theorem exec_mixBlock_of_limits (hns : ns.toNat ≤ s.maxBlk) (h1 : 1 ≤ nc.toNat) (hnc : nc.toNat ≤ s.params.numChMax) :
    exec (.mixBlock ns nc) s =
      .next ((s.mixed nc.toNat ns.toNat).completed (mixAll s nc.toNat ns.toNat).2.nf 0) := by
  calc exec (.mixBlock ns nc) s = execMixBlock ns nc s := rfl
    _ = complete (mixAll s nc.toNat ns.toNat).2.nf 0 (s.mixed nc.toNat ns.toNat) := by
      rw [execMixBlock, if_neg (Nat.not_lt.2 hns), if_neg (by omega)]
      rfl
    _ = _ := complete_eq ..

theorem exec_mixPanic (s : State) : exec .mixPanic s = .next (({ s with active := 0 } : State).answered .ok 0) := rfl

end Sys2Proof.Machine

namespace Sys2Proof.Claims

open Sys2Proof.Machine

theorem readsOut_mixCount (s : State) : ReadsOut .mixCount s s.activeCount := rfl

/-- Settles O51, by induction on the active voices: `Mixed` holds after each of them. -/
theorem mixBlockSumsTheActiveBanks : Obligations.MixBlockSumsTheActiveBanks := by
  intro s ns nc hns h1 hnc hmax hwf horder
  obtain ⟨hbank, hout, hnf⟩ := mixed_mixAll hwf horder h1 (hns.trans hmax)
  exact ⟨_, exec_mixBlock_of_limits hns h1 hnc,
    endsWithNf_completed (State.mixed_status ..) (State.mixed_responses ..)
      (hnf.trans (mixRaises_activeVoices s ns.toNat)) _,
    ⟨rfl, length_mixAll .., rfl⟩, ⟨rfl, rfl, rfl⟩, fun _ => rfl, hout.range, hout.rest, hbank⟩

/-- Settles O52: no voice is active, so the block is the cleared destination. -/
theorem blockAfterPanicIsSilent : Obligations.BlockAfterPanicIsSilent := by
  intro s t ns nc hpanic hns h1 hnc hwf
  obtain rfl := Host.Outcome.next.inj (hpanic.symm.trans (exec_mixPanic s))
  have hidle := State.isActive_of_active_eq_zero (s := ({ s with active := 0 } : State).answered .ok 0) rfl
  have hexec := exec_mixBlock_of_limits (s := ({ s with active := 0 } : State).answered .ok 0) hns h1 hnc
  rw [State.mixed, mixAll_of_idle hidle] at hexec
  exact ⟨_, hexec, rfl, rfl, fun _ => rfl, (holdsBlock_clearOut s.params nc.toNat ns.toNat hwf).range⟩

/-- Settles O54: the active voices are distinct, and each has a bank. -/
theorem activeCountIsBounded : Obligations.ActiveCountIsBounded := fun s =>
  calc s.activeCount.toNat = popcount s.activeWord % 2 ^ 32 := BitVec.toNat_ofNat ..
    _ ≤ popcount s.activeWord := Nat.mod_le ..
    _ ≤ s.nVoices := popcount_activeWord_le s

/-- Settles O49: each bank is prepared in its place. -/
theorem engPrepPreparesEveryBank : Obligations.EngPrepPreparesEveryBank := by
  intro s sr n hsr hpos h1 hcap
  refine ⟨_, exec_engPrep_of_valid hsr (ratePositive_of_units32_pos hsr hpos) h1 hcap, rfl, rfl,
    ⟨rfl, List.length_map .., rfl⟩, ⟨fun _ => rfl, fun _ => rfl⟩, rfl, rfl, rfl, fun v b hb => ⟨_, ?_, prepared_prep ..⟩⟩
  rw [State.answered_bank?, State.bank?_engPrepared, hb, Option.map_some]

/-- Settles O50: the other bits of the word are as before, and so are the hardwired zeros. -/
theorem mixSetactWritesOneBit : Obligations.MixSetactWritesOneBit := by
  intro s v act b hb hvoices hact
  have hv : v.toNat < s.nVoices := State.bank?_eq_some_lt hb
  have hv32 : v.toNat < 32 := hv.trans_le hvoices
  refine ⟨_, exec_mixSetact_of_bank hb hact, rfl, rfl, ⟨rfl, rfl, rfl⟩, ⟨fun _ => rfl, fun _ => rfl⟩, fun _ => rfl, rfl, rfl,
    ?_, fun w hw => ?_⟩
  · exact (Bool.eq_iff_iff.1 (State.isActive_setBit hv hv32 _ _)).trans (by rw [if_pos rfl, decide_eq_true_iff])
  · exact (State.isActive_setBit hv hv32 _ w).trans (if_neg hw)

/-- Settles O53: the word 0 has no bit of any voice, and `MIX.COUNT` counts the bits. -/
theorem mixPanicAndCount : Obligations.MixPanicAndCount := by
  intro s
  refine ⟨⟨_, exec_mixPanic s, rfl, rfl, ⟨rfl, rfl, rfl⟩, ⟨fun _ => rfl, fun _ => rfl⟩, fun _ => rfl, rfl, rfl, ?_, ?_⟩, ?_⟩
  · have hcount := readsOut_mixCount (({ s with active := 0 } : State).answered .ok 0)
    rwa [State.activeCount_of_idle (State.isActive_of_active_eq_zero rfl)] at hcount
  · exact State.isActive_of_active_eq_zero rfl
  · rw [← popcount_activeWord]
    exact readsOut_mixCount s

end Sys2Proof.Claims

/-! ## The buffer commands (44_buffers.md R190 to R193) -/

namespace Sys2Proof.Machine

variable {s : State} {v : BitVec 8} {b : Bank} {n ch : Word} {value : F32}

/-- `BUF.WRIN` before its response: the element `a_in(v, n)` of `IN` stored (44_buffers.md R190). -/
def State.inputWritten (s : State) (v n : Nat) (value : F32) : State :=
  { s with inBuf := s.inBuf.write (aIn s.params v n) value }

theorem State.read_inputWritten (hwf : s.inBuf.wf) (v n : Nat) (value : F32) (a : Nat) :
    (s.inputWritten v n value).inBuf.read a = if a = aIn s.params v n then value else s.inBuf.read a :=
  Memory.read_write hwf ..

/-- No check of `BUF.WRIN` rejects an element of `IN` and a finite value. -/
theorem exec_bufWrin_of_bank (hb : s.bank? v.toNat = some b) (hn : n.toNat < s.params.maxBlockCap)
    (hvalue : isFinite value = true) :
    exec (.bufWrin v n value) s = .next ((s.inputWritten v.toNat n.toNat value).answered .ok 0) := by
  calc exec (.bufWrin v n value) s = execBufWrin v n value s := rfl
    _ = _ := by
      rw [execBufWrin, onBank_of_some hb, if_neg (Nat.not_le.2 hn), hvalue]
      rfl

theorem exec_bufRdin_of_bank (hb : s.bank? v.toNat = some b) (hn : n.toNat < s.params.maxBlockCap) :
    exec (.bufRdin v n) s = .next (s.answered .ok (s.inBuf.read (aIn s.params v.toNat n.toNat))) := by
  calc exec (.bufRdin v n) s = execBufRdin v n s := rfl
    _ = _ := by
      rw [execBufRdin, onBank_of_some hb, if_neg (Nat.not_le.2 hn)]
      rfl

theorem exec_bufRdout_of_channel (hch : ch.toNat < s.params.numChMax) (hn : n.toNat < s.params.maxBlockCap) :
    exec (.bufRdout ch n) s = .next (s.answered .ok (s.outBuf.read (aOut s.params ch.toNat n.toNat))) := by
  calc exec (.bufRdout ch n) s = execBufRdout ch n s := rfl
    _ = _ := by
      rw [execBufRdout, if_neg (Nat.not_le.2 hch), if_neg (Nat.not_le.2 hn)]
      rfl

end Sys2Proof.Machine

namespace Sys2Proof.Claims

open Sys2Proof.Machine

variable {s : State} {v : BitVec 8} {b : Bank} {n : Word}

theorem readsOut_bufRdin (hb : s.bank? v.toNat = some b) (hn : n.toNat < s.params.maxBlockCap) {w : Word}
    (hw : s.inBuf.read (aIn s.params v.toNat n.toNat) = w) : ReadsOut (.bufRdin v n) s w := by
  subst hw
  exact exec_bufRdin_of_bank hb hn

/-- Settles O55: the write replaces one word of `IN`, and keeps the bank and the index limit that the read checks. -/
theorem bufWrinWritesOneElement : Obligations.BufWrinWritesOneElement := by
  intro s v n value b hb hn hvalue hwf
  have hread := State.read_inputWritten hwf v.toNat n.toNat value
  have hself := (hread (aIn s.params v.toNat n.toNat)).trans (if_pos rfl)
  have hother := fun a ha => (hread a).trans (if_neg ha)
  exact ⟨_, exec_bufWrin_of_bank hb hn hvalue, rfl, rfl, ⟨rfl, rfl, rfl⟩, ⟨rfl, rfl, rfl⟩, fun _ => rfl, fun _ => rfl, hself,
    hother, readsOut_bufRdin (s := (s.inputWritten v.toNat n.toNat value).answered .ok 0) hb hn hself⟩

/-- Settles O56: with the bank and the indices in range, each read answers the word at its address. -/
theorem bufReadsReturnTheStoredWord : Obligations.BufReadsReturnTheStoredWord :=
  ⟨fun _ _ _ _ hb hn => readsOut_bufRdin hb hn rfl, fun _ _ _ hch hn => exec_bufRdout_of_channel hch hn⟩

end Sys2Proof.Claims

/-! ## The system commands (45_system.md R200 to R205) -/

namespace Sys2Proof.Machine

variable {s : State} {v : BitVec 8} {m : BitVec 4} {b : Bank} {sl : Slot} {sel w : Word}

/-! ### The selector maps are the rows of the access table in their order (10_state.md R41) -/

theorem Tag.word_eq_ite (t : Tag) : t.word = if t = .harmonic then 0 else 1 := by cases t <;> rfl

theorem Slot.field?_eq_getElem? (sl : Slot) (k : Nat) :
    sl.field? k =
      [sl.freq, sl.decay, sl.sr, sl.amp, sl.b0, sl.a1, sl.a2, sl.s1, sl.s2, if sl.tag = .harmonic then 0 else 1][k]? := by
  rw [← Tag.word_eq_ite]
  match k with
  | 0 | 1 | 2 | 3 | 4 | 5 | 6 | 7 | 8 | 9 | _ + 10 => rfl

theorem Bank.field?_eq_getElem? (b : Bank) (k : Nat) :
    b.field? k = [BitVec.ofNat 32 b.countPend.val, BitVec.ofNat 32 b.countEff.val, b.norm, b.fund][k]? := by
  match k with
  | 0 | 1 | 2 | 3 | _ + 4 => rfl

theorem State.globalField?_eq_getElem? (s : State) (k : Nat) :
    s.globalField? k =
      [s.status.word, s.activeWord, BitVec.ofNat 32 (popcount s.activeWord), BitVec.ofNat 32 s.maxBlk, s.engineSr,
        0x4D524231, s.configWord][k]? := by
  match k with
  | 0 | 1 | 2 | 3 | 4 | 5 | 6 | _ + 7 => rfl

/-! ### The reads, where the selector names a field -/

theorem exec_rdMode_of_names (hn : s.Names v m b sl) (hw : sl.field? sel.toNat = some w) :
    exec (.rdMode v m sel) s = .next (s.answered .ok w) := by
  calc exec (.rdMode v m sel) s = execRdMode v m sel s := rfl
    _ = respondField (some w) s := by rw [execRdMode, onSlot_of_some hn.1 hn.2, hw]
    _ = _ := rfl

theorem exec_rdBank_of_bank (hb : s.bank? v.toNat = some b) (hw : b.field? sel.toNat = some w) :
    exec (.rdBank v sel) s = .next (s.answered .ok w) := by
  calc exec (.rdBank v sel) s = execRdBank v sel s := rfl
    _ = respondField (some w) s := by rw [execRdBank, onBank_of_some hb, hw]
    _ = _ := rfl

theorem exec_rdGlobal_of_field (hw : s.globalField? sel.toNat = some w) :
    exec (.rdGlobal sel) s = .next (s.answered .ok w) := by
  calc exec (.rdGlobal sel) s = execRdGlobal sel s := rfl
    _ = respondField (some w) s := by rw [execRdGlobal, hw]
    _ = _ := rfl

/-! ### The status record is no part of well-formedness (45_system.md R205) -/

theorem Status.word_cleared : Status.cleared.word = 0 := by decide

/-- `ST.CLEAR` before its response: the status record cleared (45_system.md R205). -/
def State.statusCleared (s : State) : State := { s with status := Status.cleared }

theorem exec_stClear (s : State) : exec .stClear s = .next (s.statusCleared.answered .ok 0) := rfl

theorem State.WellFormed.setRecord (h : s.WellFormed) (st : Status) (rs : List Response) :
    State.WellFormed { s with status := st, responses := rs } :=
  have hc := h.config
  ⟨⟨hc.params, hc.banks, hc.active, hc.maxBlk, hc.inWf, hc.inExtent, hc.inFinite, hc.outWf, hc.outExtent⟩, h.samples⟩

/-- Each of the two states is the other with STATUS and the responses replaced. -/
theorem State.wellFormed_statusCleared_answered_iff (c : Code) (r : Word) :
    (s.statusCleared.answered c r).WellFormed ↔ s.WellFormed :=
  ⟨fun h => h.setRecord s.status s.responses, fun h => h.setRecord Status.cleared _⟩

end Sys2Proof.Machine

namespace Sys2Proof.Claims

open Sys2Proof.Machine

theorem restKept_statusCleared (s : State) : RestKept s s.statusCleared :=
  ⟨⟨rfl, rfl, rfl⟩, ⟨rfl, rfl, rfl⟩, ⟨fun _ => rfl, fun _ => rfl⟩⟩

/-- Settles O57: no clause of well-formedness reads STATUS, and a clean entry is well formed, so its S1 and S2 are finite. -/
theorem nopAndStClear : Obligations.NopAndStClear := fun s =>
  have hwf := State.wellFormed_statusCleared_answered_iff (s := s) .ok 0
  ⟨rfl, _, exec_stClear s, rfl, Status.word_cleared, (restKept_statusCleared s).answered .ok 0, fun _ => rfl, hwf,
    fun hsamples hclean => hsamples (hwf.1 hclean.wellFormed).samples⟩

/-- Settles O58: each selector map is the list of the fields in the order of the access table. -/
theorem registerReadsReturnTheField : Obligations.RegisterReadsReturnTheField := by
  intro s sel w
  refine ⟨fun v m sl hs hw => ?_, fun v b hb hw => ?_, fun hw => ?_⟩
  · obtain ⟨b, hn⟩ := State.slot?_eq_some.1 hs
    exact exec_rdMode_of_names hn ((sl.field?_eq_getElem? _).trans hw)
  · exact exec_rdBank_of_bank hb ((b.field?_eq_getElem? _).trans hw)
  · exact exec_rdGlobal_of_field ((s.globalField?_eq_getElem? _).trans hw)

end Sys2Proof.Claims

/-! ## S1 and S2 stay flushed (40_numerics.md R118; 45_system.md R202) -/

namespace Sys2Proof.Machine

variable {eps : F32} {p : Params} {s : State} {b : Bank} {sl : Slot} {m : Nat}

/-- `x` is +0.0, or not below `eps` in magnitude and not -0.0: what the flush leaves (40_numerics.md R118). -/
def Flushed (eps x : F32) : Prop := x = 0x00000000 ∨ lt32 (abs32 x) eps = false ∧ x ≠ 0x80000000

/-- The magnitude of -0.0 is zero, which is below every `EPS_FLUSH`: the flush makes it +0.0. -/
theorem flushed_flush (heps : ratePositive eps = true) (x : F32) : Flushed eps (flush eps x) := by
  unfold flush
  split
  · exact .inl rfl
  · next hbig =>
    refine .inr ⟨Bool.eq_false_iff.2 hbig, ?_⟩
    rintro rfl
    have habs : abs32 0x80000000 = zero32 := by decide
    rw [habs] at hbig
    exact hbig heps

/-- S1 and S2 of a slot are flushed. -/
def Slot.SamplesFlushed (eps : F32) (sl : Slot) : Prop := Flushed eps sl.s1 ∧ Flushed eps sl.s2

/-- S1 and S2 of every slot of a bank are flushed. -/
def Bank.SamplesFlushed (eps : F32) (b : Bank) : Prop :=
  ∀ (m : Nat) (sl : Slot), b.slots[m]? = some sl → sl.SamplesFlushed eps

/-- A property of every slot that VID and MID can name is one of the slots of every bank. -/
theorem State.forall_slot?_iff {P : Slot → Prop} :
    (∀ v m sl, s.slot? v m = some sl → P sl) ↔
      ∀ b ∈ s.banks, ∀ (m : Nat) (sl : Slot), b.slots[m]? = some sl → P sl := by
  rw [← State.forall_bank?_iff]
  simp only [State.slot?_eq_some]
  exact ⟨fun h v b hb m sl hs => h v m sl ⟨b, hb, hs⟩, fun h v m sl ⟨b, hb, hs⟩ => h v b hb m sl hs⟩

/-! ### The two ways S1 and S2 are written: a step and a reset -/

theorem Slot.samplesFlushed_clear (eps : F32) (sl : Slot) : sl.clear.SamplesFlushed eps := ⟨.inl rfl, .inl rfl⟩

theorem Slot.samplesFlushed_step (heps : ratePositive p.epsFlush = true) (sl : Slot) (x : F32) :
    (sl.step p x).st.SamplesFlushed p.epsFlush :=
  ⟨flushed_flush heps _, flushed_flush heps _⟩

theorem Bank.SamplesFlushed.putSlot (hb : b.SamplesFlushed eps) (hs : b.slots[m]? = some sl) {sl' : Slot}
    (h : sl'.SamplesFlushed eps) : (b.putSlot m sl').SamplesFlushed eps := by
  obtain ⟨hm, -⟩ := Vector.getElem?_eq_some_iff.1 hs
  intro k old hk
  rw [Bank.slots_putSlot hm] at hk
  split at hk
  · exact Option.some.inj hk ▸ h
  · exact hb k old hk

theorem Bank.samplesFlushed_clear (eps : F32) (b : Bank) : b.clear.SamplesFlushed eps := by
  intro m sl' hs
  rw [Bank.slots_clear, Option.map_eq_some_iff] at hs
  obtain ⟨sl, -, rfl⟩ := hs
  exact sl.samplesFlushed_clear eps

theorem Bank.SamplesFlushed.step (hb : b.SamplesFlushed p.epsFlush) (heps : ratePositive p.epsFlush = true) (x : F32) :
    (b.step p x).st.SamplesFlushed p.epsFlush := by
  intro m sl' hs
  rw [Bank.slots_step, Option.map_eq_some_iff] at hs
  obtain ⟨sl, hsl, rfl⟩ := hs
  split
  · exact sl.samplesFlushed_step heps x
  · exact hb m sl hsl

/-! ### A block is bank steps -/

theorem samplesFlushed_mixVoice (hb : b.SamplesFlushed p.epsFlush) (heps : ratePositive p.epsFlush = true)
    (inBuf : Memory) (v nc ns : Nat) (acc : MixAcc) : (mixVoice p inBuf v nc ns b acc).1.SamplesFlushed p.epsFlush :=
  List.foldlRecOn (List.range ns) (mixSample p inBuf v nc) (motive := fun st => st.1.SamplesFlushed p.epsFlush) hb
    fun _ ih _ _ => ih.step heps _

end Sys2Proof.Machine

namespace Sys2Proof.Claims

open Sys2Proof.Machine

variable {s t : State} {i : Instr} {b : Bank} {sl : Slot}

/-- S1 and S2 of every slot are flushed. -/
def SamplesFlushed (s : State) : Prop := ∀ b ∈ s.banks, b.SamplesFlushed s.params.epsFlush

theorem samplesFlushed_mixed (hs : SamplesFlushed s) (heps : ratePositive s.params.epsFlush = true) (nc ns : Nat) :
    SamplesFlushed (s.mixed nc ns) := by
  refine List.foldlRecOn s.params.voiceOrder (mixOne s nc ns)
    (motive := fun st => ∀ b ∈ st.1, b.SamplesFlushed s.params.epsFlush) ?_ fun st ih v _ => ?_
  · exact hs
  obtain heq | ⟨b, hb, heq⟩ := mixOne_cases s nc ns st v
  · rwa [heq]
  · rw [heq]
    exact forall_mem_set ih (samplesFlushed_mixVoice (ih b (List.mem_of_getElem? hb)) heps s.inBuf v nc ns st.2)

/-- A command on one slot keeps the banks flushed when the slot it writes is. -/
theorem samplesFlushed_putSlot {v : BitVec 8} {m : BitVec 4} (hs : SamplesFlushed s) (hn : s.Names v m b sl) {sl' : Slot}
    (h : sl'.SamplesFlushed s.params.epsFlush) : SamplesFlushed (s.putSlot v b m sl') :=
  forall_mem_set hs ((hs b (mem_banks_of_bank? hn.1)).putSlot hn.2 h)

/-- The writers of S1 and S2 step slots or reset them. -/
theorem samplesFlushed_of_runsFilters (hs : SamplesFlushed s) (heps : ratePositive s.params.epsFlush = true)
    (hi : RunsFilters i) (he : Effect i s t) : SamplesFlushed t := by
  obtain ⟨v, m, x, rfl⟩ | ⟨v, x, rfl⟩ | ⟨ns, nc, rfl⟩ | ⟨v, m, rfl⟩ | ⟨v, rfl⟩ := hi
  · obtain ⟨b, sl, hn, -, rfl⟩ := he
    exact samplesFlushed_putSlot hs hn (sl.samplesFlushed_step heps x)
  · obtain ⟨b, hb, -, rfl⟩ := he
    exact forall_mem_set hs ((hs b (mem_banks_of_bank? hb)).step heps x)
  · obtain ⟨-, -, -, rfl⟩ := he
    exact samplesFlushed_mixed hs heps nc.toNat ns.toNat
  · obtain ⟨b, sl, hn, rfl⟩ := he
    exact samplesFlushed_putSlot hs hn (sl.samplesFlushed_clear _)
  · obtain ⟨b, hb, rfl⟩ := he
    exact forall_mem_set hs (b.samplesFlushed_clear _)

/-- Every other command leaves S1 and S2 of every slot as they are. -/
theorem samplesFlushed_of_effect (hs : SamplesFlushed s) (heps : ratePositive s.params.epsFlush = true)
    (he : Effect i s t) : SamplesFlushed t := by
  by_cases hi : RunsFilters i
  · exact samplesFlushed_of_runsFilters hs heps hi he
  · have hk := portKept_of_effect he
    refine State.forall_slot?_iff.1 fun v m sl' ht => ?_
    obtain ⟨sl, hsl, hw⟩ := (banksWrites_of_effect he).exists_slot hk.nVoices ht
    have hkept : (sl'.s1, sl'.s2) = (sl.s1, sl.s2) := not_not.1 fun hne => hi (hw.state hne)
    obtain ⟨h1, h2⟩ := Prod.mk.inj hkept
    rw [Slot.SamplesFlushed, h1, h2, hk.params]
    exact State.forall_slot?_iff.2 hs v m sl hsl

theorem samplesFlushed_of_step (hs : SamplesFlushed s) (heps : ratePositive s.params.epsFlush = true)
    (h : step s = .next t) : SamplesFlushed t := by
  rw [step_eq] at h
  split at h
  · exact Host.Outcome.next.inj h ▸ hs
  · next c rest _ =>
    obtain ⟨code, rfl⟩ | ⟨i, he⟩ := runCommand_cases h
    · exact hs
    · exact samplesFlushed_of_effect (s := { s with pending := rest }) hs heps he

/-- Settles O22: a step and a reset of a slot leave flushed values, and nothing else writes S1 and S2. -/
theorem stateSamplesStayFlushed : Obligations.StateSamplesStayFlushed := by
  intro s t heps hs h
  exact State.forall_slot?_iff.2 (samplesFlushed_of_step (State.forall_slot?_iff.1 hs) heps h)

end Sys2Proof.Claims

/-! ## The verdict on a command: the first failing check, or how it ends (60_exceptions.md R222 to R226) -/

namespace Sys2Proof.Machine

variable {s u : State} {i : Instr} {c : Code} {q : Option Code} {o : Outcome}

/-- The first operand check of a command that fails, by its code, in the order of the table (60_exceptions.md R224). -/
def failedOperandCheck (i : Instr) (s : State) : Option Code :=
  match i with
  | .mfCfg _ _ freq decay sr =>
    if !(isFinite freq && isFinite decay && isFinite sr) then some .eOperand
    else if !ratePositive sr then some .eOperand
    else none
  | .mfStep _ _ x => if !isFinite x then some .eOperand else none
  | .rbSetfreq _ _ hz => if !isFinite hz then some .eOperand else none
  | .rbSetdecay _ _ ms sr =>
    if !(isFinite ms && isFinite sr) then some .eOperand else if !ratePositive sr then some .eOperand else none
  | .rbSetamp _ _ amp => if !isFinite amp then some .eOperand else none
  | .rbSettag _ _ tag => if 1 < tag.toNat then some .eOperand else none
  | .rbSetcount _ n => if n.toNat < 9 then none else some .eCount
  | .rbTune v fund =>
    if !isFinite fund then some .eOperand
    else if !(s.bank? v.toNat).all fun b => (b.partials fund).toList.all isFinite then some .eOperand
    else none
  | .rbPrep _ sr => if !isFinite sr then some .eOperand else if !ratePositive sr then some .eOperand else none
  | .rbStep _ x => if !isFinite x then some .eOperand else none
  | .engPrep sr maxblk =>
    if !isFinite sr then some .eOperand
    else if !ratePositive sr then some .eOperand
    else if maxblk.toNat < 1 ∨ s.params.maxBlockCap < maxblk.toNat then some .eBlock
    else none
  | .mixSetact _ act => if 1 < act.toNat then some .eOperand else none
  | .mixBlock ns nc =>
    if s.maxBlk < ns.toNat then some .eBlock
    else if nc.toNat < 1 ∨ s.params.numChMax < nc.toNat then some .eBlock
    else none
  | .bufWrin _ n value =>
    if s.params.maxBlockCap ≤ n.toNat then some .eIndex else if !isFinite value then some .eOperand else none
  | .bufRdin _ n => if s.params.maxBlockCap ≤ n.toNat then some .eIndex else none
  | .bufRdout ch n =>
    if s.params.numChMax ≤ ch.toNat then some .eIndex
    else if s.params.maxBlockCap ≤ n.toNat then some .eIndex
    else none
  | .rdMode _ _ sel => if 9 < sel.toNat then some .eOperand else none
  | .rdBank _ sel => if 3 < sel.toNat then some .eOperand else none
  | .rdGlobal sel => if 6 < sel.toNat then some .eOperand else none
  | .nop | .mfRst _ _ | .rbRst _ | .mixPanic | .mixCount | .stClear => none

/-- The code with which a command is rejected: VID, then MID, then the operand checks (60_exceptions.md R223). -/
def rejection? (i : Instr) (s : State) : Option Code :=
  if i.voiceOk s.nVoices then if i.modeOk then failedOperandCheck i s else some .eMode else some .eVoice

/-- The commands that can raise NF (60_exceptions.md R226). -/
def RaisesNf (i : Instr) : Prop :=
  (∃ v m x, i = .mfStep v m x) ∨ (∃ v x, i = .rbStep v x) ∨ ∃ ns nc, i = .mixBlock ns nc

/-- The record of responses and STATUS are as before. -/
structure RecordKept (s u : State) : Prop where
  responses : u.responses = s.responses
  status : u.status = s.status

/-- What an accepted command has done to the record of responses and STATUS before its response, and when it may report
`W_NF`. -/
structure Accepted (i : Instr) (s u : State) (nf : Bool) : Prop where
  responses : u.responses = s.responses
  status : u.status = s.status ∨ i = .stClear ∧ u.status = Status.cleared
  raises : nf = true → RaisesNf i

theorem Accepted.status_of_ne {nf : Bool} (ha : Accepted i s u nf) (hi : i ≠ .stClear) : u.status = s.status :=
  ha.status.resolve_right fun h => hi h.1

theorem RaisesNf.ne_stClear (h : RaisesNf i) : i ≠ .stClear := by
  rintro rfl
  rcases h with ⟨_, _, _, ⟨⟩⟩ | ⟨_, _, ⟨⟩⟩ | ⟨_, _, ⟨⟩⟩

/-- The outcome of a command by its verdict: the rejection with the code, or an accepted command's end. -/
def Verdict (i : Instr) (s : State) (o : Outcome) : Option Code → Prop
  | some c => Code.IsError c ∧ o = .next (s.rejected c)
  | none => ∃ u nf r, o = .next (u.completed nf r) ∧ Accepted i s u nf

/-! ### The verdict, one shared operation at a time -/

theorem verdict_reject (hc : Code.IsError c) : Verdict i s (reject c s) (some c) := ⟨hc, rfl⟩

theorem verdict_respond {r : Word} (h : RecordKept s u) : Verdict i s (respond .ok r u) none :=
  ⟨u, false, r, rfl, h.responses, .inl h.status, fun h => absurd h Bool.false_ne_true⟩

theorem verdict_complete {nf : Bool} {r : Word} (hi : RaisesNf i) (h : RecordKept s u) :
    Verdict i s (complete nf r u) none :=
  ⟨u, nf, r, complete_eq nf r u, h.responses, .inl h.status, fun _ => hi⟩

theorem verdict_check {p : Prop} [Decidable p] (hc : Code.IsError c) (h : Verdict i s o q) :
    Verdict i s (if p then reject c s else o) (if p then some c else q) := by
  split
  · exact verdict_reject hc
  · exact h

theorem isError_eOperand : Code.IsError .eOperand := ⟨nofun, nofun⟩

theorem isError_eBlock : Code.IsError .eBlock := ⟨nofun, nofun⟩

theorem isError_eIndex : Code.IsError .eIndex := ⟨nofun, nofun⟩

/-- A register read is rejected by its selector alone. -/
theorem verdict_respondField {field : Option Word} {p : Prop} [Decidable p] (h : field = none ↔ p) :
    Verdict i s (respondField field s) (if p then some .eOperand else none) := by
  cases field with
  | none => rw [if_pos (h.1 rfl)]; exact verdict_reject isError_eOperand
  | some w => rw [if_neg fun hp => nomatch h.2 hp]; exact verdict_respond ⟨rfl, rfl⟩

theorem State.bank?_eq_none_iff {v : Nat} : s.bank? v = none ↔ ¬ v < s.nVoices :=
  List.getElem?_eq_none_iff.trans Nat.not_lt.symm

theorem verdict_onBank {v : BitVec 8} {k : Bank → Outcome} (hv : i.voice? = some v) (hm : i.mode? = none)
    (h : ∀ b, s.bank? v.toNat = some b → Verdict i s (k b) (failedOperandCheck i s)) :
    Verdict i s (onBank v s k) (rejection? i s) := by
  simp only [rejection?, Instr.voiceOk, Instr.modeOk, hv, hm, Option.all_some, Option.all_none, if_true,
    decide_eq_true_eq]
  cases hb : s.bank? v.toNat with
  | none =>
    rw [if_neg (State.bank?_eq_none_iff.1 hb), onBank, hb]
    exact verdict_reject ⟨nofun, nofun⟩
  | some b =>
    rw [if_pos (State.bank?_eq_some_lt hb), onBank_of_some hb]
    exact h b hb

theorem verdict_onSlot {v : BitVec 8} {m : BitVec 4} {k : Bank → Slot → Outcome} (hv : i.voice? = some v)
    (hm : i.mode? = some m) (h : ∀ b sl, s.Names v m b sl → Verdict i s (k b sl) (failedOperandCheck i s)) :
    Verdict i s (onSlot v m s k) (rejection? i s) := by
  simp only [rejection?, Instr.voiceOk, Instr.modeOk, hv, hm, Option.all_some, decide_eq_true_eq]
  cases hb : s.bank? v.toNat with
  | none =>
    rw [if_neg (State.bank?_eq_none_iff.1 hb), onSlot, onBank, hb]
    exact verdict_reject ⟨nofun, nofun⟩
  | some b =>
    rw [if_pos (State.bank?_eq_some_lt hb), onSlot, onBank_of_some hb]
    by_cases hm8 : m.toNat < 8
    · have hs : b.slots[m.toNat]? = some b.slots[m.toNat] := Vector.getElem?_eq_getElem hm8
      rw [if_pos hm8, hs]
      exact h b _ ⟨hb, hs⟩
    · rw [if_neg hm8, Vector.getElem?_eq_none (Nat.not_lt.1 hm8)]
      exact verdict_reject ⟨nofun, nofun⟩

theorem verdict_global (hv : i.voice? = none) (hm : i.mode? = none) (h : Verdict i s o (failedOperandCheck i s)) :
    Verdict i s o (rejection? i s) := by
  rwa [rejection?, Instr.voiceOk, Instr.modeOk, hv, hm]

/-! ### The operands that name nothing -/

theorem tagOfWord_eq_none_iff {w : Word} : tagOfWord w = none ↔ 1 < w.toNat := by
  rcases Nat.lt_or_ge 1 w.toNat with h | h
  · have h0 : w ≠ 0 := by bv_omega
    have h1 : w ≠ 1 := by bv_omega
    exact iff_of_true (by rw [tagOfWord, if_neg h0, if_neg h1]) h
  · exact iff_of_false (by rw [tagOfWord_of_le_one h]; exact Option.some_ne_none _) (Nat.not_lt.2 h)

theorem Slot.field?_eq_none_iff (sl : Slot) (k : Nat) : sl.field? k = none ↔ 9 < k := by
  rw [Slot.field?_eq_getElem?, List.getElem?_eq_none_iff]
  rfl

theorem Bank.field?_eq_none_iff (b : Bank) (k : Nat) : b.field? k = none ↔ 3 < k := by
  rw [Bank.field?_eq_getElem?, List.getElem?_eq_none_iff]
  rfl

theorem State.globalField?_eq_none_iff (s : State) (k : Nat) : s.globalField? k = none ↔ 6 < k := by
  rw [State.globalField?_eq_getElem?, List.getElem?_eq_none_iff]
  rfl

/-- Every command is rejected with its first failing check, or ends as an accepted command. -/
theorem exec_verdict (i : Instr) (s : State) : Verdict i s (exec i s) (rejection? i s) := by
  cases i with
  | nop | mixPanic | mixCount => exact verdict_global rfl rfl (verdict_respond ⟨rfl, rfl⟩)
  | stClear =>
    have h : Accepted .stClear s s.statusCleared false :=
      ⟨rfl, .inr ⟨rfl, rfl⟩, fun h => absurd h Bool.false_ne_true⟩
    exact verdict_global rfl rfl ⟨s.statusCleared, false, 0, rfl, h⟩
  | mfRst => exact verdict_onSlot rfl rfl fun _ _ _ => verdict_respond ⟨rfl, rfl⟩
  | rbSetfreq | rbSetamp =>
    exact verdict_onSlot rfl rfl fun _ _ _ => verdict_check isError_eOperand (verdict_respond ⟨rfl, rfl⟩)
  | mfCfg | rbSetdecay =>
    exact verdict_onSlot rfl rfl fun _ _ _ =>
      verdict_check isError_eOperand (verdict_check isError_eOperand (verdict_respond ⟨rfl, rfl⟩))
  | mfStep v m x =>
    exact verdict_onSlot rfl rfl fun _ _ _ =>
      verdict_check isError_eOperand (verdict_complete (.inl ⟨v, m, x, rfl⟩) ⟨rfl, rfl⟩)
  | rbSettag v m tag =>
    refine verdict_onSlot rfl rfl fun b sl _ => ?_
    rw [failedOperandCheck]
    cases ht : tagOfWord tag with
    | none => rw [if_pos (tagOfWord_eq_none_iff.1 ht)]; exact verdict_reject isError_eOperand
    | some t =>
      rw [if_neg fun h => nomatch ht.symm.trans (tagOfWord_eq_none_iff.2 h)]
      exact verdict_respond ⟨rfl, rfl⟩
  | rbSetcount v n =>
    refine verdict_onBank rfl rfl fun b _ => ?_
    rw [failedOperandCheck]
    by_cases hn : n.toNat < 9
    · rw [if_pos hn, dif_pos hn]; exact verdict_respond ⟨rfl, rfl⟩
    · rw [if_neg hn, dif_neg hn]; exact verdict_reject ⟨nofun, nofun⟩
  | rbTune v fund =>
    refine verdict_onBank rfl rfl fun b hb => ?_
    rw [failedOperandCheck, hb, Option.all_some]
    exact verdict_check isError_eOperand (verdict_check isError_eOperand (verdict_respond ⟨rfl, rfl⟩))
  | rbPrep =>
    exact verdict_onBank rfl rfl fun _ _ =>
      verdict_check isError_eOperand (verdict_check isError_eOperand (verdict_respond ⟨rfl, rfl⟩))
  | rbRst => exact verdict_onBank rfl rfl fun _ _ => verdict_respond ⟨rfl, rfl⟩
  | rbStep v x =>
    exact verdict_onBank rfl rfl fun _ _ =>
      verdict_check isError_eOperand (verdict_complete (.inr (.inl ⟨v, x, rfl⟩)) ⟨rfl, rfl⟩)
  | engPrep =>
    exact verdict_global rfl rfl
      (verdict_check isError_eOperand (verdict_check isError_eOperand (verdict_check isError_eBlock
        (verdict_respond ⟨rfl, rfl⟩))))
  | mixSetact => exact verdict_onBank rfl rfl fun _ _ => verdict_check isError_eOperand (verdict_respond ⟨rfl, rfl⟩)
  | mixBlock ns nc =>
    exact verdict_global rfl rfl (verdict_check isError_eBlock (verdict_check isError_eBlock
      (verdict_complete (.inr (.inr ⟨ns, nc, rfl⟩)) ⟨rfl, rfl⟩)))
  | bufWrin =>
    exact verdict_onBank rfl rfl fun _ _ =>
      verdict_check isError_eIndex (verdict_check isError_eOperand (verdict_respond ⟨rfl, rfl⟩))
  | bufRdin => exact verdict_onBank rfl rfl fun _ _ => verdict_check isError_eIndex (verdict_respond ⟨rfl, rfl⟩)
  | bufRdout =>
    exact verdict_global rfl rfl
      (verdict_check isError_eIndex (verdict_check isError_eIndex (verdict_respond ⟨rfl, rfl⟩)))
  | rdMode => exact verdict_onSlot rfl rfl fun _ sl _ => verdict_respondField (sl.field?_eq_none_iff _)
  | rdBank => exact verdict_onBank rfl rfl fun b _ => verdict_respondField (b.field?_eq_none_iff _)
  | rdGlobal => exact verdict_global rfl rfl (verdict_respondField (s.globalField?_eq_none_iff _))

/-- The two ends of a command, once its outcome is known. -/
theorem exec_ends {t : State} (h : exec i s = .next t) :
    (∃ c, rejection? i s = some c ∧ Code.IsError c ∧ t = s.rejected c) ∨
      rejection? i s = none ∧ ∃ u nf r, t = u.completed nf r ∧ Accepted i s u nf := by
  have hv := exec_verdict i s
  cases hq : rejection? i s with
  | some c =>
    obtain ⟨hc, ho⟩ : Code.IsError c ∧ exec i s = .next (s.rejected c) := by rwa [hq] at hv
    exact .inl ⟨c, rfl, hc, Host.Outcome.next.inj (h.symm.trans ho)⟩
  | none =>
    obtain ⟨u, nf, r, ho, ha⟩ : ∃ u nf r, exec i s = .next (u.completed nf r) ∧ Accepted i s u nf := by
      rwa [hq] at hv
    exact .inr ⟨rfl, u, nf, r, Host.Outcome.next.inj (h.symm.trans ho), ha⟩

theorem exec_of_rejection (h : rejection? i s = some c) : Code.IsError c ∧ exec i s = .next (s.rejected c) := by
  have hv := exec_verdict i s
  rwa [h] at hv

end Sys2Proof.Machine

namespace Sys2Proof.Claims

open Sys2Proof.Machine

variable {i : Instr} {s t u : State} {c c' : Code} {r r' : Word} {v : BitVec 8} {m : BitVec 4} {b : Bank} {sl : Slot}

/-! ### The response of a command says how it ended -/

theorem Answers.unique (h : Answers s t c r) (h' : Answers s t c' r') : c = c' ∧ r = r' := by
  simpa using h.symm.trans h'

theorem answers_rejected (s : State) (c : Code) : Answers s (s.rejected c) c 0 := rfl

/-- An accepted command answers `OK` or `W_NF`. -/
theorem code_of_accepted {nf : Bool} (ha : Accepted i s u nf) (h : Answers s (u.completed nf r) c r') :
    c = if nf then .wNf else .ok :=
  (h.unique (answers_completed ha.responses nf r)).1

theorem not_isError_of_accepted {nf : Bool} (ha : Accepted i s u nf) (h : Answers s (u.completed nf r) c r') :
    ¬ Code.IsError c := by
  rintro ⟨hok, hwnf⟩
  have hc := code_of_accepted ha h
  cases nf
  · exact hok hc
  · exact hwnf hc

/-- A command is rejected with a code exactly if its first failing check has it. -/
theorem rejectedWith_iff (hc : Code.IsError c) : RejectedWith i s c ↔ rejection? i s = some c := by
  refine ⟨fun h => ?_, fun h => (exec_of_rejection h).2⟩
  have hans : Answers s (s.rejected c) c 0 := answers_rejected s c
  obtain ⟨c', hq, -, ht⟩ | ⟨-, u, nf, r, ht, ha⟩ := exec_ends (t := s.rejected c) h
  · rw [ht] at hans
    rw [hq, ((answers_rejected s c').unique hans).1]
  · rw [ht] at hans
    exact absurd hc (not_isError_of_accepted ha hans)

/-- Settles O15: the response of a rejection is no response of an accepted command, and a rejection writes STATUS and its
response alone. -/
theorem rejectionIsPrecise : Obligations.RejectionIsPrecise := by
  intro cmd s t c r h hans hok hwnf
  have precise : ∀ c', t = s.rejected c' →
      r = 0 ∧ t.status = ⟨true, s.status.nf, Code.byte c⟩ ∧
        t = { s with status := t.status, responses := s.responses ++ [⟨c, 0⟩] } := by
    rintro c' rfl
    obtain ⟨rfl, rfl⟩ := hans.unique (answers_rejected s c')
    exact ⟨rfl, rfl, rfl⟩
  cases hd : decode s.nVoices cmd with
  | error code =>
    rw [runCommand_of_decode_error hd] at h
    exact precise code (Host.Outcome.next.inj h).symm
  | ok i =>
    rw [runCommand_of_decode_ok hd] at h
    obtain ⟨c', -, -, ht⟩ | ⟨-, u, nf, r', rfl, ha⟩ := exec_ends h
    · exact precise c' ht
    · exact absurd ⟨hok, hwnf⟩ (not_isError_of_accepted ha hans)

/-! ### STATUS after an accepted command -/

/-- Settles O16: a rejection keeps NF and reports no `W_NF`, and an accepted command raises NF when it reports `W_NF`. -/
theorem onlyStepsRaiseNf : Obligations.OnlyStepsRaiseNf := by
  intro i s t c r h hans
  obtain ⟨c', -, hc', rfl⟩ | ⟨-, u, nf, r', rfl, ha⟩ := exec_ends h
  · obtain ⟨rfl, -⟩ := hans.unique (answers_rejected s c')
    exact ⟨fun h0 h1 => absurd (h1.symm.trans h0) Bool.noConfusion, fun hwnf => absurd hwnf hc'.2⟩
  · have hc := code_of_accepted ha hans
    cases nf with
    | true =>
      have hi : RaisesNf i := ha.raises rfl
      exact ⟨fun _ _ => hc, fun _ => ⟨congrArg Status.onNF (ha.status_of_ne hi.ne_stClear), hi⟩⟩
    | false =>
      refine ⟨fun h0 h1 => ?_, fun hwnf => nomatch hc.symm.trans hwnf⟩
      have h1 : u.status.nf = true := h1
      obtain hst | ⟨-, hst⟩ := ha.status
      · exact absurd ((hst ▸ h1).symm.trans h0) Bool.noConfusion
      · exact absurd (hst ▸ h1 : Status.cleared.nf = true) Bool.noConfusion

/-- Settles O17: a rejection sets ERR and writes LAST_ERR, NF is only set, and every other end but that of `ST.CLEAR`
keeps STATUS. -/
theorem onlyStClearClearsStatus : Obligations.OnlyStClearClearsStatus := by
  refine ⟨fun i s t h hi => ?_, fun s => ⟨_, exec_stClear s, rfl⟩, fun _ => rfl⟩
  obtain ⟨c, -, hc, rfl⟩ | ⟨-, u, nf, r, rfl, ha⟩ := exec_ends h
  · exact ⟨id, fun _ => rfl, .inr ⟨c, h, hc⟩⟩
  · rw [State.completed_status, ha.status_of_ne hi]
    cases nf with
    | true => exact ⟨fun _ => rfl, id, .inl rfl⟩
    | false => exact ⟨id, id, .inl rfl⟩

/-! ### What the checks read -/

/-- Only `RB.TUNE` checks a field of a bank (42_resonator_bank.md R147). -/
theorem rejection?_congr (hi : ∀ v f, i ≠ .rbTune v f) (hp : s.params = t.params) (hn : s.nVoices = t.nVoices)
    (hm : s.maxBlk = t.maxBlk) : rejection? i s = rejection? i t := by
  have hop : failedOperandCheck i s = failedOperandCheck i t := by
    cases i with
    | rbTune v f => exact absurd rfl (hi v f)
    | engPrep | bufWrin | bufRdin | bufRdout => rw [failedOperandCheck, failedOperandCheck, hp]
    | mixBlock => rw [failedOperandCheck, failedOperandCheck, hp, hm]
    | _ => rfl
  rw [rejection?, rejection?, hn, hop]

/-- Settles O21: the first failing check is the same in both states. -/
theorem rejectionDependsOnWordsAndMaxblk : Obligations.RejectionDependsOnWordsAndMaxblk := by
  intro i s t hi hp hn hm c hok hwnf
  rw [rejectedWith_iff ⟨hok, hwnf⟩, rejectedWith_iff ⟨hok, hwnf⟩, rejection?_congr hi hp hn hm]

/-! ### The operand checks of a command whose VID and MID are in range -/

theorem rejectedWith_of_global (hv : i.voice? = none) (hm : i.mode? = none) (h : failedOperandCheck i s = some c) :
    RejectedWith i s c := by
  refine (exec_of_rejection ?_).2
  rwa [rejection?, Instr.voiceOk, Instr.modeOk, hv, hm]

theorem rejectedWith_of_bank (hb : s.bank? v.toNat = some b) (hv : i.voice? = some v) (hm : i.mode? = none)
    (h : failedOperandCheck i s = some c) : RejectedWith i s c := by
  refine (exec_of_rejection ?_).2
  rwa [rejection?, Instr.voiceOk, Instr.modeOk, hv, hm, Option.all_some, decide_eq_true (State.bank?_eq_some_lt hb)]

theorem rejectedWith_of_names (hn : s.Names v m b sl) (hv : i.voice? = some v) (hm : i.mode? = some m)
    (h : failedOperandCheck i s = some c) : RejectedWith i s c := by
  obtain ⟨hb, hs⟩ := hn
  obtain ⟨hm8, -⟩ := Vector.getElem?_eq_some_iff.1 hs
  refine (exec_of_rejection ?_).2
  rwa [rejection?, Instr.voiceOk, Instr.modeOk, hv, hm, Option.all_some, Option.all_some,
    decide_eq_true (State.bank?_eq_some_lt hb), decide_eq_true hm8]

theorem finiteCheck_fails {x : F32} {q : Option Code} (h : isFinite x = false) :
    (if !isFinite x then some .eOperand else q) = some .eOperand := by
  rw [h]
  rfl

/-- A rate operand, after the operands `p` before it: not finite, or not positive (60_exceptions.md R224). -/
theorem rateCheck_fails {p : Bool} {sr : F32} {q : Option Code}
    (h : ¬ (p = true ∧ isFinite sr = true ∧ 0 < units32 sr)) :
    (if !(p && isFinite sr) then some .eOperand else if !ratePositive sr then some .eOperand else q) =
      some .eOperand := by
  by_cases hfin : (p && isFinite sr) = true
  · obtain ⟨hp, hsr⟩ := Bool.and_eq_true_iff.1 hfin
    have hrate : ratePositive sr = false :=
      Bool.eq_false_iff.2 fun hpos => h ⟨hp, hsr, units32_pos_of_ratePositive hsr hpos⟩
    rw [hfin, hrate]
    rfl
  · rw [Bool.eq_false_iff.2 hfin]
    rfl

theorem rateCheck_passes {sr : F32} {q : Option Code} (hsr : isFinite sr = true) (hpos : 0 < units32 sr) :
    (if !isFinite sr then some .eOperand else if !ratePositive sr then some .eOperand else q) = q := by
  rw [hsr, ratePositive_of_units32_pos hsr hpos]
  rfl

/-- A partial frequency that is not finite fails the check of all eight. -/
theorem partials_not_all_finite {k : Nat} {fund : F32} (hs : b.slots[k]? = some sl)
    (h : isFinite (partialOf b k sl fund) = false) : (b.partials fund).toList.all isFinite = false := by
  have hmem : partialOf b k sl fund ∈ (b.partials fund).toList := by
    refine Vector.mem_toList_iff.2 (Vector.mem_iff_getElem?.2 ⟨k, ?_⟩)
    rw [Bank.partials, Vector.getElem?_mapIdx, hs, Option.map_some, partialFreq_eq_partialOf]
  exact List.all_eq_false.2 ⟨_, hmem, Bool.eq_false_iff.1 h⟩

/-- Two checks with one code, one after the other, are one check. -/
theorem twoChecks_fail {p p' : Prop} [Decidable p] [Decidable p'] {q : Option Code} (h : p ∨ p') :
    (if p then some c else if p' then some c else q) = some c := by
  by_cases hp : p
  · exact if_pos hp
  · rw [if_neg hp, if_pos (h.resolve_left hp)]

/-- Settles O60: VID and MID are in range, so the verdict is the first operand check that fails. -/
theorem operandChecksReject : Obligations.OperandChecksReject := by
  intro s v m sl hsl
  obtain ⟨b, hn⟩ := State.slot?_eq_some.1 hsl
  have hb := hn.1
  refine ⟨fun _ _ _ h => ?mfCfg, fun _ h => ?notFinite, fun _ _ h => ?setdecay, fun a b' k sk ha hb' hk h => ?tune,
    fun _ h => ?rate, fun _ _ hsr hpos h => ?engPrepBlock, fun _ h => ?flag, fun _ h => ?setcount, fun _ _ h => ?mixBlock,
    fun _ _ h => ?index, fun _ _ hidx h => ?wrinValue, fun _ _ h => ?rdout,
    fun _ => ⟨fun h => ?rdMode, fun h => ?rdBank, fun h => ?rdGlobal⟩⟩
  case mfCfg =>
    refine rejectedWith_of_names hn rfl rfl (rateCheck_fails fun ⟨hab, hc⟩ => h ?_)
    obtain ⟨hfreq, hdecay⟩ := Bool.and_eq_true_iff.1 hab
    exact ⟨hfreq, hdecay, hc⟩
  case notFinite =>
    have hx {q : Option Code} := finiteCheck_fails (q := q) h
    exact ⟨rejectedWith_of_names hn rfl rfl hx, rejectedWith_of_names hn rfl rfl hx, rejectedWith_of_names hn rfl rfl hx,
      rejectedWith_of_bank hb rfl rfl hx, rejectedWith_of_bank hb rfl rfl hx⟩
  case setdecay => exact rejectedWith_of_names hn rfl rfl (rateCheck_fails h)
  case tune =>
    have hall := partials_not_all_finite hk h
    refine rejectedWith_of_bank hb rfl rfl ?_
    rw [failedOperandCheck, hb', Option.all_some, ha, hall]
    rfl
  case rate =>
    have hx {q : Option Code} := rateCheck_fails (p := true) (q := q) fun ⟨_, hr⟩ => h hr
    exact ⟨rejectedWith_of_bank hb rfl rfl hx, fun _ => rejectedWith_of_global rfl rfl hx⟩
  case engPrepBlock => exact rejectedWith_of_global rfl rfl ((rateCheck_passes hsr hpos).trans (if_pos h))
  case flag => exact ⟨rejectedWith_of_names hn rfl rfl (if_pos h), rejectedWith_of_bank hb rfl rfl (if_pos h)⟩
  case setcount => exact rejectedWith_of_bank hb rfl rfl (if_neg (Nat.not_lt.2 h))
  case mixBlock => exact rejectedWith_of_global rfl rfl (twoChecks_fail h)
  case index => exact ⟨rejectedWith_of_bank hb rfl rfl (if_pos h), rejectedWith_of_bank hb rfl rfl (if_pos h)⟩
  case wrinValue => exact rejectedWith_of_bank hb rfl rfl ((if_neg (Nat.not_le.2 hidx)).trans (finiteCheck_fails h))
  case rdout => exact rejectedWith_of_global rfl rfl (twoChecks_fail h)
  case rdMode => exact rejectedWith_of_names hn rfl rfl (if_pos h)
  case rdBank => exact rejectedWith_of_bank hb rfl rfl (if_pos h)
  case rdGlobal => exact rejectedWith_of_global rfl rfl (if_pos h)

end Sys2Proof.Claims

/-! ## The agents of the pending commands are not seen (60_exceptions.md R240) -/

namespace Sys2Proof.Machine

variable {s : State} {c : Code} {ps : List Issued} {o o' : Outcome}

/-- The state with other pending commands. -/
def State.withPending (s : State) (ps : List Issued) : State := { s with pending := ps }

/-- The outcome with other pending commands in its state. -/
def pendingReplaced (ps : List Issued) : Outcome → Outcome
  | .next t => .next (t.withPending ps)
  | .fault r => .fault r
  | .refused r => .refused r

theorem complete_withPending {nf : Bool} {r : Word} {u u' : State} (h : u' = u.withPending ps) :
    complete nf r u' = pendingReplaced ps (complete nf r u) := by
  subst h
  cases nf <;> rfl

theorem check_withPending {p : Prop} [Decidable p] (h : o' = pendingReplaced ps o) :
    (if p then reject c (s.withPending ps) else o') = pendingReplaced ps (if p then reject c s else o) := by
  split
  · rfl
  · exact h

theorem respondField_withPending (field : Option Word) (s : State) :
    respondField field (s.withPending ps) = pendingReplaced ps (respondField field s) := by cases field <;> rfl

theorem onBank_withPending {v : BitVec 8} {k k' : Bank → Outcome} (h : ∀ b, k' b = pendingReplaced ps (k b)) :
    onBank v (s.withPending ps) k' = pendingReplaced ps (onBank v s k) := by
  cases hb : s.bank? v.toNat with
  | none =>
    have hb' : (s.withPending ps).bank? v.toNat = none := hb
    rw [onBank, onBank, hb, hb']
    rfl
  | some b => rw [onBank_of_some hb, onBank_of_some (s := s.withPending ps) hb, h]

theorem onSlot_withPending {v : BitVec 8} {m : BitVec 4} {k k' : Bank → Slot → Outcome}
    (h : ∀ b sl, k' b sl = pendingReplaced ps (k b sl)) :
    onSlot v m (s.withPending ps) k' = pendingReplaced ps (onSlot v m s k) := by
  refine onBank_withPending fun b => ?_
  cases b.slots[m.toNat]? with
  | none => rfl
  | some sl => exact h b sl

/-- No command reads or writes the pending commands. -/
theorem exec_withPending (i : Instr) (s : State) (ps : List Issued) :
    exec i (s.withPending ps) = pendingReplaced ps (exec i s) := by
  cases i with
  | nop | mixPanic | mixCount | stClear => rfl
  | mfRst => exact onSlot_withPending fun _ _ => rfl
  | rbSetfreq | rbSetamp => exact onSlot_withPending fun _ _ => check_withPending rfl
  | mfCfg | rbSetdecay => exact onSlot_withPending fun _ _ => check_withPending (check_withPending rfl)
  | mfStep => exact onSlot_withPending fun _ _ => check_withPending (complete_withPending rfl)
  | rbSettag _ _ tag =>
    refine onSlot_withPending fun _ _ => ?_
    cases tagOfWord tag <;> rfl
  | rbSetcount _ n =>
    refine onBank_withPending fun _ => ?_
    by_cases hn : n.toNat < 9
    · rw [dif_pos hn, dif_pos hn]; rfl
    · rw [dif_neg hn, dif_neg hn]; rfl
  | rbTune | rbPrep | bufWrin => exact onBank_withPending fun _ => check_withPending (check_withPending rfl)
  | rbRst => exact onBank_withPending fun _ => rfl
  | rbStep => exact onBank_withPending fun _ => check_withPending (complete_withPending rfl)
  | mixSetact | bufRdin => exact onBank_withPending fun _ => check_withPending rfl
  | engPrep => exact check_withPending (check_withPending (check_withPending rfl))
  | mixBlock => exact check_withPending (check_withPending (complete_withPending rfl))
  | bufRdout => exact check_withPending (check_withPending rfl)
  | rdMode => exact onSlot_withPending fun _ sl => respondField_withPending _ s
  | rdBank => exact onBank_withPending fun b => respondField_withPending _ s
  | rdGlobal sel => exact respondField_withPending (s.globalField? sel.toNat) s

theorem runCommand_withPending (cmd : Command) (s : State) (ps : List Issued) :
    runCommand cmd (s.withPending ps) = pendingReplaced ps (runCommand cmd s) := by
  cases hd : decode s.nVoices cmd with
  | error code =>
    rw [runCommand_of_decode_error hd, runCommand_of_decode_error (s := s.withPending ps) hd]
    rfl
  | ok i =>
    rw [runCommand_of_decode_ok hd, runCommand_of_decode_ok (s := s.withPending ps) hd]
    exact exec_withPending i s ps

end Sys2Proof.Machine

namespace Sys2Proof.Claims

open Sys2Proof.Machine

/-- Settles O18: the step runs the words of the first pending command, and a command keeps the other ones unread. -/
theorem agentIsNotSeen : Obligations.AgentIsNotSeen := by
  intro s t other hmap hstep
  cases hs : s.pending with
  | nil =>
    rw [hs] at hmap
    obtain rfl : other = [] := List.map_eq_nil_iff.1 hmap
    obtain rfl : s = t := Host.Outcome.next.inj ((stepRejectsOrIdles.2 s hs).symm.trans hstep)
    rfl
  | cons c rest =>
    rw [hs] at hmap
    obtain ⟨c', rest', rfl, hcmd, -⟩ := List.map_eq_cons_iff.1 hmap
    calc step { s with pending := c' :: rest' }
        = runCommand c'.cmd (s.withPending rest') := step_of_pending rfl
      _ = runCommand c.cmd ((s.withPending rest).withPending rest') := by rw [hcmd]; rfl
      _ = pendingReplaced rest' (runCommand c.cmd (s.withPending rest)) := runCommand_withPending ..
      _ = pendingReplaced rest' (step s) := by rw [step_of_pending hs]; rfl
      _ = .next { t with pending := rest' } := by rw [hstep]; rfl

end Sys2Proof.Claims

/-! ## The voices a command does not name (60_exceptions.md R241) -/

namespace Sys2Proof.Machine

variable {s : State} {v : Nat} {w : BitVec 8} {b : Bank}

/-- Another bit of the word is as before, whether or not the word has a bit for the voice. -/
theorem getLsbD_setBit_of_ne {word : Word} {on : Bool} {u k : Nat} (h : k ≠ u) :
    (setBit word u on).getLsbD k = word.getLsbD k := by
  have hbit : (BitVec.twoPow 32 u).getLsbD k = false := by
    rw [BitVec.getLsbD_twoPow, decide_eq_false (Ne.symm h), Bool.and_false]
  cases on with
  | true => rw [setBit, if_pos rfl, BitVec.getLsbD_or, hbit, Bool.or_false]
  | false =>
    rw [setBit, if_neg Bool.false_ne_true, BitVec.getLsbD_and, BitVec.getLsbD_not, hbit, Bool.not_false, Bool.and_true]
    exact Bool.and_eq_left_iff_imp.2 fun hk => decide_eq_true (BitVec.lt_of_getLsbD hk)

/-- The rows of `IN` are disjoint (20_memory.md R60). -/
theorem aIn_inj {p : Params} {u u' n n' : Nat} (hn : n < p.maxBlockCap) (hn' : n' < p.maxBlockCap) :
    aIn p u n = aIn p u' n' ↔ u = u' ∧ n = n' :=
  aOut_inj hn hn'

theorem bank?_putBank_of_ne (hb : s.bank? w.toNat = some b) (hw : w.toNat ≠ v) (b' : Bank) :
    (s.putBank w.toNat b').bank? v = s.bank? v :=
  (State.bank?_putBank (State.bank?_eq_some_lt hb) b' v).trans (if_neg hw.symm)

end Sys2Proof.Machine

namespace Sys2Proof.Claims

open Sys2Proof.Machine

variable {i : Instr} {s t : State} {v : Nat}

/-- A command writes banks through the voice it names, but for the two that go over all voices. -/
theorem bank?_of_effect (hv : ∀ w, i.voice? = some w → w.toNat ≠ v) (hblock : ∀ ns nc, i ≠ .mixBlock ns nc)
    (hprep : ∀ sr n, i ≠ .engPrep sr n) (he : Effect i s t) : t.bank? v = s.bank? v := by
  cases i with
  | mixBlock ns nc => exact absurd rfl (hblock ns nc)
  | engPrep sr n => exact absurd rfl (hprep sr n)
  | mfCfg w => obtain ⟨b, sl, hn, -, -, -, -, rfl⟩ := he; exact bank?_putBank_of_ne hn.1 (hv w rfl) _
  | mfRst w => obtain ⟨b, sl, hn, rfl⟩ := he; exact bank?_putBank_of_ne hn.1 (hv w rfl) _
  | mfStep w | rbSetfreq w | rbSetamp w =>
    obtain ⟨b, sl, hn, -, rfl⟩ := he; exact bank?_putBank_of_ne hn.1 (hv w rfl) _
  | rbSetdecay w => obtain ⟨b, sl, hn, -, -, -, rfl⟩ := he; exact bank?_putBank_of_ne hn.1 (hv w rfl) _
  | rbSettag w => obtain ⟨b, sl, tag, hn, -, rfl⟩ := he; exact bank?_putBank_of_ne hn.1 (hv w rfl) _
  | rbSetcount w | rbStep w => obtain ⟨b, hb, -, rfl⟩ := he; exact bank?_putBank_of_ne hb (hv w rfl) _
  | rbTune w | rbPrep w => obtain ⟨b, hb, -, -, rfl⟩ := he; exact bank?_putBank_of_ne hb (hv w rfl) _
  | rbRst w => obtain ⟨b, hb, rfl⟩ := he; exact bank?_putBank_of_ne hb (hv w rfl) _
  | nop | mixPanic | mixCount | stClear => obtain rfl := he; rfl
  | mixSetact | bufRdin | bufRdout => obtain ⟨-, -, rfl⟩ := he; rfl
  | bufWrin => obtain ⟨-, -, -, rfl⟩ := he; rfl
  | rdMode => obtain ⟨b, sl, w, -, -, rfl⟩ := he; rfl
  | rdBank => obtain ⟨b, w, -, -, rfl⟩ := he; rfl
  | rdGlobal => obtain ⟨w, -, rfl⟩ := he; rfl

/-- `BUF.WRIN` alone writes `IN`, in the row of the voice it names. -/
theorem inRow_of_effect (hv : ∀ w, i.voice? = some w → w.toNat ≠ v) (he : Effect i s t) (hwf : s.inBuf.wf) {n : Nat}
    (hn : n < s.params.maxBlockCap) : t.inBuf.read (aIn s.params v n) = s.inBuf.read (aIn s.params v n) := by
  by_cases hin : t.inBuf = s.inBuf
  · rw [hin]
  · obtain ⟨w, k, x, rfl⟩ := (globalWrites_of_effect he).inBuf hin
    obtain ⟨-, hk, -, rfl⟩ := he
    have hrow : aIn s.params v n ≠ aIn s.params w.toNat k.toNat := fun h => hv w rfl ((aIn_inj hn hk).1 h).1.symm
    exact (Memory.read_write hwf ..).trans (if_neg hrow)

/-- `MIX.SETACT` writes the bit of the voice it names, and `MIX.PANIC` alone the bits of all. -/
theorem activeBit_of_effect (hv : ∀ w, i.voice? = some w → w.toNat ≠ v) (he : Effect i s t) :
    t.active.getLsbD v = s.active.getLsbD v ∨ i = .mixPanic := by
  by_cases hact : t.active = s.active
  · exact .inl (by rw [hact])
  · obtain ⟨w, a, rfl⟩ | rfl := (globalWrites_of_effect he).active hact
    · obtain ⟨-, -, rfl⟩ := he
      exact .inl (getLsbD_setBit_of_ne (hv w rfl).symm)
    · exact .inr rfl

/-- Settles O19: a rejection writes no bank, no buffer and no bit of `G.ACTIVE`, and the effect of a row those of the voice
it names. -/
theorem voicesAreIsolated : Obligations.VoicesAreIsolated := by
  intro i s t v h hv hblock hprep
  obtain ⟨c, -, rfl⟩ | he := exec_cases h
  · exact ⟨rfl, fun _ _ _ => rfl, fun _ => .inl rfl⟩
  · exact ⟨bank?_of_effect hv hblock hprep he, fun hwf _ hn => inRow_of_effect hv he hwf hn,
      fun _ => activeBit_of_effect hv he⟩

end Sys2Proof.Claims

/-! ## A run over the pending commands ends (70_reset_and_hazards.md R255) -/

namespace Sys2Proof.Claims

open Sys2Proof.Machine

/-- A step with a command pending takes it and answers it once. -/
theorem step_answers_next {s : State} {c : Issued} {rest : List Issued} (h : s.pending = c :: rest) :
    ∃ t r, step s = .next t ∧ t.pending = rest ∧ t.responses = s.responses ++ [r] := by
  obtain ⟨t, r, hrun, hresp, hpend, -⟩ := oneResponsePerCommand c.cmd { s with pending := rest }
  exact ⟨t, r, (step_of_pending h).trans hrun, hpend, hresp⟩

/-- Settles O9: each step of the run takes one of the commands and answers it. -/
theorem everyRunEndsWithItsResponses : Obligations.EveryRunEndsWithItsResponses := by
  intro s
  generalize hcmds : s.pending = cmds
  induction cmds generalizing s with
  | nil => exact ⟨s, core_run_zero.2 rfl, hcmds, [], (List.append_nil _).symm, rfl⟩
  | cons c rest ih =>
    obtain ⟨t, r, hstep, hpend, hresp⟩ := step_answers_next hcmds
    obtain ⟨u, hrun, hdone, rs, hrs, hlen⟩ := ih t hpend
    refine ⟨u, core_run_succ.2 ⟨t, hstep, hrun⟩, hdone, r :: rs, ?_, congrArg Nat.succ hlen⟩
    rw [hrs, hresp, List.append_assoc, List.singleton_append]

end Sys2Proof.Claims

/-! ## The count hazard: COUNT_PEND is not in force (70_reset_and_hazards.md R260; 42_resonator_bank.md R146) -/

namespace Sys2Proof.Machine

variable {s t : State} {v : Nat} {b b' : Bank}

/-- What is left of a bank when COUNT_PEND is not looked at. -/
def Bank.eraseCountPend (b : Bank) : Bank := { b with countPend := 0 }

/-- A step of the bank does not read COUNT_PEND, and keeps it. -/
theorem Bank.step_eraseCountPend (p : Params) (b : Bank) (x : F32) :
    b.eraseCountPend.step p x = ⟨(b.step p x).st.eraseCountPend, (b.step p x).y, (b.step p x).nf⟩ := rfl

/-- Banks that differ at most in COUNT_PEND are stepped alike. -/
theorem Bank.step_of_eraseCountPend_eq (h : b'.eraseCountPend = b.eraseCountPend) (p : Params) (x : F32) :
    (b'.step p x).st.eraseCountPend = (b.step p x).st.eraseCountPend ∧ (b'.step p x).y = (b.step p x).y ∧
      (b'.step p x).nf = (b.step p x).nf := by
  have hstep : b'.eraseCountPend.step p x = b.eraseCountPend.step p x := by rw [h]
  rw [Bank.step_eraseCountPend, Bank.step_eraseCountPend] at hstep
  exact Stepped.mk.inj hstep

/-- The bank of every voice is the same in both states but for COUNT_PEND. -/
def AlikeButCountPend (s t : State) : Prop :=
  t.banks.map Bank.eraseCountPend = s.banks.map Bank.eraseCountPend

theorem AlikeButCountPend.map_bank? (h : AlikeButCountPend s t) (v : Nat) :
    (t.bank? v).map Bank.eraseCountPend = (s.bank? v).map Bank.eraseCountPend := by
  rw [State.bank?, State.bank?, ← List.getElem?_map, ← List.getElem?_map, h]

theorem AlikeButCountPend.exists_bank (h : AlikeButCountPend s t) (hb : s.bank? v = some b) :
    ∃ b', t.bank? v = some b' ∧ b'.eraseCountPend = b.eraseCountPend := by
  have hv := h.map_bank? v
  rw [hb, Option.map_some] at hv
  exact Option.map_eq_some_iff.1 hv

theorem AlikeButCountPend.nVoices (h : AlikeButCountPend s t) : t.nVoices = s.nVoices := by
  simpa [State.nVoices] using congrArg List.length h

theorem AlikeButCountPend.putBank (h : AlikeButCountPend s t) (hb : b'.eraseCountPend = b.eraseCountPend) (v : Nat) :
    AlikeButCountPend (s.putBank v b) (t.putBank v b') := by
  rw [AlikeButCountPend, State.putBank_banks, State.putBank_banks, List.map_set, List.map_set, h, hb]

/-- The slots of a state as found in its banks without COUNT_PEND. -/
theorem State.slot?_eq_eraseCountPend (s : State) (a m : Nat) :
    s.slot? a m = ((s.bank? a).map Bank.eraseCountPend).bind fun b => b.slots[m]? := by
  rw [State.slot?, Option.bind_map]
  rfl

theorem AlikeButCountPend.slot? (h : AlikeButCountPend s t) (a m : Nat) : t.slot? a m = s.slot? a m := by
  rw [State.slot?_eq_eraseCountPend, State.slot?_eq_eraseCountPend, h.map_bank?]

end Sys2Proof.Machine

namespace Sys2Proof.Claims

open Sys2Proof.Machine

variable {s t u : State} {v w : BitVec 8} {n : Word} {x : F32} {r : Response}

/-- `RB.SETCOUNT`, accepted or not, keeps the parameters and `G.MAXBLK`, and every bank but for COUNT_PEND. -/
theorem alikeButCountPend_of_rbSetcount (h : exec (.rbSetcount v n) s = .next t) :
    t.params = s.params ∧ t.maxBlk = s.maxBlk ∧ AlikeButCountPend s t := by
  obtain ⟨c, -, rfl⟩ | ⟨b, hb, -, rfl⟩ := exec_cases h
  · exact ⟨rfl, rfl, rfl⟩
  · exact ⟨rfl, rfl, map_set_of_getElem? hb rfl⟩

/-- `RB.STEP` answers alike in states that differ in COUNT_PEND and in what no check and no step reads, and leaves them
alike: with the same code where it is rejected, and otherwise with the output and the NF of banks that step alike. -/
theorem rbStep_of_alikeButCountPend (hst : AlikeButCountPend s t) (hparams : t.params = s.params)
    (hmaxBlk : t.maxBlk = s.maxBlk) (h : exec (.rbStep w x) s = .next u) (hans : u.responses = s.responses ++ [r]) :
    ∃ y, exec (.rbStep w x) t = .next y ∧ y.responses = t.responses ++ [r] ∧ AlikeButCountPend u y := by
  obtain ⟨c, ⟨hok, hwnf⟩, rfl⟩ | ⟨b, hb, hx, rfl⟩ := exec_cases h
  · have ht : RejectedWith (.rbStep w x) t c :=
      (rejectionDependsOnWordsAndMaxblk (.rbStep w x) s t (fun _ _ => nofun)
        hparams.symm hst.nVoices.symm hmaxBlk.symm c hok hwnf).1 h
    obtain rfl : ⟨c, 0⟩ = r := List.singleton_inj.1 (List.append_cancel_left hans)
    exact ⟨t.rejected c, ht, rfl, hst⟩
  · obtain ⟨b', hb', hbb'⟩ := hst.exists_bank hb
    obtain ⟨hbank, hy, hnf⟩ := Bank.step_of_eraseCountPend_eq hbb' s.params x
    have ht := exec_rbStep_of_bank hb' hx
    rw [hparams, hy, hnf] at ht
    obtain rfl := List.singleton_inj.1 (List.append_cancel_left hans)
    exact ⟨_, ht, rfl, hst.putBank hbank w.toNat⟩

/-- Settles O42: `RB.SETCOUNT` writes COUNT_PEND alone, which a step of the bank does not read. -/
theorem pendingCountDoesNotChangeAStep : Obligations.PendingCountDoesNotChangeAStep := by
  intro s t u v w n x r hset hstep hans
  obtain ⟨hparams, hmaxBlk, hst⟩ := alikeButCountPend_of_rbSetcount hset
  obtain ⟨y, hy, hresp, hyu⟩ := rbStep_of_alikeButCountPend hst hparams hmaxBlk hstep hans
  exact ⟨y, hy, hresp, hyu.slot?⟩

end Sys2Proof.Claims
